-- ==== Sys2Proof/Word.lean ====
section
/-! DEFINITION. The two word types of the block: bytes (u8) and container or register words (u32).
spec/00_scope.md R14 (`u32`), R15 (register width), R18 (byte sequences). -/

namespace Sys2Proof

/-- One byte of a memory, a command byte or a pixel (00_scope.md R18). -/
abbrev Byte := BitVec 8

/-- A u32: a register of the host interface or a container word (00_scope.md R14, R15). -/
abbrev Word := BitVec 32

/-- The largest value a u32 register or container word can hold (00_scope.md R16). -/
abbrev u32Max : Nat := 4294967295

end Sys2Proof
end

