-- ==== Sys2Proof/Config.lean ====
section
/-! DEFINITION. The parameters an implementation fixes (spec/00_scope.md R11 to R13) and the constants the
source settles (R14). A `Config` is held in `State.cfg`, so that a claim about every state is a claim about
every admitted value of the parameters (log 1). -/

namespace Sys2Proof

/-- `P_HDR_RULE`, the frame header-presence test: GT is the spec's resolution (00_scope.md R13, 90_conflicts.md C1). -/
inductive HdrRule where
  | gt
  | le
deriving DecidableEq, Repr

/-- The open parameters of the block (00_scope.md R11, R12, R13). -/
structure Config where
  maxIbuf   : Nat
  maxObuf   : Nat
  maxFrames : Nat
  hdrRule   : HdrRule
deriving DecidableEq, Repr

/-- The admitted values of the parameters (00_scope.md R11, R12). -/
def Config.ok (c : Config) : Bool :=
  1 ≤ c.maxIbuf && c.maxIbuf ≤ u32Max && (1 ≤ c.maxObuf && c.maxObuf ≤ u32Max) &&
    (1 ≤ c.maxFrames && c.maxFrames ≤ 1073741821)

/-- DESIGN CHOICE (log 1): the parameter values 95_test_vectors.md uses, taken for `State.reset`. -/
def Config.vectors : Config :=
  { maxIbuf := 4096, maxObuf := 4096, maxFrames := 16, hdrRule := .gt }

/-- `HDR_LEN`, the frame header length in bytes (00_scope.md R14). -/
def hdrLen : Nat := 10

/-- `HDR_THRESHOLD` (00_scope.md R14). -/
def hdrThreshold : Nat := 0x10

/-- `LIT_MAX`, the maximal literal run (00_scope.md R14). -/
def litMaxRun : Nat := 127

/-- `TRN_MAX`, the maximal transparency run (00_scope.md R14). -/
def trnMaxRun : Nat := 128

/-- `SENTINEL`, the transparent pixel (00_scope.md R14). -/
def sentinel : Byte := 0xFF#8

end Sys2Proof
end

