-- ==== Sys2Proof/Syntax.lean ====
section
/-! DEFINITION. The instructions: one constructor per row of spec/opcode_table.json.
The first five are the commands of a frame's stream (30_encoding.md R100 to R106, R120), the others the
operation requests of CMD (30_encoding.md R116 to R118). -/

namespace Sys2Proof

/-- One row of the opcode table each. -/
inductive Instr where
  /-- LIT: a literal run of `n` payload bytes (41_decoder.md R185). -/
  | lit (n : Nat)
  /-- END: the zero-length literal run, the byte 0x00 (30_encoding.md R111, R120; log 5). -/
  | endRun
  /-- LITMAX: a literal run of 127 payload bytes (41_decoder.md R186). -/
  | litMax
  /-- TRNMAX: a transparency run of 128 pixels (41_decoder.md R188). -/
  | trnMax
  /-- TRN: a transparency run of `n` pixels (41_decoder.md R187). -/
  | trn (n : Nat)
  /-- PARSE_OFFSETS, OP 0x1 (40_indexer.md R142). -/
  | parseOffsets
  /-- FRAME_BYTES, OP 0x2 (40_indexer.md R145). -/
  | frameBytes
  /-- BUILD_CONTAINER, OP 0x3 (40_indexer.md R148). -/
  | buildContainer
  /-- FRAME_WIDTH, OP 0x4 (41_decoder.md R192). -/
  | frameWidth
  /-- DECOMPRESS, OP 0x5 (41_decoder.md R193). -/
  | decompress
  /-- FRAME_DIMS, OP 0x6 (41_decoder.md R195). -/
  | frameDims
  /-- COMPRESS_BLOCK, OP 0x7 (42_encoder.md R239). -/
  | compressBlock
  /-- COMPRESS_ROW, OP 0x8 (42_encoder.md R240). -/
  | compressRow
  /-- ENCODE_FRAME, OP 0x9 (42_encoder.md R241). -/
  | encodeFrame
  /-- ILLEGAL_OP: an OP code that names no operation (30_encoding.md R118). -/
  | illegalOp (op : BitVec 4)
deriving DecidableEq, Repr

end Sys2Proof
end

