-- ==== Sys2Proof/Machine/State.lean ====
section
/-! DEFINITION. The state of the block (spec/10_state.md), its faults and refusals, and reset (R59, R301). -/

namespace Sys2Proof.Machine

/-- The source's and the spec's errors, STATUS.ERR 1 to 6 (60_exceptions.md R271). -/
inductive Err where
  | malformedContainer
  | indexOutOfRange
  | unexpectedEndOfFrame
  | dimensionMismatch
  | capacityExceeded
  | illegalRequest
deriving DecidableEq, Repr

/-- The sixteen registers of 10_state.md R31. -/
inductive RegName where
  | cmd
  | status
  | inBase
  | inLen
  | outLen
  | frameCount
  | idx
  | sliceBase
  | sliceLen
  | width
  | height
  | gridW
  | gridH
  | contBase
  | contLen
  | offtLen
deriving DecidableEq, Repr

/-- The four memories (10_state.md R54 to R57). -/
inductive MemName where
  | ibuf
  | obuf
  | offt
  | flen
deriving DecidableEq, Repr

/-- What a result register holds: a word, or the spec's UNSPECIFIED, which an operation's error leaves
(60_exceptions.md R281) and whose read faults (00_scope.md R23; log 2). Every register holds a word at reset. -/
inductive RegValue where
  | word (v : Word)
  | unspecified
deriving DecidableEq, Repr

/-- A memory: its written cells, keys strictly rising (`Memory.wf`). A cell that is not listed is unwritten or
UNSPECIFIED and has no value: reading it faults (00_scope.md R23, 10_state.md R59; log 3). -/
abbrev Memory (α : Type) := List (Nat × α)

/-- The replays of the decoder operations (41_decoder.md R190, R191, R194). FRAME_DIMS runs a width replay and
then a decode replay, which keeps the width `w` the first one found. -/
inductive Task where
  | width
  | decode
  | dimsWidth
  | dimsDecode (w : Nat)
deriving DecidableEq, Repr

/-- The sequencer's state inside a FRAME_WIDTH, DECOMPRESS or FRAME_DIMS operation (10_state.md R50 to R52). -/
structure Replay where
  task  : Task
  /-- The index in the window of the next command byte (R50, R51). -/
  pc    : Nat
  /-- The pixel-count accumulator of width inference (R52). -/
  acc   : Nat
  /-- The width replay has executed its terminator (41_decoder.md R190). -/
  ended : Bool
  /-- The pixels a decode replay has produced (41_decoder.md R191). -/
  out   : List Byte
deriving DecidableEq, Repr

/-- One access of the host, or the platform's reset (30_encoding.md R121, 10_state.md R49, 20_memory.md R76,
70_reset_and_hazards.md R300; logs 7, 11, 13). -/
inductive HostEvent where
  /-- A register write at a byte offset of REG, `width` bytes wide (10_state.md R49). -/
  | writeReg (offset width : Nat) (v : Word)
  /-- A register read at a byte offset of REG, `width` bytes wide (10_state.md R49). -/
  | readReg (offset width : Nat)
  /-- `IBUF[a] <- bytes` (30_encoding.md R121). -/
  | writeIbuf (a : Nat) (bytes : List Byte)
  /-- `FLEN[k] <- v` (30_encoding.md R121). -/
  | writeFlen (k : Nat) (v : Word)
  /-- A write to OBUF, which the host only reads (10_state.md R55). -/
  | writeObuf (a : Nat) (bytes : List Byte)
  /-- A write to OFFT, of which the host can write no entry (10_state.md R56). -/
  | writeOfft (k : Nat) (v : Word)
  /-- A read of one cell: a byte of IBUF or OBUF, a u32 entry of OFFT or FLEN (20_memory.md R76). -/
  | readMem (m : MemName) (a : Nat)
  /-- `COPY OBUF[a..b) -> IBUF[d]` (30_encoding.md R121). -/
  | copy (a b d : Nat)
  /-- The platform's reset (70_reset_and_hazards.md R300). -/
  | reset
deriving DecidableEq, Repr

/-- Why the machine stops. -/
inductive Fault where
  /-- Raised by an operation or a host access that reads a memory cell nothing has written, or that an operation
  left UNSPECIFIED (00_scope.md R23, 93_implementation_defined.md U22 to U24). Safe: the hardware goes on. -/
  | unwritten (m : MemName)
  /-- Raised by an operation or a host access that reads a register an operation's error left UNSPECIFIED
  (00_scope.md R23, 93_implementation_defined.md U20, U21). Safe: the hardware goes on. -/
  | unspecifiedRegister (r : RegName)
  /-- Raised by a host access to an address a memory does not have (20_memory.md R80; log 11). Safe. -/
  | noSuchAddress (m : MemName)
deriving DecidableEq, Repr

/-- What the machine has no meaning for. -/
inductive Refusal where
  /-- Raised by `exec` for an instruction with no meaning; no arm uses it. Safe. -/
  | notModelled (mnemonic : String)
  /-- Raised by a register access at an offset R31 does not list, of another width than 4 or not at a multiple of
  4: "a model refuses it" (10_state.md R49). Safe. -/
  | badRegisterAccess
  /-- Raised by a host write to OBUF or OFFT, which the host cannot write (10_state.md R55, R56; log 11). Safe. -/
  | readOnlyMemory (m : MemName)
  /-- Raised by a frame command when no replay runs: a command exists only inside one (10_state.md R50; log 10). Safe. -/
  | noReplay
deriving DecidableEq, Repr

/-- Everything the spec gives the block (10_state.md), its parameters (R60; log 1), and the model's own `hostQueue`
and `busData` (logs 7, 8). -/
structure State where
  cfg        : Config
  /-- CMD.OP (R32). -/
  cmdOp      : BitVec 4
  /-- STATUS.ERR (R36); `none` is code 0. -/
  err        : Option Err
  /-- STATUS.DONE (R36). -/
  done       : Bool
  /-- STATUS.HDR (R36). -/
  hdr        : Bool
  inBase     : Word
  inLen      : Word
  outLen     : RegValue
  frameCount : RegValue
  idx        : Word
  sliceBase  : RegValue
  sliceLen   : RegValue
  width      : RegValue
  height     : RegValue
  gridW      : Word
  gridH      : Word
  contBase   : RegValue
  contLen    : RegValue
  offtLen    : Word
  /-- IBUF (R54). -/
  ibuf       : Memory Byte
  /-- OBUF (R55). -/
  obuf       : Memory Byte
  /-- OFFT (R56). -/
  offt       : Memory Word
  /-- FLEN (R57). -/
  flen       : Memory Word
  /-- `pc`, `acc` and the rest of a running replay; `none` between operations (R50, R52, R58). -/
  replay     : Option Replay
  /-- The host's pending accesses, oldest first (log 7). -/
  hostQueue  : List HostEvent
  /-- What the last host read returned (log 8). -/
  busData    : Word
deriving DecidableEq, Repr

/-- The block after reset with parameters `c` and the host's accesses `q` still to come: every register 0, every
memory UNSPECIFIED, no operation running (10_state.md R59, 70_reset_and_hazards.md R301, R302). -/
def State.resetWith (c : Config) (q : List HostEvent) : State :=
  { cfg := c, cmdOp := 0#4, err := none, done := false, hdr := false
    inBase := 0#32, inLen := 0#32, outLen := .word 0#32, frameCount := .word 0#32, idx := 0#32
    sliceBase := .word 0#32, sliceLen := .word 0#32, width := .word 0#32, height := .word 0#32
    gridW := 0#32, gridH := 0#32, contBase := .word 0#32, contLen := .word 0#32, offtLen := 0#32
    ibuf := [], obuf := [], offt := [], flen := []
    replay := none, hostQueue := q, busData := 0#32 }

/-- The machine right after reset (10_state.md R59). -/
def State.reset : State := State.resetWith Config.vectors []

end Sys2Proof.Machine
end

