-- ==== Sys2Proof/Machine/Ops.lean ====
section
/-! DEFINITION. The shared operations: memory cells, how a step of an operation ends (spec/00_scope.md R22),
error entry (60_exceptions.md R281) and completion (R292), and the two stores of results. There is no return
from an error (R283). -/

namespace Sys2Proof.Machine

/-! ### Memories -/

/-- The value of cell `a`, or none where nothing is written (00_scope.md R20, R23). -/
def Memory.read {α : Type} : Memory α → Nat → Option α
  | [], _ => none
  | (k, v) :: m, a => if k = a then some v else Memory.read m a

/-- Store `v` in cell `a`, keeping the keys strictly rising (00_scope.md R20). -/
def Memory.write {α : Type} : Memory α → Nat → α → Memory α
  | [], a, v => [(a, v)]
  | (k, w) :: m, a, v =>
    if a < k then (a, v) :: (k, w) :: m
    else if a = k then (a, v) :: m
    else (k, w) :: Memory.write m a v

/-- `MemWrite(M, a, |vs|, vs)`, in ascending address order (00_scope.md R20, 20_memory.md R83). -/
def Memory.writeAll {α : Type} : Memory α → Nat → List α → Memory α
  | m, _, [] => m
  | m, a, v :: vs => Memory.writeAll (Memory.write m a v) (a + 1) vs

/-- The memory whose only written cells are `vs`, at `a` and above. -/
def Memory.ofList {α : Type} : Nat → List α → Memory α
  | _, [] => []
  | a, v :: vs => (a, v) :: Memory.ofList (a + 1) vs

/-- Keys at `lo` or above, strictly rising, below `size`. -/
def Memory.wfFrom {α : Type} (size : Nat) : Nat → Memory α → Bool
  | _, [] => true
  | lo, (k, _) :: m => decide (lo ≤ k) && decide (k < size) && Memory.wfFrom size (k + 1) m

/-- The canonical form of a memory of `size` cells. No entry can equal what an unlisted cell reads as, because
that is no value at all. -/
def Memory.wf {α : Type} (size : Nat) (m : Memory α) : Bool := Memory.wfFrom size 0 m

/-! ### How a step of an operation ends -/

/-- An operation's pseudocode stops early by `raise E` (00_scope.md R22), or by reading what has no value (R23). -/
inductive Stop where
  | raise (e : Err)
  | fault (f : Fault)
deriving DecidableEq, Repr

/-- `raise E` (00_scope.md R22). -/
def raise {α : Type} (e : Err) : Except Stop α := .error (.raise e)

/-- A read of something UNSPECIFIED (00_scope.md R23). -/
def stopFault {α : Type} (f : Fault) : Except Stop α := .error (.fault f)

/-! ### Results, error entry and completion -/

/-- The results an operation may write (30_encoding.md R117, "results written"). STATUS.HDR is not among them: an
error keeps it (60_exceptions.md R281). -/
inductive Result where
  | frameCount
  | offt
  | contBase
  | contLen
  | sliceBase
  | sliceLen
  | obuf
  | outLen
  | width
  | height
deriving DecidableEq, Repr

/-- The column "results written" of 30_encoding.md R117, less STATUS.HDR and OFFT_LEN, for which R281 has clauses
of their own. -/
def resultsOf : Instr → List Result
  | .lit _ => []
  | .endRun => []
  | .litMax => []
  | .trnMax => []
  | .trn _ => []
  | .parseOffsets => [.frameCount, .offt, .contBase, .contLen]
  | .frameBytes => [.sliceBase, .sliceLen]
  | .buildContainer => [.obuf, .outLen]
  | .frameWidth => [.width]
  | .decompress => [.obuf, .outLen]
  | .frameDims => [.width, .height, .obuf, .outLen]
  | .compressBlock => [.obuf, .outLen]
  | .compressRow => [.obuf, .outLen]
  | .encodeFrame => [.obuf, .outLen]
  | .illegalOp _ => []

/-- `<- UNSPECIFIED` of a register, where it is among the results `rs` (60_exceptions.md R281). -/
def RegValue.lost (v : RegValue) (r : Result) (rs : List Result) : RegValue := if r ∈ rs then .unspecified else v

/-- `<- UNSPECIFIED` of a memory, where it is among the results `rs` (60_exceptions.md R281). -/
def Memory.lost {α : Type} (m : Memory α) (r : Result) (rs : List Result) : Memory α := if r ∈ rs then [] else m

/-- Error entry of operation `i` (60_exceptions.md R281): ERR and DONE are written, every result of the operation
becomes UNSPECIFIED, a failed PARSE_OFFSETS leaves no valid offset table, and the operation's internal state
vanishes (10_state.md R58). -/
def errorEntry (i : Instr) (e : Err) (s : State) : State :=
  { s with
    err := some e
    done := true
    frameCount := s.frameCount.lost .frameCount (resultsOf i)
    contBase := s.contBase.lost .contBase (resultsOf i)
    contLen := s.contLen.lost .contLen (resultsOf i)
    sliceBase := s.sliceBase.lost .sliceBase (resultsOf i)
    sliceLen := s.sliceLen.lost .sliceLen (resultsOf i)
    width := s.width.lost .width (resultsOf i)
    height := s.height.lost .height (resultsOf i)
    outLen := s.outLen.lost .outLen (resultsOf i)
    obuf := Memory.lost s.obuf .obuf (resultsOf i)
    offt := Memory.lost s.offt .offt (resultsOf i)
    offtLen := if i = .parseOffsets then 0#32 else s.offtLen
    replay := none }

/-- Completion without error (60_exceptions.md R292): ERR 0, DONE 1; the operation's internal state vanishes
(10_state.md R58). -/
def succeed (s : State) : State := { s with err := none, done := true, replay := none }

/-- The end of operation `i`: `s` is the state its steps before the end left (STATUS.HDR may be written), `r` what
its pseudocode gives. Errors are precise: on `raise` nothing but error entry takes effect (60_exceptions.md R282). -/
def conclude (i : Instr) (s : State) : Except Stop State → Host.Outcome State Fault Refusal
  | .ok t => .next (succeed t)
  | .error (.raise e) => .next (errorEntry i e s)
  | .error (.fault f) => .fault f

/-! ### Stores of results -/

/-- The store of an OBUF-writing operation: the capacity check, `MemWrite(OBUF, 0, |p|, p)` and OUT_LEN
(41_decoder.md R193, 42_encoder.md R239). The bytes above are UNSPECIFIED afterwards (10_state.md R55). -/
def storeOutput (s : State) (p : List Byte) : Except Stop State :=
  if s.cfg.maxObuf < p.length then raise .capacityExceeded
  else .ok { s with obuf := Memory.ofList 0 p, outLen := .word (BitVec.ofNat 32 p.length) }

/-- The store of an inferred width (41_decoder.md R192). -/
def storeWidth (s : State) (w : Nat) : Except Stop State :=
  if u32Max < w then raise .capacityExceeded
  else .ok { s with width := .word (BitVec.ofNat 32 w) }

/-- A CMD write stores OP and clears DONE before the operation runs (60_exceptions.md R292, 10_state.md R32). -/
def State.startOp (s : State) (v : Word) : State :=
  { s with cmdOp := v.extractLsb' 0 4, done := false }

end Sys2Proof.Machine
end

