-- ==== Sys2Proof/Machine/Operands.lean ====
section
/-! DEFINITION. The operands of operations: the window (spec/10_state.md R33), little-endian words of it
(00_scope.md R21), the offset table and the frame lengths (10_state.md R56, R57), and registers. A cell with no
value stops the operation only where a rule reads it (00_scope.md R23; log 3). -/

namespace Sys2Proof.Machine

/-- A window: its byte at each index, none where IBUF is unwritten (10_state.md R33, 70_reset_and_hazards.md R304). -/
abbrev Window := List (Option Byte)

/-- The window check, computed without wrap-around (10_state.md R33). -/
def State.windowOk (s : State) : Bool := s.inBase.toNat + s.inLen.toNat ≤ s.cfg.maxIbuf

/-- `Win = MemRead(IBUF, x[IN_BASE], x[IN_LEN])` (10_state.md R33). -/
def State.window (s : State) : Window :=
  (List.range s.inLen.toNat).map fun k => Memory.read s.ibuf (s.inBase.toNat + k)

/-- Every byte of a sequence, faulting at the first one with no value (00_scope.md R23). -/
def specified : Window → Except Stop (List Byte)
  | [] => .ok []
  | none :: _ => stopFault (.unwritten .ibuf)
  | some b :: F => (specified F).map (b :: ·)

/-- `F[k]`. -/
def readByte (F : Window) (k : Nat) : Except Stop Byte :=
  match F[k]? with
  | some (some b) => .ok b
  | _ => stopFault (.unwritten .ibuf)

/-- `F[a..b)` (00_scope.md R18). -/
def readSlice (F : Window) (a b : Nat) : Except Stop (List Byte) := specified ((F.take b).drop a)

/-- `LE32` of four bytes (00_scope.md R21; the byte arrangement is log 18). -/
def le32 (b0 b1 b2 b3 : Byte) : Word :=
  BitVec.ofNat 32 (b0.toNat + 256 * b1.toNat + 65536 * b2.toNat + 16777216 * b3.toNat)

/-- `bytesLE32(v)` (00_scope.md R21). -/
def bytesLE32 (v : Word) : List Byte :=
  [v.extractLsb' 0 8, v.extractLsb' 8 8, v.extractLsb' 16 8, v.extractLsb' 24 8]

/-- `LE32(F, k)` (00_scope.md R21, 20_memory.md R70). -/
def readWord (F : Window) (k : Nat) : Except Stop Word := do
  let b0 ← readByte F k
  let b1 ← readByte F (k + 1)
  let b2 ← readByte F (k + 2)
  let b3 ← readByte F (k + 3)
  return le32 b0 b1 b2 b3

/-- The `n` words at `k`, `k + 4`, ... (40_indexer.md R141). -/
def readWords (F : Window) : Nat → Nat → Except Stop (List Word)
  | _, 0 => .ok []
  | k, n + 1 => do
    let w ← readWord F k
    let ws ← readWords F (k + 4) n
    return w :: ws

/-- A register's value, faulting where it is UNSPECIFIED (00_scope.md R23). -/
def RegValue.get (r : RegName) : RegValue → Except Stop Word
  | .word v => .ok v
  | .unspecified => stopFault (.unspecifiedRegister r)

/-- `OFFT[0..x[OFFT_LEN])` (40_indexer.md R145). -/
def State.offsets (s : State) : List (Option Word) :=
  (List.range s.offtLen.toNat).map fun k => Memory.read s.offt k

/-- `offs[k]` of an offset table. -/
def readOffset (offs : List (Option Word)) (k : Nat) : Except Stop Word :=
  match offs[k]? with
  | some (some w) => .ok w
  | _ => stopFault (.unwritten .offt)

/-- `FLEN[k..k+n-1]` (40_indexer.md R148). -/
def readLengths (m : Memory Word) : Nat → Nat → Except Stop (List Nat)
  | _, 0 => .ok []
  | k, n + 1 =>
    match Memory.read m k with
    | none => stopFault (.unwritten .flen)
    | some v => (readLengths m (k + 1) n).map (v.toNat :: ·)

/-- The common start of an operation that reads a window: the window check, then its own pseudocode `k` on the
window (10_state.md R33, 60_exceptions.md R280). -/
def windowOp (i : Instr) (s : State) (k : Window → Except Stop State) : Host.Outcome State Fault Refusal :=
  if s.windowOk then conclude i s (k s.window) else conclude i s (raise .illegalRequest)

end Sys2Proof.Machine
end

