-- ==== Sys2Proof/Machine/Flags.lean ====
section
/-! DEFINITION. The flags of STATUS (spec/10_state.md R36, R53), the header test behind HDR (41_decoder.md R181)
and the terminator property of a command, which is decoded and not stored (30_encoding.md R103). -/

namespace Sys2Proof.Machine

/-- The code of an error (60_exceptions.md R271). -/
def Err.code : Err → BitVec 4
  | .malformedContainer => 1#4
  | .indexOutOfRange => 2#4
  | .unexpectedEndOfFrame => 3#4
  | .dimensionMismatch => 4#4
  | .capacityExceeded => 5#4
  | .illegalRequest => 6#4

/-- STATUS.ERR (10_state.md R36): 0 when there is no error. -/
def errCode : Option Err → BitVec 4
  | none => 0#4
  | some e => e.code

/-- STATUS as the host reads it: ERR in bits[3:0], DONE in bit 4, HDR in bit 5, 0 above (10_state.md R36). -/
def State.statusWord (s : State) : Word :=
  (0#26 ++ BitVec.ofBool s.hdr ++ BitVec.ofBool s.done ++ errCode s.err)

/-- `term(c)`: a command byte is a terminator iff it is not maximal (30_encoding.md R103). -/
def terminator (c : Byte) : Bool := c != 0x7F#8 && c != 0x80#8

/-- `hdrTest(b)` under either value of P_HDR_RULE (41_decoder.md R181). -/
def hdrTest (rule : HdrRule) (b : Byte) : Bool :=
  match rule with
  | .gt => decide (hdrThreshold < b.toNat)
  | .le => decide (b.toNat ≤ hdrThreshold)

/-- `hdrPresent(F)`: an empty frame is headerless (41_decoder.md R181). -/
def hdrPresent (rule : HdrRule) (F : Window) : Except Stop Bool :=
  if F.length = 0 then .ok false else (readByte F 0).map (hdrTest rule)

end Sys2Proof.Machine
end

