-- ==== Sys2Proof/Machine/Decoder.lean ====
section
/-! DEFINITION. The RLE frame decoder (spec/41_decoder.md): the commands LIT, END, LITMAX, TRN, TRNMAX and the
operations FRAME_WIDTH, DECOMPRESS, FRAME_DIMS. An operation is one atomic step (20_memory.md R78) whose meaning
is the pseudocode of R190 to R195; a command is one step of a running replay (log 9). -/

namespace Sys2Proof.Machine

/-! ### Header and one command -/

/-- `cmdStart(F)` (41_decoder.md R182). -/
def cmdStart (rule : HdrRule) (F : Window) : Except Stop Nat := do
  let h ← hdrPresent rule F
  if h then
    if F.length < hdrLen then raise .unexpectedEndOfFrame else return hdrLen
  else return 0

/-- What one command gives: its pixel count, its pixels, the index of the next command and its terminator bit
(41_decoder.md R183). -/
structure CmdResult where
  n      : Nat
  pixels : List Byte
  next   : Nat
  term   : Bool
deriving DecidableEq, Repr

/-- A literal run of `n` bytes at `pc` (41_decoder.md R183, R185, R186); it terminates iff `n < 127`
(30_encoding.md R103). -/
def litRun (n : Nat) (F : Window) (pc : Nat) : Except Stop CmdResult :=
  if F.length < pc + 1 + n then raise .unexpectedEndOfFrame
  else (readSlice F (pc + 1) (pc + 1 + n)).map fun px =>
    { n := n, pixels := px, next := pc + 1 + n, term := decide (n < litMaxRun) }

/-- A transparency run of `n` pixels at `pc` (41_decoder.md R183, R187, R188); it terminates iff `n < 128`
(30_encoding.md R103). -/
def trnRun (n : Nat) (_F : Window) (pc : Nat) : Except Stop CmdResult :=
  .ok { n := n, pixels := List.replicate n sentinel, next := pc + 1, term := decide (n < trnMaxRun) }

/-- `exec(F, pc)`: the one command at `pc < |F|` (41_decoder.md R183). -/
def execAt (F : Window) (pc : Nat) : Except Stop CmdResult := do
  let c ← readByte F pc
  if c.getLsbD 7 then
    return { n := 0x100 - c.toNat, pixels := List.replicate (0x100 - c.toNat) sentinel
             next := pc + 1, term := terminator c }
  else if F.length < pc + 1 + c.toNat then raise .unexpectedEndOfFrame
  else
    let px ← readSlice F (pc + 1) (pc + 1 + c.toNat)
    return { n := c.toNat, pixels := px, next := pc + 1 + c.toNat, term := terminator c }

/-! ### Replays -/

/-- The loop of `frameWidth` (41_decoder.md R190). Every command advances `pc`, so `|F| + 1` rounds of fuel are
never used up (70_reset_and_hazards.md R315). -/
def widthLoop (F : Window) : Nat → Nat → Nat → Except Stop Nat
  | 0, _, _ => raise .unexpectedEndOfFrame
  | fuel + 1, pc, acc =>
    if F.length ≤ pc then raise .unexpectedEndOfFrame
    else do
      let r ← execAt F pc
      if r.term then return acc + r.n else widthLoop F fuel r.next (acc + r.n)

/-- `frameWidth(F)` (41_decoder.md R190). -/
def frameWidth (rule : HdrRule) (F : Window) : Except Stop Nat := do
  let pc ← cmdStart rule F
  widthLoop F (F.length + 1) pc 0

/-- The loop of `decompress` (41_decoder.md R191). -/
def decodeLoop (F : Window) : Nat → Nat → List Byte → Except Stop (List Byte)
  | 0, _, out => .ok out
  | fuel + 1, pc, out =>
    if F.length ≤ pc then .ok out
    else do
      let r ← execAt F pc
      decodeLoop F fuel r.next (out ++ r.pixels)

/-- `decompress(F)` (41_decoder.md R191). -/
def decompress (rule : HdrRule) (F : Window) : Except Stop (List Byte) := do
  let pc ← cmdStart rule F
  decodeLoop F (F.length + 1) pc []

/-- The last lines of `frameDims`: the division check (41_decoder.md R194). -/
def dimsCheck (w : Nat) (p : List Byte) : Except Stop (Nat × Nat × List Byte) :=
  if w = 0 || p.length % w != 0 then raise .dimensionMismatch else .ok (w, p.length / w, p)

/-- `frameDims(F)` (41_decoder.md R194). -/
def frameDims (rule : HdrRule) (F : Window) : Except Stop (Nat × Nat × List Byte) := do
  let w ← frameWidth rule F
  let p ← decompress rule F
  dimsCheck w p

/-- The stores of FRAME_DIMS: the capacity check, OBUF and OUT_LEN, WIDTH and HEIGHT (41_decoder.md R195). -/
def storeDims (s : State) (d : Nat × Nat × List Byte) : Except Stop State :=
  (storeOutput s d.2.2).map fun t =>
    { t with width := .word (BitVec.ofNat 32 d.1), height := .word (BitVec.ofNat 32 d.2.1) }

/-! ### The operations -/

/-- The common start of the decoder's operations: the window check, then STATUS.HDR, which stays written even if a
later step fails (41_decoder.md R192, R193, R195, 60_exceptions.md R281), then the operation's own pseudocode. -/
def decoderOp (i : Instr) (s : State) (k : State → Window → Except Stop State) :
    Host.Outcome State Fault Refusal :=
  if s.windowOk then
    match hdrPresent s.cfg.hdrRule s.window with
    | .error e => conclude i s (.error e)
    | .ok h => conclude i { s with hdr := h } (k { s with hdr := h } s.window)
  else conclude i s (raise .illegalRequest)

/-- FRAME_WIDTH (41_decoder.md R192). -/
def execFrameWidth (s : State) : Host.Outcome State Fault Refusal :=
  decoderOp .frameWidth s fun t F => do
    let w ← frameWidth t.cfg.hdrRule F
    storeWidth t w

/-- DECOMPRESS (41_decoder.md R193). -/
def execDecompress (s : State) : Host.Outcome State Fault Refusal :=
  decoderOp .decompress s fun t F => do
    let p ← decompress t.cfg.hdrRule F
    storeOutput t p

/-- FRAME_DIMS (41_decoder.md R195). -/
def execFrameDims (s : State) : Host.Outcome State Fault Refusal :=
  decoderOp .frameDims s fun t F => do
    let d ← frameDims t.cfg.hdrRule F
    storeDims t d

/-! ### The commands, one step of a running replay (log 9) -/

/-- The operation a replay belongs to. -/
def Task.op : Task → Instr
  | .width => .frameWidth
  | .decode => .decompress
  | .dimsWidth => .frameDims
  | .dimsDecode _ => .frameDims

/-- A width replay counts pixels and notes the terminator (41_decoder.md R190); a decode replay collects them
(R191). -/
def Task.counts : Task → Bool
  | .width => true
  | .decode => false
  | .dimsWidth => true
  | .dimsDecode _ => false

/-- What an executed command does to the replay: `pc` advances by the command's length (10_state.md R51), and `acc`
or the pixels grow (R52, 41_decoder.md R190, R191). -/
def Replay.advance (r : Replay) (c : CmdResult) : Replay :=
  if r.task.counts then { r with pc := c.next, acc := r.acc + c.n, ended := c.term }
  else { r with pc := c.next, out := r.out ++ c.pixels }

/-- One command of the running replay: `run` is the case of 41_decoder.md R183 the command's class selects (R184).
A raised error ends the whole operation (60_exceptions.md R281). With no replay there is no command stream
(10_state.md R50; log 10). -/
def commandStep (run : Window → Nat → Except Stop CmdResult) (s : State) : Host.Outcome State Fault Refusal :=
  match s.replay with
  | none => .refused .noReplay
  | some r =>
    match run s.window r.pc with
    | .ok c => .next { s with replay := some (r.advance c) }
    | .error (.raise e) => .next (errorEntry r.task.op e s)
    | .error (.fault f) => .fault f

/-- LIT n (41_decoder.md R185). -/
def execLit (n : Nat) (s : State) : Host.Outcome State Fault Refusal := commandStep (litRun n) s

/-- END, the literal run of no bytes (30_encoding.md R111, R120, 41_decoder.md R185). -/
def execEndRun (s : State) : Host.Outcome State Fault Refusal := commandStep (litRun 0) s

/-- LITMAX (41_decoder.md R186). -/
def execLitMax (s : State) : Host.Outcome State Fault Refusal := commandStep (litRun litMaxRun) s

/-- TRNMAX (41_decoder.md R188). -/
def execTrnMax (s : State) : Host.Outcome State Fault Refusal := commandStep (trnRun trnMaxRun) s

/-- TRN n (41_decoder.md R187). -/
def execTrn (n : Nat) (s : State) : Host.Outcome State Fault Refusal := commandStep (trnRun n) s

/-! ### The start and the end of a replay -/

/-- A fresh replay at `pc` (10_state.md R50, R52). -/
def Replay.start (t : Task) (pc : Nat) : Replay :=
  { task := t, pc := pc, acc := 0, ended := false, out := [] }

/-- The start of a decoder operation seen from inside it: the window check, STATUS.HDR, and `pc` at `cmdStart(Win)`
(41_decoder.md R190 to R195, 10_state.md R50). An error of these steps ends the operation. -/
def beginReplay (t : Task) (s : State) : Host.Outcome State Fault Refusal :=
  if s.windowOk then
    match hdrPresent s.cfg.hdrRule s.window with
    | .error e => conclude t.op s (.error e)
    | .ok h =>
      match cmdStart s.cfg.hdrRule s.window with
      | .error e => conclude t.op { s with hdr := h } (.error e)
      | .ok pc => .next { s with hdr := h, replay := some (Replay.start t pc) }
  else conclude t.op s (raise .illegalRequest)

/-- A replay is over when a width replay has met its terminator, or `pc >= |F|` (41_decoder.md R190, R191). -/
def Replay.over (r : Replay) (F : Window) : Bool := r.ended || decide (F.length ≤ r.pc)

/-- What follows a replay that is over: the operation's remaining pseudocode (41_decoder.md R190 to R195). A width
replay that is over without a terminator raises UnexpectedEndOfFrame; FRAME_DIMS goes on to its second replay. -/
def finishReplay (r : Replay) (s : State) : Host.Outcome State Fault Refusal :=
  match r.task with
  | .width => conclude .frameWidth s (if r.ended then storeWidth s r.acc else raise .unexpectedEndOfFrame)
  | .decode => conclude .decompress s (storeOutput s r.out)
  | .dimsWidth =>
    if r.ended then
      match cmdStart s.cfg.hdrRule s.window with
      | .error e => conclude .frameDims s (.error e)
      | .ok pc => .next { s with replay := some (Replay.start (.dimsDecode r.acc) pc) }
    else conclude .frameDims s (raise .unexpectedEndOfFrame)
  | .dimsDecode w => conclude .frameDims s (dimsCheck w r.out >>= storeDims s)

end Sys2Proof.Machine
end

