-- ==== Sys2Proof/Machine/Encoder.lean ====
section
/-! DEFINITION. The RLE frame encoder (spec/42_encoder.md): COMPRESS_BLOCK, COMPRESS_ROW, ENCODE_FRAME. -/

namespace Sys2Proof.Machine

/-- `isSent(p)` (42_encoder.md R230). -/
def isSent (p : Byte) : Bool := p == sentinel

/-- Put pixel `p` before a row already split into blocks. -/
def consBlock (p : Byte) : List (List Byte) → List (List Byte)
  | (q :: b) :: bs => if isSent p = isSent q then (p :: q :: b) :: bs else [p] :: (q :: b) :: bs
  | bs => [p] :: bs

/-- `partition(R)`: the maximal runs of all-sentinel and of no-sentinel pixels (42_encoder.md R230). -/
def partition : List Byte → List (List Byte)
  | [] => []
  | p :: R => consBlock p (partition R)

/-- The loop of `sentBlock` (42_encoder.md R233); `m + 1` rounds of fuel are enough. -/
def sentLoop : Nat → Nat → List Byte
  | 0, _ => []
  | fuel + 1, m =>
    if trnMaxRun ≤ m then 0x80#8 :: sentLoop fuel (m - trnMaxRun)
    else if 0 < m then [BitVec.ofNat 8 (0x100 - m)]
    else []

/-- `sentBlock(m)` (42_encoder.md R233, R235). -/
def sentBlock (m : Nat) : List Byte := sentLoop (m + 1) m

/-- The loop of `litBlock` (42_encoder.md R234) on the pixels still to encode. -/
def litLoop : Nat → List Byte → List Byte
  | 0, _ => []
  | fuel + 1, B =>
    if litMaxRun ≤ B.length then 0x7F#8 :: (B.take litMaxRun ++ litLoop fuel (B.drop litMaxRun))
    else if 0 < B.length then BitVec.ofNat 8 B.length :: B
    else []

/-- `litBlock(B)` (42_encoder.md R234, R235). -/
def litBlock (B : List Byte) : List Byte := litLoop (B.length + 1) B

/-- `compressBlock(B)` (42_encoder.md R232). -/
def compressBlock (B : List Byte) : Except Stop (List Byte) :=
  if B.length = 0 then .ok []
  else if B.all isSent then .ok (sentBlock B.length)
  else if B.all (fun p => !isSent p) then .ok (litBlock B)
  else raise .illegalRequest

/-- The blocks of a row, compressed and concatenated in order (42_encoder.md R237). -/
def compressBlocks : List (List Byte) → Except Stop (List Byte)
  | [] => .ok []
  | b :: bs => do
    let x ← compressBlock b
    let y ← compressBlocks bs
    return x ++ y

/-- `M` of 42_encoder.md R237: the maximal run of a block's kind. -/
def maximalRun (b : List Byte) : Nat :=
  match b with
  | [] => litMaxRun
  | p :: _ => if isSent p then trnMaxRun else litMaxRun

/-- The row-end terminator: END after a last block that is a multiple of its maximal run (42_encoder.md R236). -/
def rowEnd (blocks : List (List Byte)) : List Byte :=
  match blocks.getLast? with
  | none => []
  | some b => if b.length % maximalRun b = 0 then [0x00#8] else []

/-- `compressRow(R)` (42_encoder.md R237). -/
def compressRow (R : List Byte) : Except Stop (List Byte) :=
  (compressBlocks (partition R)).map (· ++ rowEnd (partition R))

/-- Row `r` of a grid of width `w`: `G[r*W .. (r+1)*W)` (42_encoder.md R231). -/
def gridRow (G : List Byte) (w r : Nat) : List Byte := (G.take ((r + 1) * w)).drop (r * w)

/-- The rows `r`, `r + 1`, ... (`h` of them), compressed in stored order (42_encoder.md R238). -/
def encodeRows (G : List Byte) (w : Nat) : Nat → Nat → Except Stop (List Byte)
  | _, 0 => .ok []
  | r, h + 1 => do
    let x ← compressRow (gridRow G w r)
    let y ← encodeRows G w (r + 1) h
    return x ++ y

/-- `encodeFrame(G, W, H)`: no header, rows 0 to H - 1 in index order (42_encoder.md R238, R242, R244). A grid of no
pixels has only empty rows. -/
def encodeFrame (G : List Byte) (w h : Nat) : Except Stop (List Byte) :=
  if G.length = 0 then .ok [] else encodeRows G w 0 h

/-- COMPRESS_BLOCK (42_encoder.md R239). -/
def execCompressBlock (s : State) : Host.Outcome State Fault Refusal :=
  windowOp .compressBlock s fun F => do
    let B ← specified F
    let out ← compressBlock B
    storeOutput s out

/-- COMPRESS_ROW (42_encoder.md R240). -/
def execCompressRow (s : State) : Host.Outcome State Fault Refusal :=
  windowOp .compressRow s fun F => do
    let R ← specified F
    let out ← compressRow R
    storeOutput s out

/-- ENCODE_FRAME (42_encoder.md R241); the size check comes before any compression (60_exceptions.md R280). -/
def execEncodeFrame (s : State) : Host.Outcome State Fault Refusal :=
  windowOp .encodeFrame s fun F =>
    if s.gridW.toNat * s.gridH.toNat ≠ s.inLen.toNat then raise .illegalRequest
    else do
      let G ← specified F
      let out ← encodeFrame G s.gridW.toNat s.gridH.toNat
      storeOutput s out

end Sys2Proof.Machine
end

