-- ==== Sys2Proof/Machine/Indexer.lean ====
section
/-! DEFINITION. The offset-table indexer (spec/40_indexer.md): PARSE_OFFSETS, FRAME_BYTES, BUILD_CONTAINER. -/

namespace Sys2Proof.Machine

/-- `parseOffsets(C)`: the frame count and the N + 1 offsets (40_indexer.md R141, R143). -/
def parseOffsets (C : Window) : Except Stop (Word × List Word) :=
  if C.length < 4 then raise .malformedContainer
  else do
    let n ← readWord C 0
    if C.length < 4 * (n.toNat + 2) then raise .malformedContainer
    else
      let offs ← readWords C 4 (n.toNat + 1)
      return (n, offs)

/-- PARSE_OFFSETS (40_indexer.md R142). OFFT entries at and above the new OFFT_LEN are UNSPECIFIED (10_state.md R56). -/
def execParseOffsets (s : State) : Host.Outcome State Fault Refusal :=
  windowOp .parseOffsets s fun C => do
    let (n, offs) ← parseOffsets C
    if s.cfg.maxFrames < n.toNat then raise .capacityExceeded
    else return { s with
      offt := Memory.ofList 0 offs, offtLen := BitVec.ofNat 32 (n.toNat + 1), frameCount := .word n
      contBase := .word s.inBase, contLen := .word s.inLen }

/-- `frameSlice(offs, L, i)`: start and length of frame `i` (40_indexer.md R144). -/
def frameSlice (offs : List (Option Word)) (L : RegValue) (i : Nat) : Except Stop (Nat × Nat) :=
  if offs.length ≤ i + 1 then raise .indexOutOfRange
  else do
    let a ← readOffset offs i
    let b ← readOffset offs (i + 1)
    let l ← L.get .contLen
    if b.toNat < a.toNat || l.toNat < b.toNat then raise .malformedContainer
    else return (a.toNat, b.toNat - a.toNat)

/-- FRAME_BYTES (40_indexer.md R145): no window and no byte of IBUF is read (20_memory.md R89). The sum fits 32 bits
in every state that meets the invariant (R145; log 12). -/
def execFrameBytes (s : State) : Host.Outcome State Fault Refusal :=
  conclude .frameBytes s do
    let (a, n) ← frameSlice s.offsets s.contLen s.idx.toNat
    let base ← s.contBase.get .contBase
    return { s with sliceBase := .word (BitVec.ofNat 32 (base.toNat + a)), sliceLen := .word (BitVec.ofNat 32 n) }

/-- The offset words of a container's header: `off` is where the first of the remaining frames starts; the last word
is the total length (40_indexer.md R147). -/
def offsetWords (off : Nat) : List (List Byte) → List Byte
  | [] => bytesLE32 (BitVec.ofNat 32 off)
  | f :: fs => bytesLE32 (BitVec.ofNat 32 off) ++ offsetWords (off + f.length) fs

/-- `buildContainer(frames)` (40_indexer.md R147, 30_encoding.md R112). -/
def buildContainer (frames : List (List Byte)) : List Byte :=
  bytesLE32 (BitVec.ofNat 32 frames.length) ++ offsetWords (4 * (frames.length + 2)) frames ++ frames.flatten

/-- The frames of lengths `lens`, which follow one another from index `p` of the window (40_indexer.md R148). -/
def cutFrames (F : Window) : Nat → List Nat → Except Stop (List (List Byte))
  | _, [] => .ok []
  | p, l :: ls => do
    let f ← readSlice F p (p + l)
    let fs ← cutFrames F (p + l) ls
    return f :: fs

/-- BUILD_CONTAINER (40_indexer.md R148). -/
def execBuildContainer (s : State) : Host.Outcome State Fault Refusal :=
  windowOp .buildContainer s fun F => do
    let n ← s.frameCount.get .frameCount
    if s.cfg.maxFrames < n.toNat then raise .illegalRequest
    else
      let lens ← readLengths s.flen 0 n.toNat
      if lens.sum ≠ s.inLen.toNat then raise .illegalRequest
      else
        let frames ← cutFrames F 0 lens
        if u32Max < 4 * (n.toNat + 2) + lens.sum then raise .capacityExceeded
        else storeOutput s (buildContainer frames)

end Sys2Proof.Machine
end

