-- ==== Sys2Proof/Machine/Request.lean ====
section
/-! DEFINITION. A request whose OP code names no operation (spec/30_encoding.md R118). -/

namespace Sys2Proof.Machine

/-- ILLEGAL_OP: IllegalRequest at once; no result becomes UNSPECIFIED and STATUS.HDR keeps its value (30_encoding.md
R118, 60_exceptions.md R281). -/
def execIllegalOp (op : BitVec 4) (s : State) : Host.Outcome State Fault Refusal :=
  conclude (.illegalOp op) s (raise .illegalRequest)

end Sys2Proof.Machine
end

