-- ==== Sys2Proof/Machine/Dispatch.lean ====
section
/-! DEFINITION. The dispatch of an instruction to its meaning. -/

namespace Sys2Proof.Machine

def exec (i : Instr) (s : State) : Host.Outcome State Fault Refusal :=
  match i with
  -- the commands of a frame (41_decoder.md R185 to R188)
  | .lit n => Sys2Proof.Machine.execLit n s
  | .endRun => Sys2Proof.Machine.execEndRun s
  | .litMax => Sys2Proof.Machine.execLitMax s
  | .trnMax => Sys2Proof.Machine.execTrnMax s
  | .trn n => Sys2Proof.Machine.execTrn n s
  -- the operations (30_encoding.md R117)
  | .parseOffsets => Sys2Proof.Machine.execParseOffsets s
  | .frameBytes => Sys2Proof.Machine.execFrameBytes s
  | .buildContainer => Sys2Proof.Machine.execBuildContainer s
  | .frameWidth => Sys2Proof.Machine.execFrameWidth s
  | .decompress => Sys2Proof.Machine.execDecompress s
  | .frameDims => Sys2Proof.Machine.execFrameDims s
  | .compressBlock => Sys2Proof.Machine.execCompressBlock s
  | .compressRow => Sys2Proof.Machine.execCompressRow s
  | .encodeFrame => Sys2Proof.Machine.execEncodeFrame s
  -- the codes that name no operation (30_encoding.md R118)
  | .illegalOp op => Sys2Proof.Machine.execIllegalOp op s

end Sys2Proof.Machine
end

