-- ==== Sys2Proof/WellFormed.lean ====
section
/-! DEFINITION. Which terms of `Instr` stand for an instruction of spec/opcode_table.json: the ranges of the
operands (30_encoding.md R104, R118, R119). -/

namespace Sys2Proof

/-- The operand ranges of 30_encoding.md R104 and R118. A LIT of no bytes is spelled END, the row of its one
word 0x00 (log 5). -/
def Instr.wf : Instr → Bool
  | .lit n => 1 ≤ n && n ≤ 126
  | .endRun => true
  | .litMax => true
  | .trnMax => true
  | .trn n => 1 ≤ n && n ≤ 127
  | .parseOffsets => true
  | .frameBytes => true
  | .buildContainer => true
  | .frameWidth => true
  | .decompress => true
  | .frameDims => true
  | .compressBlock => true
  | .compressRow => true
  | .encodeFrame => true
  | .illegalOp op => op == 0#4 || 0xA#4 ≤ op

/-- The commands of a frame's stream; every other instruction is an operation request (00_scope.md R2). -/
def Instr.isCommand : Instr → Bool
  | .lit _ => true
  | .endRun => true
  | .litMax => true
  | .trnMax => true
  | .trn _ => true
  | .parseOffsets => false
  | .frameBytes => false
  | .buildContainer => false
  | .frameWidth => false
  | .decompress => false
  | .frameDims => false
  | .compressBlock => false
  | .compressRow => false
  | .encodeFrame => false
  | .illegalOp _ => false

end Sys2Proof
end

