-- ==== Sys2Proof/Decode.lean ====
section
/-! DEFINITION. The two encodings of spec/30_encoding.md: the command byte (sections 1 and 2) and the request
word written to CMD (section 4), decoded and encoded. Both decoders are total: every byte is a command (R106)
and every request word names an operation or is ILLEGAL_OP (R118), so nothing is rejected here. -/

namespace Sys2Proof

/-- An encoded instruction: a command byte of a frame, or a word a host writes to CMD. The request is a number
and not a byte image, because the register interface has no byte order (20_memory.md R73). -/
inductive Code where
  | command (c : Byte)
  | request (v : Word)
deriving DecidableEq, Repr

/-- `K = c[7]` (30_encoding.md R100): true for a transparency run. -/
def kindBit (c : Byte) : Bool := c.getLsbD 7

/-- The class of a command byte (30_encoding.md R104): the counts are `c` for a literal run (R101) and
`0x100 - c` for a transparency run (R102). -/
def decodeCommand (c : Byte) : Instr :=
  if kindBit c then
    if c = 0x80#8 then .trnMax else .trn (0x100 - c.toNat)
  else if c = 0x00#8 then .endRun
  else if c = 0x7F#8 then .litMax
  else .lit c.toNat

/-- `CMD.OP = bits[3:0]` (30_encoding.md R116, 10_state.md R32). -/
def opField (v : Word) : BitVec 4 := v.extractLsb' 0 4

/-- The operation a request word names (30_encoding.md R117, R118); bits[31:4] are ignored (10_state.md R32). -/
def decodeRequest (v : Word) : Instr :=
  match (opField v).toNat with
  | 1 => .parseOffsets
  | 2 => .frameBytes
  | 3 => .buildContainer
  | 4 => .frameWidth
  | 5 => .decompress
  | 6 => .frameDims
  | 7 => .compressBlock
  | 8 => .compressRow
  | 9 => .encodeFrame
  | _ => .illegalOp (opField v)

/-- The decoder: which of the two it is depends on the unit the code reaches, the replay or CMD. -/
def decode : Code → Instr
  | .command c => decodeCommand c
  | .request v => decodeRequest v

/-- The code of an instruction (30_encoding.md R104, R117, R118, R119), reserved bits 0. -/
def encode : Instr → Code
  | .lit n => .command (BitVec.ofNat 8 n)
  | .endRun => .command 0x00#8
  | .litMax => .command 0x7F#8
  | .trnMax => .command 0x80#8
  | .trn n => .command (BitVec.ofNat 8 (0x100 - n))
  | .parseOffsets => .request 0x1#32
  | .frameBytes => .request 0x2#32
  | .buildContainer => .request 0x3#32
  | .frameWidth => .request 0x4#32
  | .decompress => .request 0x5#32
  | .frameDims => .request 0x6#32
  | .compressBlock => .request 0x7#32
  | .compressRow => .request 0x8#32
  | .encodeFrame => .request 0x9#32
  | .illegalOp op => .request (op.setWidth 32)

/-- The payload bytes that follow a command byte in the stream (30_encoding.md R101, R104, R105). -/
def Instr.payloadLength : Instr → Nat
  | .lit n => n
  | .litMax => 127
  | _ => 0

/-- How a word of spec/opcode_table.json is read (log 6). The table's CMD8 and OPREQ rows share bit patterns, so
of the rows an 8-bit word matches the one with the most fixed bits is taken: for the words 1 to 15 that is an
OPREQ row, for every other word a CMD8 row. A word of more than 8 bits is a request. The machine never uses
this: it knows from its own state which decoder a code reaches. -/
def tableCode (nbits w : Nat) : Code :=
  if 8 < nbits || (1 ≤ w && w ≤ 15) then .request (BitVec.ofNat 32 w) else .command (BitVec.ofNat 8 w)

/-- The instruction the decoder reads from a word numbered as spec/opcode_table.json numbers it. -/
def decodeTableWord (nbits w : Nat) : Option Instr := some (decode (tableCode nbits w))

end Sys2Proof
end

