-- ==== Sys2Proof/Machine/HostPort.lean ====
section
/-! DEFINITION. The host's accesses between operations (spec/10_state.md R31 to R57, 20_memory.md R76, R79,
30_encoding.md R121) and the platform's reset (70_reset_and_hazards.md R300). Only a write to CMD starts an
operation; it is in Machine/Sequencer.lean, because it needs `exec`. -/

namespace Sys2Proof.Machine

/-! ### Registers -/

/-- The register at a byte offset of REG, none where 10_state.md R31 lists no register. -/
def RegName.ofOffset (off : Nat) : Option RegName :=
  match off with
  | 0x00 => some .cmd
  | 0x04 => some .status
  | 0x08 => some .inBase
  | 0x0C => some .inLen
  | 0x10 => some .outLen
  | 0x14 => some .frameCount
  | 0x18 => some .idx
  | 0x1C => some .sliceBase
  | 0x20 => some .sliceLen
  | 0x24 => some .width
  | 0x28 => some .height
  | 0x2C => some .gridW
  | 0x30 => some .gridH
  | 0x34 => some .contBase
  | 0x38 => some .contLen
  | 0x3C => some .offtLen
  | _ => none

/-- The byte offset of a register (10_state.md R31). -/
def RegName.offset : RegName → Nat
  | .cmd => 0x00
  | .status => 0x04
  | .inBase => 0x08
  | .inLen => 0x0C
  | .outLen => 0x10
  | .frameCount => 0x14
  | .idx => 0x18
  | .sliceBase => 0x1C
  | .sliceLen => 0x20
  | .width => 0x24
  | .height => 0x28
  | .gridW => 0x2C
  | .gridH => 0x30
  | .contBase => 0x34
  | .contLen => 0x38
  | .offtLen => 0x3C

/-- The register an access reaches: whole 32-bit words at the offsets of R31, anything else is not defined
(10_state.md R49). -/
def regAt (offset width : Nat) : Option RegName :=
  if width = 4 then RegName.ofOffset offset else none

/-- What the host reads in a register (10_state.md R32 to R48); reserved fields read 0 (R49). -/
def State.readReg (s : State) : RegName → RegValue
  | .cmd => .word (s.cmdOp.setWidth 32)
  | .status => .word s.statusWord
  | .inBase => .word s.inBase
  | .inLen => .word s.inLen
  | .outLen => s.outLen
  | .frameCount => s.frameCount
  | .idx => .word s.idx
  | .sliceBase => s.sliceBase
  | .sliceLen => s.sliceLen
  | .width => s.width
  | .height => s.height
  | .gridW => .word s.gridW
  | .gridH => .word s.gridH
  | .contBase => s.contBase
  | .contLen => s.contLen
  | .offtLen => .word s.offtLen

/-- A host write to a register other than CMD: the read-write registers take the value, a write to a read-only one
is ignored (10_state.md R31, R49, 20_memory.md R79). -/
def State.writeReg (s : State) (r : RegName) (v : Word) : State :=
  match r with
  | .cmd => s
  | .status => s
  | .inBase => { s with inBase := v }
  | .inLen => { s with inLen := v }
  | .outLen => s
  | .frameCount => { s with frameCount := .word v }
  | .idx => { s with idx := v }
  | .sliceBase => s
  | .sliceLen => s
  | .width => s
  | .height => s
  | .gridW => { s with gridW := v }
  | .gridH => { s with gridH := v }
  | .contBase => s
  | .contLen => s
  | .offtLen => s

/-- A host read returns its value on `busData` and has no other effect (20_memory.md R79; log 8). -/
def returnRead (s : State) : Except Stop Word → Host.Outcome State Fault Refusal
  | .ok v => .next { s with busData := v }
  | .error (.raise _) => .next s
  | .error (.fault f) => .fault f

/-- A host read of a register (10_state.md R49); one that is UNSPECIFIED faults (00_scope.md R23). -/
def hostReadReg (offset width : Nat) (s : State) : Host.Outcome State Fault Refusal :=
  match regAt offset width with
  | none => .refused .badRegisterAccess
  | some r => returnRead s ((s.readReg r).get r)

/-! ### Memories -/

/-- The number of cells of a memory (10_state.md R54 to R57). -/
def MemName.size (c : Config) : MemName → Nat
  | .ibuf => c.maxIbuf
  | .obuf => c.maxObuf
  | .offt => c.maxFrames + 1
  | .flen => c.maxFrames

/-- One cell of a memory as a number, none where it is unwritten or UNSPECIFIED. -/
def State.cell (s : State) (m : MemName) (a : Nat) : Option Word :=
  match m with
  | .ibuf => (Memory.read s.ibuf a).map (·.setWidth 32)
  | .obuf => (Memory.read s.obuf a).map (·.setWidth 32)
  | .offt => Memory.read s.offt a
  | .flen => Memory.read s.flen a

/-- A host read of one cell (20_memory.md R76, R79; log 11). -/
def hostReadMem (m : MemName) (a : Nat) (s : State) : Host.Outcome State Fault Refusal :=
  if m.size s.cfg ≤ a then .fault (.noSuchAddress m)
  else
    match s.cell m a with
    | none => .fault (.unwritten m)
    | some v => .next { s with busData := v }

/-- `IBUF[a] <- bytes` (30_encoding.md R121; logs 11, 16). DESIGN CHOICE (log 19): a line of no bytes is held to the same
check of its start, `a <= MAX_IBUF`. -/
def hostWriteIbuf (a : Nat) (bytes : List Byte) (s : State) : Host.Outcome State Fault Refusal :=
  if s.cfg.maxIbuf < a + bytes.length then .fault (.noSuchAddress .ibuf)
  else .next { s with ibuf := Memory.writeAll s.ibuf a bytes }

/-- `FLEN[k] <- v` (10_state.md R57, 30_encoding.md R121). -/
def hostWriteFlen (k : Nat) (v : Word) (s : State) : Host.Outcome State Fault Refusal :=
  if s.cfg.maxFrames ≤ k then .fault (.noSuchAddress .flen)
  else .next { s with flen := Memory.write s.flen k v }

/-- The `n` bytes of OBUF at `a`, none where one of them is unwritten (10_state.md R55). -/
def readBytes (m : Memory Byte) : Nat → Nat → Option (List Byte)
  | _, 0 => some []
  | a, n + 1 =>
    match Memory.read m a, readBytes m (a + 1) n with
    | some b, some bs => some (b :: bs)
    | _, _ => none

/-- `COPY OBUF[a..b) -> IBUF[d]`: the host reads the bytes and writes them (30_encoding.md R121, 20_memory.md R88;
logs 11, 16). DESIGN CHOICE (log 19): an empty copy (`a >= b`) is held to the same checks of its starts, `a <= MAX_OBUF`
and `d <= MAX_IBUF`. -/
def hostCopy (a b d : Nat) (s : State) : Host.Outcome State Fault Refusal :=
  if s.cfg.maxObuf < a + (b - a) then .fault (.noSuchAddress .obuf)
  else
    match readBytes s.obuf a (b - a) with
    | none => .fault (.unwritten .obuf)
    | some bytes => hostWriteIbuf d bytes s

/-- The platform's reset, between operations: everything is at its reset value (70_reset_and_hazards.md R300, R301,
R303); the parameters are fixed and the host's later accesses still come (log 13). -/
def platformReset (s : State) : Host.Outcome State Fault Refusal :=
  .next (State.resetWith s.cfg s.hostQueue)

/-! ### Host program lines (30_encoding.md R121) -/

/-- `REG <- v`. -/
def regLine (r : RegName) (v : Word) : HostEvent := .writeReg r.offset 4 v

/-- `OP MNEMONIC`: a write of the operation's code to CMD. -/
def opLine (i : Instr) : HostEvent :=
  match encode i with
  | .command c => .writeReg 0x00 4 (c.setWidth 32)
  | .request v => .writeReg 0x00 4 v

end Sys2Proof.Machine
end

