-- ==== Sys2Proof/Machine/Sequencer.lean ====
section
/-! DEFINITION. What one step of the machine does: one command of a running replay, or one access of the host,
of which a write to CMD runs a whole operation (spec/60_exceptions.md R292, 20_memory.md R78, R83; logs 7, 9). -/

namespace Sys2Proof.Machine

/-- A host write of `v` to CMD (10_state.md R32, 60_exceptions.md R292): OP is stored, DONE cleared, and the named
operation runs to its end within the step. -/
def writeCmd (v : Word) (s : State) : Host.Outcome State Fault Refusal :=
  exec (decodeRequest v) (s.startOp v)

/-- A host write to a register (10_state.md R49). -/
def hostWriteReg (offset width : Nat) (v : Word) (s : State) : Host.Outcome State Fault Refusal :=
  match regAt offset width with
  | none => .refused .badRegisterAccess
  | some .cmd => writeCmd v s
  | some r => .next (s.writeReg r v)

/-- One access of the host, already taken from the queue. -/
def hostStep (e : HostEvent) (s : State) : Host.Outcome State Fault Refusal :=
  match e with
  | .writeReg offset width v => hostWriteReg offset width v s
  | .readReg offset width => hostReadReg offset width s
  | .writeIbuf a bytes => hostWriteIbuf a bytes s
  | .writeFlen k v => hostWriteFlen k v s
  | .writeObuf _ _ => .refused (.readOnlyMemory .obuf)
  | .writeOfft _ _ => .refused (.readOnlyMemory .offt)
  | .readMem m a => hostReadMem m a s
  | .copy a b d => hostCopy a b d s
  | .reset => platformReset s

/-- One step of a running replay: the command at `pc` is fetched from IBUF, decoded and executed (41_decoder.md R183,
R184, 20_memory.md R86); a replay that is over is finished. -/
def replayStep (r : Replay) (s : State) : Host.Outcome State Fault Refusal :=
  if r.over s.window then finishReplay r s
  else
    match readByte s.window r.pc with
    | .ok c => exec (decodeCommand c) s
    | .error (.raise e) => .next (errorEntry r.task.op e s)
    | .error (.fault f) => .fault f

/-- Between operations: the oldest pending access of the host takes effect (20_memory.md R83); with none pending the
block holds its state (60_exceptions.md R291). -/
def idleStep (s : State) : Host.Outcome State Fault Refusal :=
  match s.hostQueue with
  | [] => .next s
  | e :: q => hostStep e { s with hostQueue := q }

/-- Where `step` fetches a command byte next, followed by bytes 0: a window of 128 bytes at IBUF address 0 and a
decode replay at its start (log 17). -/
def State.placeCommand (s : State) (c : Byte) : State :=
  { s with
    inBase := 0#32, inLen := 128#32
    ibuf := Memory.writeAll s.ibuf 0 (c :: List.replicate 127 0#8)
    replay := some (Replay.start .decode 0) }

/-- Where `step` takes a request next: the host's oldest pending access is a write of it to CMD. -/
def State.placeRequest (s : State) (v : Word) : State :=
  { s with replay := none, hostQueue := .writeReg 0x00 4 v :: s.hostQueue }

end Sys2Proof.Machine
end

