-- ==== Sys2Proof/Machine/Step.lean ====
section
/-! DEFINITION. The step of the machine, and the placing of an instruction where the next step runs it. -/

namespace Sys2Proof.Machine

/-- One step: inside a replay one command of it, else one access of the host (spec/20_memory.md R78, R83,
70_reset_and_hazards.md R307: the host has no move while a replay runs). -/
def step (s : State) : Host.Outcome State Fault Refusal :=
  match s.replay with
  | some r => replayStep r s
  | none => idleStep s

/-- `s` with the instruction of a word of spec/opcode_table.json where `step` takes its next instruction (logs 6, 7, 17). -/
def State.withFetchWord (s : State) (nbits w : Nat) : State :=
  match tableCode nbits w with
  | .command c => s.placeCommand c
  | .request v => s.placeRequest v

end Sys2Proof.Machine
end

