-- ==== Sys2Proof/Machine/Assembler.lean ====
section
/-! DEFINITION. The assembler syntax of command streams (spec/30_encoding.md R119) and its pseudo-instructions
(R120). It is outside the machine: a host uses it to make the bytes it writes to IBUF. -/

namespace Sys2Proof.Machine

/-- One line of a command stream (30_encoding.md R119, R120). -/
inductive AsmLine where
  | lit (bytes : List Byte)
  | litMax (bytes : List Byte)
  | trn (n : Nat)
  | trnMax
  | hdr (bytes : List Byte)
  | raw (bytes : List Byte)
  | endRun
  | runLit (pixels : List Byte)
  | runTrn (m : Nat)
deriving DecidableEq, Repr

/-- The bytes of a line, none where it breaks its constraint (30_encoding.md R119, R120). -/
def AsmLine.assemble : AsmLine → Option (List Byte)
  | .lit bytes => if bytes.length ≤ 126 then some (BitVec.ofNat 8 bytes.length :: bytes) else none
  | .litMax bytes => if bytes.length = 127 then some (0x7F#8 :: bytes) else none
  | .trn n => if 1 ≤ n ∧ n ≤ 127 then some [BitVec.ofNat 8 (0x100 - n)] else none
  | .trnMax => some [0x80#8]
  | .hdr bytes => if bytes.length = hdrLen then some bytes else none
  | .raw bytes => some bytes
  | .endRun => some [0x00#8]
  | .runLit pixels => if pixels.all (fun p => !isSent p) then some (litBlock pixels) else none
  | .runTrn m => some (sentBlock m)

/-- A command stream: its lines' bytes in order; HDR must come first (30_encoding.md R119). -/
def assemble : List AsmLine → Option (List Byte)
  | [] => some []
  | l :: ls =>
    match l.assemble, assembleRest ls with
    | some x, some y => some (x ++ y)
    | _, _ => none
where
  /-- The lines after the first, none of which is HDR. -/
  assembleRest : List AsmLine → Option (List Byte)
    | [] => some []
    | .hdr _ :: _ => none
    | l :: ls =>
      match l.assemble, assembleRest ls with
      | some x, some y => some (x ++ y)
      | _, _ => none

/-- The pixels a line's commands stand for (30_encoding.md R101, R102, R111, R120). HDR and raw bytes stand for none. -/
def AsmLine.pixels : AsmLine → List Byte
  | .lit bytes => bytes
  | .litMax bytes => bytes
  | .trn n => List.replicate n sentinel
  | .trnMax => List.replicate trnMaxRun sentinel
  | .hdr _ => []
  | .raw _ => []
  | .endRun => []
  | .runLit pixels => pixels
  | .runTrn m => List.replicate m sentinel

/-- The lines made of whole commands: all but HDR and `.byte` (30_encoding.md R119). -/
def AsmLine.isRuns : AsmLine → Bool
  | .hdr _ => false
  | .raw _ => false
  | _ => true

/-- The one-command lines that are no terminator: LITMAX and TRNMAX (30_encoding.md R103). -/
def AsmLine.isMaximal : AsmLine → Bool
  | .litMax _ => true
  | .trnMax => true
  | _ => false

/-- The one-command lines that are a terminator: LIT, TRN and END (30_encoding.md R103). -/
def AsmLine.isTerminator : AsmLine → Bool
  | .lit _ => true
  | .trn _ => true
  | .endRun => true
  | _ => false

end Sys2Proof.Machine
end

