-- ==== Sys2Proof/Safety.lean ====
section
/-! DEFINITION. What the claims about runs are stated in: the invariant of the machine's state, and when a step
goes on. -/

namespace Sys2Proof.Machine

/-- OBUF lists exactly the bytes below OUT_LEN, and nothing when OUT_LEN is UNSPECIFIED (10_state.md R37, R55,
60_exceptions.md R281). -/
def State.outputExact (s : State) : Bool :=
  match s.outLen with
  | .unspecified => s.obuf == []
  | .word n => s.obuf.map Prod.fst == List.range n.toNat && decide (n.toNat ≤ s.cfg.maxObuf)

/-- OFFT lists exactly the entries below OFFT_LEN, at most MAX_FRAMES + 1 (10_state.md R48, R56). -/
def State.tableExact (s : State) : Bool :=
  s.offt.map Prod.fst == List.range s.offtLen.toNat && decide (s.offtLen.toNat ≤ s.cfg.maxFrames + 1)

/-- A parsed container lies inside IBUF (40_indexer.md R145, corner cases). -/
def State.containerInside (s : State) : Bool :=
  s.offtLen == 0#32 ||
    match s.contBase, s.contLen with
    | .word b, .word l => decide (b.toNat + l.toNat ≤ s.cfg.maxIbuf)
    | _, _ => false

/-- A running replay has passed the window check, and `pc <= |Win|` (10_state.md R33, R51). -/
def State.replayInside (s : State) : Bool :=
  match s.replay with
  | none => true
  | some r => s.windowOk && decide (r.pc ≤ s.inLen.toNat)

/-- What every state of the machine satisfies. -/
structure State.Inv (s : State) : Prop where
  cfgOk : s.cfg.ok = true
  ibufForm : Memory.wf s.cfg.maxIbuf s.ibuf = true
  obufForm : Memory.wf s.cfg.maxObuf s.obuf = true
  offtForm : Memory.wf (s.cfg.maxFrames + 1) s.offt = true
  flenForm : Memory.wf s.cfg.maxFrames s.flen = true
  output : s.outputExact = true
  table : s.tableExact = true
  container : s.containerInside = true
  replay : s.replayInside = true

/-- The step goes on: it neither faults nor is refused. -/
def stepsOn (s : State) : Prop := ∃ t, step s = .next t

/-- Every byte of the window has been written (70_reset_and_hazards.md R304). -/
def State.windowWritten (s : State) : Prop :=
  ∀ k, k < s.inLen.toNat → Memory.read s.ibuf (s.inBase.toNat + k) ≠ none

/-- The window when every byte of it has been written, as a byte sequence: `Win` (10_state.md R33). -/
def State.windowIs (s : State) (F : List Byte) : Prop := s.window = F.map some

end Sys2Proof.Machine
end

