-- ==== Sys2Proof/Certificates/Slice0/Obligations.lean ====
section
/-! DEFINITION. The statements for the provers. Each docstring names the rules of spec/ it formalises, or says that
the statement is derived and what it rests on. -/

open Sys2Proof Sys2Proof.Machine

/-! ### Encoding -/

/-- Decoding and encoding agree on every well-formed instruction: no operand is dropped (30_encoding.md sections 1 and 4). -/
def Obligations.DecodeOfEncodeIsTheInstruction : Prop :=
  ∀ i : Instr, i.wf = true → decode (encode i) = i

/-- Every command byte and every request word decodes to a well-formed instruction of its own kind, and encoding that
gives the code back, a request with its ignored bits[31:4] cleared (30_encoding.md R106, R118, 10_state.md R32). -/
def Obligations.EveryCodeDecodesAndEncodesBack : Prop :=
  (∀ c : Byte, (decodeCommand c).wf = true ∧ (decodeCommand c).isCommand = true ∧
    encode (decodeCommand c) = .command c) ∧
  (∀ v : Word, (decodeRequest v).wf = true ∧ (decodeRequest v).isCommand = false ∧
    encode (decodeRequest v) = .request (v &&& 0xF#32))

/-- 30_encoding.md R104: the four classes of command bytes, with count, payload and terminator. That the byte 0x00, which
R104 puts in the class LIT with n = 0, decodes to END, R120's name for that LIT, is the model's choice (log 5). -/
def Obligations.CommandByteClasses : Prop :=
  ∀ c : Byte,
    (c.toNat = 0 → decodeCommand c = .endRun ∧ Instr.payloadLength .endRun = 0 ∧ terminator c = true) ∧
    (1 ≤ c.toNat → c.toNat ≤ 0x7E → decodeCommand c = .lit c.toNat ∧
      (decodeCommand c).payloadLength = c.toNat ∧ terminator c = true) ∧
    (c.toNat = 0x7F → decodeCommand c = .litMax ∧ (decodeCommand c).payloadLength = 127 ∧ terminator c = false) ∧
    (c.toNat = 0x80 → decodeCommand c = .trnMax ∧ (decodeCommand c).payloadLength = 0 ∧ terminator c = false) ∧
    (0x81 ≤ c.toNat → decodeCommand c = .trn (0x100 - c.toNat) ∧ (decodeCommand c).payloadLength = 0 ∧
      terminator c = true)

/-- 30_encoding.md R117 and R118: CMD bits[3:0] select the operation and bits[31:4] do not matter. -/
def Obligations.RequestWordSelectsTheOperation : Prop :=
  ∀ v : Word,
    (v &&& 0xF#32 = 1#32 → decodeRequest v = .parseOffsets) ∧
    (v &&& 0xF#32 = 2#32 → decodeRequest v = .frameBytes) ∧
    (v &&& 0xF#32 = 3#32 → decodeRequest v = .buildContainer) ∧
    (v &&& 0xF#32 = 4#32 → decodeRequest v = .frameWidth) ∧
    (v &&& 0xF#32 = 5#32 → decodeRequest v = .decompress) ∧
    (v &&& 0xF#32 = 6#32 → decodeRequest v = .frameDims) ∧
    (v &&& 0xF#32 = 7#32 → decodeRequest v = .compressBlock) ∧
    (v &&& 0xF#32 = 8#32 → decodeRequest v = .compressRow) ∧
    (v &&& 0xF#32 = 9#32 → decodeRequest v = .encodeFrame) ∧
    (v &&& 0xF#32 = 0#32 ∨ 0xA#32 ≤ v &&& 0xF#32 → decodeRequest v = .illegalOp (v.setWidth 4))

/-- A few words written out from 30_encoding.md R104, R117 and R118. That 0x00 decodes to END and not to a LIT of no
bytes is the model's choice between R104 and R120 (log 5). -/
def Obligations.WrittenWordsDecode : Prop :=
  decodeCommand 0b00000011#8 = .lit 3 ∧ decodeCommand 0b01111110#8 = .lit 126 ∧
  decodeCommand 0b00000000#8 = .endRun ∧ decodeCommand 0b01111111#8 = .litMax ∧
  decodeCommand 0b10000000#8 = .trnMax ∧ decodeCommand 0b11111110#8 = .trn 2 ∧
  decodeRequest 0x00000001#32 = .parseOffsets ∧ decodeRequest 0x00000015#32 = .decompress ∧
  decodeRequest 0x00000009#32 = .encodeFrame ∧ decodeRequest 0x0000000F#32 = .illegalOp 0xF#4

/-- A little-endian word read at any byte offset gives the number whose bytes stand there, the least significant byte
first. The byte arrangement is PRESUMED (log 18): 00_scope.md R21 marks it as general knowledge, not in the source. -/
def Obligations.LittleEndianWordReadsBack : Prop :=
  (∀ (v : Word) (pre post : Window),
    readWord (pre ++ (bytesLE32 v).map some ++ post) pre.length = .ok v) ∧
  bytesLE32 0x00000014#32 = [0x14#8, 0x00#8, 0x00#8, 0x00#8] ∧
  (∀ b0 b1 b2 b3 : Byte, (le32 b0 b1 b2 b3).toNat =
    b0.toNat + 256 * b1.toNat + 65536 * b2.toNat + 16777216 * b3.toNat)

/-! ### Commands -/

/-- 41_decoder.md R185, R186 (END is R185 with n = 0): a literal run inside a replay (the command as a step of its own
is the model's choice, log 9). Cut short, it ends its operation
with UnexpectedEndOfFrame; else `pc` moves past the payload, a width replay counts n pixels and notes whether the run
terminates (n < 127), a decode replay takes the payload as pixels. Nothing else changes. -/
def Obligations.LiteralRunInAReplay : Prop :=
  ∀ (i : Instr) (n : Nat),
    (i = .lit n ∧ n ≤ 126) ∨ (i = .endRun ∧ n = 0) ∨ (i = .litMax ∧ n = 127) →
    ∀ (s : State) (r : Replay), s.replay = some r →
      (s.window.length < r.pc + 1 + n → exec i s = .next
        (match r.task with
          | .width =>
            { s with width := .unspecified, err := some .unexpectedEndOfFrame, done := true, replay := none }
          | .decode =>
            { s with obuf := [], outLen := .unspecified, err := some .unexpectedEndOfFrame, done := true,
                     replay := none }
          | .dimsWidth =>
            { s with width := .unspecified, height := .unspecified, obuf := [], outLen := .unspecified,
                     err := some .unexpectedEndOfFrame, done := true, replay := none }
          | .dimsDecode _ =>
            { s with width := .unspecified, height := .unspecified, obuf := [], outLen := .unspecified,
                     err := some .unexpectedEndOfFrame, done := true, replay := none })) ∧
      (∀ px : List Byte, px.length = n → r.pc + 1 + n ≤ s.window.length →
        (∀ k b, px[k]? = some b → s.window[r.pc + 1 + k]? = some (some b)) →
        exec i s = .next { s with
          replay := some (match r.task with
            | .width => { r with pc := r.pc + 1 + n, acc := r.acc + n, ended := decide (n < 127) }
            | .dimsWidth => { r with pc := r.pc + 1 + n, acc := r.acc + n, ended := decide (n < 127) }
            | .decode => { r with pc := r.pc + 1 + n, out := r.out ++ px }
            | .dimsDecode _ => { r with pc := r.pc + 1 + n, out := r.out ++ px }) })

/-- 41_decoder.md R187, R188: a transparency run inside a replay (log 9). `pc` moves by 1, a width replay counts n pixels and
notes whether the run terminates (n < 128), a decode replay takes n pixels 0xFF. Nothing else changes. -/
def Obligations.TransparencyRunInAReplay : Prop :=
  ∀ (i : Instr) (n : Nat),
    (i = .trn n ∧ 1 ≤ n ∧ n ≤ 127) ∨ (i = .trnMax ∧ n = 128) →
    ∀ (s : State) (r : Replay), s.replay = some r →
      exec i s = .next { s with
        replay := some (match r.task with
          | .width => { r with pc := r.pc + 1, acc := r.acc + n, ended := decide (n < 128) }
          | .dimsWidth => { r with pc := r.pc + 1, acc := r.acc + n, ended := decide (n < 128) }
          | .decode => { r with pc := r.pc + 1, out := r.out ++ List.replicate n 0xFF#8 }
          | .dimsDecode _ => { r with pc := r.pc + 1, out := r.out ++ List.replicate n 0xFF#8 }) }

/-- The model's choice (log 10): a command with no replay running has no stream to read and is refused by name. -/
def Obligations.CommandOutsideAReplayIsRefused : Prop :=
  ∀ (i : Instr) (s : State), i.isCommand = true → s.replay = none → exec i s = .refused .noReplay

/-! ### The decoder's functions -/

/-- 41_decoder.md R181, R182: the header test under both values of P_HDR_RULE, and where the first command stands: at 10
behind a header, at 0 without one; a header cut short is UnexpectedEndOfFrame. -/
def Obligations.HeaderTestAndStreamStart : Prop :=
  (∀ rule, hdrPresent rule [] = .ok false) ∧
  (∀ (b : Byte) (F : Window), hdrPresent .gt (some b :: F) = .ok (decide (0x10 < b.toNat))) ∧
  (∀ (b : Byte) (F : Window), hdrPresent .le (some b :: F) = .ok (decide (b.toNat ≤ 0x10))) ∧
  (∀ (rule : HdrRule) (F : Window),
    (hdrPresent rule F = .ok false → cmdStart rule F = .ok 0) ∧
    (hdrPresent rule F = .ok true → 10 ≤ F.length → cmdStart rule F = .ok 10) ∧
    (hdrPresent rule F = .ok true → F.length < 10 → cmdStart rule F = raise .unexpectedEndOfFrame))

/-- Full decode is the concatenation of the pixels of the stream's commands, with or without a header, for every
stream the assembler can write; behind any such stream a literal command `c` whose payload `px` is cut short raises
UnexpectedEndOfFrame (41_decoder.md section 3, R183, 30_encoding.md section 5). -/
def Obligations.FullDecodeOfACommandList : Prop :=
  ∀ (rule : HdrRule) (h bytes : List Byte) (lines : List AsmLine),
    (∀ l ∈ lines, l.isRuns = true) → assemble lines = some bytes →
    ((h = [] ∧ hdrPresent rule (bytes.map some) = .ok false) ∨
      (h.length = 10 ∧ hdrPresent rule (h.map some) = .ok true) →
      decompress rule ((h ++ bytes).map some) = .ok (lines.flatMap AsmLine.pixels)) ∧
    (∀ (c : Byte) (px : List Byte), c.toNat < 128 → px.length < c.toNat →
      (h = [] ∧ hdrPresent rule ((bytes ++ c :: px).map some) = .ok false) ∨
        (h.length = 10 ∧ hdrPresent rule (h.map some) = .ok true) →
      decompress rule ((h ++ bytes ++ c :: px).map some) = raise .unexpectedEndOfFrame)

/-- Width inference counts the pixels up to and including the first terminator, whatever follows it, and raises
UnexpectedEndOfFrame on a stream of maximal runs only, and on one where maximal runs are followed by a literal command
`c` whose payload `px` is cut short (41_decoder.md section 3, R183, 30_encoding.md section 1). -/
def Obligations.WidthOfACommandList : Prop :=
  ∀ (rule : HdrRule) (h bytes tail : List Byte) (runs : List AsmLine),
    (∀ l ∈ runs, l.isMaximal = true) →
    (∀ l : AsmLine, l.isTerminator = true → assemble (runs ++ [l]) = some bytes →
      (h = [] ∧ hdrPresent rule (bytes.map some) = .ok false) ∨
        (h.length = 10 ∧ hdrPresent rule (h.map some) = .ok true) →
      frameWidth rule ((h ++ bytes ++ tail).map some) = .ok ((runs ++ [l]).flatMap AsmLine.pixels).length) ∧
    (assemble runs = some bytes →
      (h = [] ∧ hdrPresent rule (bytes.map some) = .ok false) ∨
        (h.length = 10 ∧ hdrPresent rule (h.map some) = .ok true) →
      frameWidth rule ((h ++ bytes).map some) = raise .unexpectedEndOfFrame) ∧
    (∀ (c : Byte) (px : List Byte), c.toNat < 128 → px.length < c.toNat → assemble runs = some bytes →
      (h = [] ∧ hdrPresent rule ((bytes ++ c :: px).map some) = .ok false) ∨
        (h.length = 10 ∧ hdrPresent rule (h.map some) = .ok true) →
      frameWidth rule ((h ++ bytes ++ c :: px).map some) = raise .unexpectedEndOfFrame)

/-- 41_decoder.md R196: when both replays succeed, the first w decoded pixels are exactly those of the commands up to
and including the first terminator; `k` is the index where that terminator ends. -/
def Obligations.FirstRowPixelsAreThePrefix : Prop :=
  ∀ (rule : HdrRule) (F : Window) (w : Nat) (p : List Byte),
    frameWidth rule F = .ok w → decompress rule F = .ok p →
    w ≤ p.length ∧ ∃ k, k ≤ F.length ∧ frameWidth rule (F.take k) = .ok w ∧
      decompress rule (F.take k) = .ok (p.take w) ∧
      ∀ j, j < k → frameWidth rule (F.take j) = raise .unexpectedEndOfFrame

/-! ### The decoder's operations -/

/-- 41_decoder.md R192: FRAME_WIDTH, its result and its errors. -/
def Obligations.FrameWidthOperation : Prop :=
  decodeRequest 0x4#32 = .frameWidth ∧
  ∀ s : State,
    (s.cfg.maxIbuf < s.inBase.toNat + s.inLen.toNat → exec .frameWidth s = .next
      { s with width := .unspecified, err := some .illegalRequest, done := true, replay := none }) ∧
    (∀ h, s.inBase.toNat + s.inLen.toNat ≤ s.cfg.maxIbuf → hdrPresent s.cfg.hdrRule s.window = .ok h →
      (∀ w, frameWidth s.cfg.hdrRule s.window = .ok w → w ≤ 4294967295 → exec .frameWidth s = .next
        { s with hdr := h, width := .word (BitVec.ofNat 32 w), err := none, done := true, replay := none }) ∧
      (∀ w, frameWidth s.cfg.hdrRule s.window = .ok w → 4294967295 < w → exec .frameWidth s = .next
        { s with hdr := h, width := .unspecified, err := some .capacityExceeded, done := true, replay := none }) ∧
      (∀ e, frameWidth s.cfg.hdrRule s.window = .error (.raise e) → e = .unexpectedEndOfFrame ∧
        exec .frameWidth s = .next
          { s with hdr := h, width := .unspecified, err := some .unexpectedEndOfFrame, done := true,
                   replay := none }))

/-- 41_decoder.md R193: DECOMPRESS, its result and its errors. -/
def Obligations.DecompressOperation : Prop :=
  decodeRequest 0x5#32 = .decompress ∧
  ∀ s : State,
    (s.cfg.maxIbuf < s.inBase.toNat + s.inLen.toNat → exec .decompress s = .next
      { s with obuf := [], outLen := .unspecified, err := some .illegalRequest, done := true, replay := none }) ∧
    (∀ h, s.inBase.toNat + s.inLen.toNat ≤ s.cfg.maxIbuf → hdrPresent s.cfg.hdrRule s.window = .ok h →
      (∀ p, decompress s.cfg.hdrRule s.window = .ok p → p.length ≤ s.cfg.maxObuf → exec .decompress s = .next
        { s with hdr := h, obuf := Memory.ofList 0 p, outLen := .word (BitVec.ofNat 32 p.length), err := none,
                 done := true, replay := none }) ∧
      (∀ p, decompress s.cfg.hdrRule s.window = .ok p → s.cfg.maxObuf < p.length → exec .decompress s = .next
        { s with hdr := h, obuf := [], outLen := .unspecified, err := some .capacityExceeded, done := true,
                 replay := none }) ∧
      (∀ e, decompress s.cfg.hdrRule s.window = .error (.raise e) → e = .unexpectedEndOfFrame ∧
        exec .decompress s = .next
          { s with hdr := h, obuf := [], outLen := .unspecified, err := some .unexpectedEndOfFrame, done := true,
                   replay := none }))

/-- 41_decoder.md R195 with R194: FRAME_DIMS, its result and its errors. -/
def Obligations.FrameDimsOperation : Prop :=
  decodeRequest 0x6#32 = .frameDims ∧
  ∀ s : State,
    (s.cfg.maxIbuf < s.inBase.toNat + s.inLen.toNat → exec .frameDims s = .next
      { s with width := .unspecified, height := .unspecified, obuf := [], outLen := .unspecified,
               err := some .illegalRequest, done := true, replay := none }) ∧
    (∀ h, s.inBase.toNat + s.inLen.toNat ≤ s.cfg.maxIbuf → hdrPresent s.cfg.hdrRule s.window = .ok h →
      (∀ w p q, frameWidth s.cfg.hdrRule s.window = .ok w → decompress s.cfg.hdrRule s.window = .ok p →
        0 < w → p.length = w * q → p.length ≤ s.cfg.maxObuf → exec .frameDims s = .next
          { s with hdr := h, width := .word (BitVec.ofNat 32 w), height := .word (BitVec.ofNat 32 q),
                   obuf := Memory.ofList 0 p, outLen := .word (BitVec.ofNat 32 p.length), err := none,
                   done := true, replay := none }) ∧
      (∀ w p, frameWidth s.cfg.hdrRule s.window = .ok w → decompress s.cfg.hdrRule s.window = .ok p →
        (w = 0 ∨ p.length % w ≠ 0) → exec .frameDims s = .next
          { s with hdr := h, width := .unspecified, height := .unspecified, obuf := [], outLen := .unspecified,
                   err := some .dimensionMismatch, done := true, replay := none }) ∧
      (∀ w p, frameWidth s.cfg.hdrRule s.window = .ok w → decompress s.cfg.hdrRule s.window = .ok p →
        0 < w → p.length % w = 0 → s.cfg.maxObuf < p.length → exec .frameDims s = .next
          { s with hdr := h, width := .unspecified, height := .unspecified, obuf := [], outLen := .unspecified,
                   err := some .capacityExceeded, done := true, replay := none }) ∧
      (frameWidth s.cfg.hdrRule s.window = raise .unexpectedEndOfFrame ∨
          ((∃ w, frameWidth s.cfg.hdrRule s.window = .ok w) ∧
            decompress s.cfg.hdrRule s.window = raise .unexpectedEndOfFrame) →
        exec .frameDims s = .next
          { s with hdr := h, width := .unspecified, height := .unspecified, obuf := [], outLen := .unspecified,
                   err := some .unexpectedEndOfFrame, done := true, replay := none }))

/-- The frame of the decoder's operations: when one ends, only its results (30_encoding.md R117), STATUS and the
sequencer's state have changed; FRAME_WIDTH stores no byte, and the bytes of OBUF after a DECOMPRESS or FRAME_DIMS
without error are its output at 0 .. OUT_LEN and nothing above (10_state.md R55). -/
def Obligations.DecoderOperationsFrame : Prop :=
  ∀ s t : State,
    (exec .frameWidth s = .next t →
      t = { s with width := t.width, hdr := t.hdr, err := t.err, done := true, replay := none } ∧
      ∀ a, Memory.read t.obuf a = Memory.read s.obuf a ∧ Memory.read t.ibuf a = Memory.read s.ibuf a) ∧
    (exec .decompress s = .next t →
      t = { s with obuf := t.obuf, outLen := t.outLen, hdr := t.hdr, err := t.err, done := true, replay := none } ∧
      (∀ a, Memory.read t.ibuf a = Memory.read s.ibuf a) ∧
      (t.err = none → ∃ p, decompress s.cfg.hdrRule s.window = .ok p ∧
        t.outLen = .word (BitVec.ofNat 32 p.length) ∧ ∀ a, Memory.read t.obuf a = p[a]?)) ∧
    (exec .frameDims s = .next t →
      t = { s with width := t.width, height := t.height, obuf := t.obuf, outLen := t.outLen, hdr := t.hdr,
                   err := t.err, done := true, replay := none } ∧
      (∀ a, Memory.read t.ibuf a = Memory.read s.ibuf a) ∧
      (t.err = none → ∃ p, decompress s.cfg.hdrRule s.window = .ok p ∧
        t.outLen = .word (BitVec.ofNat 32 p.length) ∧ ∀ a, Memory.read t.obuf a = p[a]?))

/-! ### The indexer -/

/-- 40_indexer.md R142 with R141: PARSE_OFFSETS, its result and its errors. Only the count word and the offsets are
read of the window. -/
def Obligations.ParseOffsetsOperation : Prop :=
  decodeRequest 0x1#32 = .parseOffsets ∧
  ∀ s : State,
    (s.cfg.maxIbuf < s.inBase.toNat + s.inLen.toNat → exec .parseOffsets s = .next
      { s with frameCount := .unspecified, offt := [], contBase := .unspecified, contLen := .unspecified,
               offtLen := 0#32, err := some .illegalRequest, done := true, replay := none }) ∧
    (s.inBase.toNat + s.inLen.toNat ≤ s.cfg.maxIbuf → s.inLen.toNat < 4 → exec .parseOffsets s = .next
      { s with frameCount := .unspecified, offt := [], contBase := .unspecified, contLen := .unspecified,
               offtLen := 0#32, err := some .malformedContainer, done := true, replay := none }) ∧
    (∀ n : Word, s.inBase.toNat + s.inLen.toNat ≤ s.cfg.maxIbuf → 4 ≤ s.inLen.toNat → readWord s.window 0 = .ok n →
      (s.inLen.toNat < 4 * (n.toNat + 2) → exec .parseOffsets s = .next
        { s with frameCount := .unspecified, offt := [], contBase := .unspecified, contLen := .unspecified,
                 offtLen := 0#32, err := some .malformedContainer, done := true, replay := none }) ∧
      (∀ offs : List Word, 4 * (n.toNat + 2) ≤ s.inLen.toNat → offs.length = n.toNat + 1 →
        (∀ k w, offs[k]? = some w → readWord s.window (4 + 4 * k) = .ok w) →
        (s.cfg.maxFrames < n.toNat → exec .parseOffsets s = .next
          { s with frameCount := .unspecified, offt := [], contBase := .unspecified, contLen := .unspecified,
                   offtLen := 0#32, err := some .capacityExceeded, done := true, replay := none }) ∧
        (n.toNat ≤ s.cfg.maxFrames → exec .parseOffsets s = .next
          { s with offt := Memory.ofList 0 offs, offtLen := BitVec.ofNat 32 (n.toNat + 1), frameCount := .word n,
                   contBase := .word s.inBase, contLen := .word s.inLen, err := none, done := true,
                   replay := none })))

/-- 40_indexer.md R145 with R144: FRAME_BYTES, its result and its errors. SLICE_BASE is stated over all states as the sum
narrowed to 32 bits, which is the model's inference (log 12); under the invariant the sum fits
(SliceLiesInTheContainer). -/
def Obligations.FrameBytesOperation : Prop :=
  decodeRequest 0x2#32 = .frameBytes ∧
  ∀ s : State,
    (s.offtLen.toNat ≤ s.idx.toNat + 1 → exec .frameBytes s = .next
      { s with sliceBase := .unspecified, sliceLen := .unspecified, err := some .indexOutOfRange, done := true,
               replay := none }) ∧
    (∀ a b l : Word, s.idx.toNat + 1 < s.offtLen.toNat →
      Memory.read s.offt s.idx.toNat = some a → Memory.read s.offt (s.idx.toNat + 1) = some b →
      s.contLen = .word l →
      (b.toNat < a.toNat ∨ l.toNat < b.toNat → exec .frameBytes s = .next
        { s with sliceBase := .unspecified, sliceLen := .unspecified, err := some .malformedContainer,
                 done := true, replay := none }) ∧
      (∀ c : Word, a.toNat ≤ b.toNat → b.toNat ≤ l.toNat → s.contBase = .word c → exec .frameBytes s = .next
        { s with sliceBase := .word (c + a), sliceLen := .word (b - a), err := none, done := true,
                 replay := none }))

/-- 40_indexer.md R146, first sentence: a frame FRAME_BYTES returns lies inside the parsed container, and so inside
IBUF. -/
def Obligations.SliceLiesInTheContainer : Prop :=
  ∀ s t : State, s.Inv → exec .frameBytes s = .next t → t.err = none →
    ∃ base len c l : Word, t.sliceBase = .word base ∧ t.sliceLen = .word len ∧ s.contBase = .word c ∧
      s.contLen = .word l ∧ c.toNat ≤ base.toNat ∧ base.toNat + len.toNat ≤ c.toNat + l.toNat ∧
      c.toNat + l.toNat ≤ s.cfg.maxIbuf

/-- 40_indexer.md R148 with R147: BUILD_CONTAINER, its result and its errors. -/
def Obligations.BuildContainerOperation : Prop :=
  decodeRequest 0x3#32 = .buildContainer ∧
  ∀ s : State,
    (s.cfg.maxIbuf < s.inBase.toNat + s.inLen.toNat → exec .buildContainer s = .next
      { s with obuf := [], outLen := .unspecified, err := some .illegalRequest, done := true, replay := none }) ∧
    (∀ n : Word, s.inBase.toNat + s.inLen.toNat ≤ s.cfg.maxIbuf → s.frameCount = .word n →
      (s.cfg.maxFrames < n.toNat → exec .buildContainer s = .next
        { s with obuf := [], outLen := .unspecified, err := some .illegalRequest, done := true, replay := none }) ∧
      (∀ lens : List Nat, n.toNat ≤ s.cfg.maxFrames → lens.length = n.toNat →
        (∀ k l, lens[k]? = some l → ∃ v, Memory.read s.flen k = some v ∧ v.toNat = l) →
        (lens.sum ≠ s.inLen.toNat → exec .buildContainer s = .next
          { s with obuf := [], outLen := .unspecified, err := some .illegalRequest, done := true,
                   replay := none }) ∧
        (∀ frames : List (List Byte), frames.map List.length = lens → s.window = frames.flatten.map some →
          (4294967295 < 4 * (n.toNat + 2) + lens.sum ∨ s.cfg.maxObuf < 4 * (n.toNat + 2) + lens.sum →
            exec .buildContainer s = .next
              { s with obuf := [], outLen := .unspecified, err := some .capacityExceeded, done := true,
                       replay := none }) ∧
          (4 * (n.toNat + 2) + lens.sum ≤ 4294967295 → 4 * (n.toNat + 2) + lens.sum ≤ s.cfg.maxObuf →
            exec .buildContainer s = .next
              { s with obuf := Memory.ofList 0 (buildContainer frames),
                       outLen := .word (BitVec.ofNat 32 (4 * (n.toNat + 2) + lens.sum)), err := none,
                       done := true, replay := none }))))

/-- 40_indexer.md R150: parsing a built container gives its frame count, and every slice selects exactly its frame. -/
def Obligations.ContainerIndexRoundTrip : Prop :=
  ∀ frames : List (List Byte), 4 * (frames.length + 2) + (frames.map List.length).sum ≤ 4294967295 →
    (buildContainer frames).length = 4 * (frames.length + 2) + (frames.map List.length).sum ∧
    ∃ offs : List Word,
      parseOffsets ((buildContainer frames).map some) = .ok (BitVec.ofNat 32 frames.length, offs) ∧
      offs.length = frames.length + 1 ∧
      (∀ k f, frames[k]? = some f →
        frameSlice (offs.map some) (.word (BitVec.ofNat 32 (buildContainer frames).length)) k =
          .ok (4 * (frames.length + 2) + ((frames.take k).map List.length).sum, f.length) ∧
        ((buildContainer frames).drop (4 * (frames.length + 2) + ((frames.take k).map List.length).sum)).take
          f.length = f) ∧
      (∀ k, frames.length ≤ k →
        frameSlice (offs.map some) (.word (BitVec.ofNat 32 (buildContainer frames).length)) k =
          raise .indexOutOfRange)

/-- The frame of the indexer's operations: when one ends, only its results (30_encoding.md R117), STATUS.ERR,
STATUS.DONE and the sequencer's state have changed. PARSE_OFFSETS and FRAME_BYTES store no byte; the bytes of OBUF
after a BUILD_CONTAINER without error are the container of the window's frames, cut at the lengths in FLEN, at
0 .. OUT_LEN and nothing above (10_state.md R55). -/
def Obligations.IndexerOperationsFrame : Prop :=
  ∀ s t : State,
    (exec .parseOffsets s = .next t →
      t = { s with frameCount := t.frameCount, offt := t.offt, offtLen := t.offtLen, contBase := t.contBase,
                   contLen := t.contLen, err := t.err, done := true, replay := none } ∧
      ∀ a, Memory.read t.obuf a = Memory.read s.obuf a ∧ Memory.read t.ibuf a = Memory.read s.ibuf a) ∧
    (exec .frameBytes s = .next t →
      t = { s with sliceBase := t.sliceBase, sliceLen := t.sliceLen, err := t.err, done := true, replay := none } ∧
      ∀ a, Memory.read t.obuf a = Memory.read s.obuf a ∧ Memory.read t.ibuf a = Memory.read s.ibuf a) ∧
    (exec .buildContainer s = .next t →
      t = { s with obuf := t.obuf, outLen := t.outLen, err := t.err, done := true, replay := none } ∧
      (∀ a, Memory.read t.ibuf a = Memory.read s.ibuf a) ∧
      (t.err = none → ∃ frames, s.frameCount = .word (BitVec.ofNat 32 frames.length) ∧
        (∀ k f, frames[k]? = some f → Memory.read s.flen k = some (BitVec.ofNat 32 f.length)) ∧
        s.window = frames.flatten.map some ∧ t.outLen = .word (BitVec.ofNat 32 (buildContainer frames).length) ∧
        ∀ a, Memory.read t.obuf a = (buildContainer frames)[a]?))

/-! ### The encoder -/

/-- 42_encoder.md R230: the blocks of a row are its maximal runs of one kind. -/
def Obligations.PartitionIsTheMaximalRuns : Prop :=
  (∀ p : Byte, isSent p = true ↔ p = 0xFF#8) ∧ partition [] = [] ∧
  ∀ R : List Byte, (partition R).flatten = R ∧
    (∀ b ∈ partition R, b ≠ [] ∧ (b.all isSent = true ∨ b.all (fun p => !isSent p) = true)) ∧
    (∀ k b c, (partition R)[k]? = some b → (partition R)[k + 1]? = some c → b.all isSent ≠ c.all isSent)

/-- 42_encoder.md R233 and R235: m transparent pixels are m / 128 maximal commands and one command for the remainder,
if there is one. -/
def Obligations.SentinelBlockCommands : Prop :=
  ∀ m : Nat, sentBlock m =
    List.replicate (m / 128) 0x80#8 ++ (if m % 128 = 0 then [] else [BitVec.ofNat 8 (0x100 - m % 128)])

/-- 42_encoder.md R234 and R235: 127 pixels more in front of a literal block are one maximal command in front of its
code, and a block of fewer than 127 pixels is one command, or none when it is empty. -/
def Obligations.LiteralBlockCommands : Prop :=
  (∀ C B : List Byte, C.length = 127 → litBlock (C ++ B) = 0x7F#8 :: (C ++ litBlock B)) ∧
  (∀ B : List Byte, 0 < B.length → B.length < 127 → litBlock B = BitVec.ofNat 8 B.length :: B) ∧
  litBlock [] = []

/-- 42_encoder.md R232: what block compression gives for an empty, a sentinel, a literal and a mixed block, and that a
row's compression never raises. -/
def Obligations.BlockCompressionCases : Prop :=
  compressBlock [] = .ok [] ∧
  (∀ B : List Byte, B ≠ [] → (∀ p ∈ B, p = 0xFF#8) → compressBlock B = .ok (sentBlock B.length)) ∧
  (∀ B : List Byte, B ≠ [] → (∀ p ∈ B, p ≠ 0xFF#8) → compressBlock B = .ok (litBlock B)) ∧
  (∀ B : List Byte, (∃ p ∈ B, p = 0xFF#8) → (∃ p ∈ B, p ≠ 0xFF#8) → compressBlock B = raise .illegalRequest) ∧
  (∀ R : List Byte, ∃ out, compressRow R = .ok out)

/-- 42_encoder.md R236 and R237: a row's code is its blocks' codes in order, with END appended exactly when the last block
is a multiple of its maximal run; read as single commands it gives the row's pixels, and the last command of a
non-empty row is a terminator. -/
def Obligations.RowEndsWithATerminator : Prop :=
  compressRow [] = .ok [] ∧
  (∀ (R : List Byte) (blocks : List (List Byte)) (b : List Byte), partition R = blocks ++ [b] →
    ∃ x y, compressBlocks blocks = .ok x ∧ compressBlock b = .ok y ∧
      compressRow R =
        .ok (x ++ y ++ (if b.length % (if b.all isSent then 128 else 127) = 0 then [0x00#8] else []))) ∧
  (∀ R out : List Byte, R ≠ [] → compressRow R = .ok out →
    ∃ (lines : List AsmLine) (l : AsmLine), (∀ k ∈ lines, k.isMaximal = true ∨ k.isTerminator = true) ∧
      l.isTerminator = true ∧ assemble (lines ++ [l]) = some out ∧ (lines ++ [l]).flatMap AsmLine.pixels = R)

/-- 42_encoder.md R243: the sizes of the encoder's outputs. -/
def Obligations.EncoderOutputSizes : Prop :=
  (∀ m, 0 < m → (sentBlock m).length = (m + 127) / 128) ∧
  (∀ B : List Byte, B ≠ [] → (litBlock B).length = B.length + (B.length + 126) / 127) ∧
  (∀ R out : List Byte, compressRow R = .ok out → out.length ≤ 2 * R.length + 1)

/-- 42_encoder.md R245: the pixel round trip, under either header rule. -/
def Obligations.PixelRoundTrip : Prop :=
  ∀ (rule : HdrRule) (G : List Byte) (w h : Nat), G.length = w * h →
    ∃ out, encodeFrame G w h = .ok out ∧
      (hdrPresent rule (out.map some) = .ok false → decompress rule (out.map some) = .ok G)

/-- 42_encoder.md R246: the width round trip holds exactly when every block of row 0 but its last is a multiple of its
maximal run; otherwise the inferred width is the pixel count through the first inner block with a remainder. -/
def Obligations.WidthRoundTrip : Prop :=
  ∀ (rule : HdrRule) (G : List Byte) (w h : Nat) (out : List Byte), 1 ≤ w → 1 ≤ h → G.length = w * h →
    encodeFrame G w h = .ok out → hdrPresent rule (out.map some) = .ok false →
    (frameWidth rule (out.map some) = .ok w ↔
      ∀ b ∈ (partition (G.take w)).dropLast, b.length % maximalRun b = 0) ∧
    (∀ pre b post, partition (G.take w) = pre ++ b :: post → post ≠ [] →
      (∀ c ∈ pre, c.length % maximalRun c = 0) → b.length % maximalRun b ≠ 0 →
      frameWidth rule (out.map some) = .ok ((pre.map List.length).sum + b.length) ∧
      (pre.map List.length).sum + b.length < w)

/-- 42_encoder.md R247: when the encoder's output is read without a header, under either header rule. -/
def Obligations.HeaderMisreading : Prop :=
  ∀ (G : List Byte) (w h : Nat) (out : List Byte), G.length = w * h → encodeFrame G w h = .ok out →
    (hdrPresent .gt (out.map some) = .ok false ↔
      w * h = 0 ∨ ∃ b bs, partition (G.take w) = b :: bs ∧ (∀ p ∈ b, p ≠ 0xFF#8) ∧ 1 ≤ b.length ∧ b.length ≤ 16) ∧
    (hdrPresent .le (out.map some) = .ok false ↔
      w * h = 0 ∨ G.head? = some 0xFF#8 ∨
        ∃ b bs, partition (G.take w) = b :: bs ∧ (∀ p ∈ b, p ≠ 0xFF#8) ∧ 17 ≤ b.length)

/-- 42_encoder.md R239: COMPRESS_BLOCK, its result and its errors. -/
def Obligations.CompressBlockOperation : Prop :=
  decodeRequest 0x7#32 = .compressBlock ∧
  ∀ s : State,
    (s.cfg.maxIbuf < s.inBase.toNat + s.inLen.toNat → exec .compressBlock s = .next
      { s with obuf := [], outLen := .unspecified, err := some .illegalRequest, done := true, replay := none }) ∧
    (∀ B : List Byte, s.inBase.toNat + s.inLen.toNat ≤ s.cfg.maxIbuf → s.window = B.map some →
      (∀ out, compressBlock B = .ok out → out.length ≤ s.cfg.maxObuf → exec .compressBlock s = .next
        { s with obuf := Memory.ofList 0 out, outLen := .word (BitVec.ofNat 32 out.length), err := none,
                 done := true, replay := none }) ∧
      (∀ out, compressBlock B = .ok out → s.cfg.maxObuf < out.length → exec .compressBlock s = .next
        { s with obuf := [], outLen := .unspecified, err := some .capacityExceeded, done := true,
                 replay := none }) ∧
      ((∃ p ∈ B, p = 0xFF#8) → (∃ p ∈ B, p ≠ 0xFF#8) → exec .compressBlock s = .next
        { s with obuf := [], outLen := .unspecified, err := some .illegalRequest, done := true, replay := none }))

/-- 42_encoder.md R240: COMPRESS_ROW, its result and its errors. -/
def Obligations.CompressRowOperation : Prop :=
  decodeRequest 0x8#32 = .compressRow ∧
  ∀ s : State,
    (s.cfg.maxIbuf < s.inBase.toNat + s.inLen.toNat → exec .compressRow s = .next
      { s with obuf := [], outLen := .unspecified, err := some .illegalRequest, done := true, replay := none }) ∧
    (∀ R : List Byte, s.inBase.toNat + s.inLen.toNat ≤ s.cfg.maxIbuf → s.window = R.map some → ∃ out, compressRow R = .ok out ∧
      (out.length ≤ s.cfg.maxObuf → exec .compressRow s = .next
        { s with obuf := Memory.ofList 0 out, outLen := .word (BitVec.ofNat 32 out.length), err := none,
                 done := true, replay := none }) ∧
      (s.cfg.maxObuf < out.length → exec .compressRow s = .next
        { s with obuf := [], outLen := .unspecified, err := some .capacityExceeded, done := true,
                 replay := none }))

/-- 42_encoder.md R241: ENCODE_FRAME, its result and its errors. -/
def Obligations.EncodeFrameOperation : Prop :=
  decodeRequest 0x9#32 = .encodeFrame ∧
  ∀ s : State,
    (s.cfg.maxIbuf < s.inBase.toNat + s.inLen.toNat ∨ s.gridW.toNat * s.gridH.toNat ≠ s.inLen.toNat → exec .encodeFrame s = .next
      { s with obuf := [], outLen := .unspecified, err := some .illegalRequest, done := true, replay := none }) ∧
    (∀ G : List Byte, s.inBase.toNat + s.inLen.toNat ≤ s.cfg.maxIbuf → s.gridW.toNat * s.gridH.toNat = s.inLen.toNat →
      s.window = G.map some → ∃ out, encodeFrame G s.gridW.toNat s.gridH.toNat = .ok out ∧
      (out.length ≤ s.cfg.maxObuf → exec .encodeFrame s = .next
        { s with obuf := Memory.ofList 0 out, outLen := .word (BitVec.ofNat 32 out.length), err := none,
                 done := true, replay := none }) ∧
      (s.cfg.maxObuf < out.length → exec .encodeFrame s = .next
        { s with obuf := [], outLen := .unspecified, err := some .capacityExceeded, done := true,
                 replay := none }))

/-- The frame of the encoder's operations: when one ends, only OBUF, OUT_LEN, STATUS.ERR, STATUS.DONE and the
sequencer's state have changed, and the bytes of OBUF after one without error are its output at 0 .. OUT_LEN and
nothing above (30_encoding.md R117, 10_state.md R55). -/
def Obligations.EncoderOperationsFrame : Prop :=
  ∀ (i : Instr) (s t : State), i = .compressBlock ∨ i = .compressRow ∨ i = .encodeFrame → exec i s = .next t →
    t = { s with obuf := t.obuf, outLen := t.outLen, err := t.err, done := true, replay := none } ∧
    (∀ a, Memory.read t.ibuf a = Memory.read s.ibuf a) ∧
    (t.err = none → ∃ B out, s.window = B.map some ∧
      ((i = .compressBlock ∧ compressBlock B = .ok out) ∨ (i = .compressRow ∧ compressRow B = .ok out) ∨
        (i = .encodeFrame ∧ encodeFrame B s.gridW.toNat s.gridH.toNat = .ok out)) ∧
      t.outLen = .word (BitVec.ofNat 32 out.length) ∧ ∀ a, Memory.read t.obuf a = out[a]?)

/-! ### Errors and completion -/

/-- 30_encoding.md R118: a request that names no operation ends at once with IllegalRequest and changes no other
register, no memory and not STATUS.HDR; and so does the write to CMD of a word with such an OP code. -/
def Obligations.IllegalOpOperation : Prop :=
  (∀ (op : BitVec 4) (s : State), s.replay = none →
    exec (.illegalOp op) s = .next { s with err := some .illegalRequest, done := true }) ∧
  (∀ (s : State) (q : List HostEvent) (v : Word), s.replay = none → s.hostQueue = .writeReg 0x00 4 v :: q →
    v.setWidth 4 = 0x0#4 ∨ 0xA#4 ≤ v.setWidth 4 →
    step s = .next { s with hostQueue := q, cmdOp := v.setWidth 4, err := some .illegalRequest, done := true })

/-- 60_exceptions.md R271: the error codes, and which operation raises which error. -/
def Obligations.ErrorCodesAndWhoRaisesThem : Prop :=
  errCode none = 0#4 ∧ errCode (some .malformedContainer) = 1#4 ∧ errCode (some .indexOutOfRange) = 2#4 ∧
  errCode (some .unexpectedEndOfFrame) = 3#4 ∧ errCode (some .dimensionMismatch) = 4#4 ∧
  errCode (some .capacityExceeded) = 5#4 ∧ errCode (some .illegalRequest) = 6#4 ∧ (∀ e, errCode e ≤ 6#4) ∧
  (∀ (i : Instr) (s t : State) (e : Err), i.isCommand = false → exec i s = .next t → t.err = some e →
    (e = .malformedContainer → i = .parseOffsets ∨ i = .frameBytes) ∧
    (e = .indexOutOfRange → i = .frameBytes) ∧
    (e = .unexpectedEndOfFrame → i = .frameWidth ∨ i = .decompress ∨ i = .frameDims) ∧
    (e = .dimensionMismatch → i = .frameDims) ∧
    (e = .capacityExceeded → i = .parseOffsets ∨ i = .buildContainer ∨ i = .frameWidth ∨ i = .decompress ∨
      i = .frameDims ∨ i = .compressBlock ∨ i = .compressRow ∨ i = .encodeFrame) ∧
    (e = .illegalRequest → (∃ op, i = .illegalOp op) ∨ i = .buildContainer ∨ i = .compressBlock ∨
      i = .encodeFrame ∨ (i ≠ .frameBytes ∧ s.cfg.maxIbuf < s.inBase.toNat + s.inLen.toNat)))

/-- 60_exceptions.md R281 with R282: error entry. Every result of the operation is UNSPECIFIED, a failed PARSE_OFFSETS
leaves OFFT_LEN 0, the registers the operation only reads and the input memories are unchanged, and STATUS.HDR is
kept or is what a decoder operation wrote before the error. -/
def Obligations.ErrorEntry : Prop :=
  ∀ (i : Instr) (s t : State) (e : Err), i.isCommand = false → exec i s = .next t → t.err = some e →
    t.done = true ∧
    (i = .parseOffsets → t =
      { s with frameCount := .unspecified, offt := [], contBase := .unspecified, contLen := .unspecified,
               offtLen := 0#32, err := some e, done := true, replay := none }) ∧
    (i = .frameBytes → t =
      { s with sliceBase := .unspecified, sliceLen := .unspecified, err := some e, done := true,
               replay := none }) ∧
    (i = .buildContainer ∨ i = .compressBlock ∨ i = .compressRow ∨ i = .encodeFrame → t =
      { s with obuf := [], outLen := .unspecified, err := some e, done := true, replay := none }) ∧
    (i = .frameWidth → t =
      { s with hdr := t.hdr, width := .unspecified, err := some e, done := true, replay := none }) ∧
    (i = .decompress → t =
      { s with hdr := t.hdr, obuf := [], outLen := .unspecified, err := some e, done := true,
               replay := none }) ∧
    (i = .frameDims → t =
      { s with hdr := t.hdr, width := .unspecified, height := .unspecified, obuf := [],
               outLen := .unspecified, err := some e, done := true, replay := none }) ∧
    (i = .frameWidth ∨ i = .decompress ∨ i = .frameDims →
      (s.cfg.maxIbuf < s.inBase.toNat + s.inLen.toNat → t.hdr = s.hdr) ∧
      (s.inBase.toNat + s.inLen.toNat ≤ s.cfg.maxIbuf → hdrPresent s.cfg.hdrRule s.window = .ok t.hdr)) ∧
    (∀ op, i = .illegalOp op → t = { s with err := some e, done := true, replay := none })

/-- A second request with the same operands repeats the same error and changes nothing more (60_exceptions.md section 4). -/
def Obligations.RetryRepeatsTheError : Prop :=
  ∀ (i : Instr) (s t : State) (e : Err), i.isCommand = false → exec i s = .next t → t.err = some e →
    exec i t = .next t

/-- Every operation ends when the operands it reads have been written: it neither faults nor is refused
(70_reset_and_hazards.md sections 2 and 4). -/
def Obligations.OperationsEndOnWrittenOperands : Prop :=
  ∀ (i : Instr) (s : State), i.isCommand = false → s.Inv →
    (i ≠ .frameBytes → (∀ op, i ≠ .illegalOp op) → s.inBase.toNat + s.inLen.toNat ≤ s.cfg.maxIbuf → s.windowWritten) →
    (i = .buildContainer → ∃ n : Word, s.frameCount = .word n ∧
      ∀ k, k < n.toNat → k < s.cfg.maxFrames → Memory.read s.flen k ≠ none) →
    ∃ t, exec i s = .next t ∧ t.done = true ∧ t.replay = none

/-! ### Reset, invariant and the machine's steps -/

/-- 10_state.md R59 and 70_reset_and_hazards.md R301: after reset every register is 0, no memory cell has a value, and
`pc` and `acc` do not exist; whatever the parameters are and whatever the host will do. -/
def Obligations.ResetValues : Prop :=
  (∀ r : RegName, State.reset.readReg r = .word 0#32) ∧
  (∀ (m : MemName) (a : Nat), State.reset.cell m a = none) ∧ State.reset.replay = none ∧
  ∀ (c : Config) (q : List HostEvent),
    (∀ r : RegName, (State.resetWith c q).readReg r = .word 0#32) ∧
    (∀ (m : MemName) (a : Nat), (State.resetWith c q).cell m a = none) ∧ (State.resetWith c q).replay = none

/-- The invariant holds right after reset, for every admitted value of the parameters and whatever the host will do.
The parameters and the pending accesses of State.reset itself are the model's choice (logs 1 and 7). -/
def Obligations.ResetMeetsTheInvariant : Prop :=
  State.reset.Inv ∧ State.reset.cfg = { maxIbuf := 4096, maxObuf := 4096, maxFrames := 16, hdrRule := .gt } ∧
  State.reset.hostQueue = [] ∧ ∀ (c : Config) (q : List HostEvent), c.ok = true → (State.resetWith c q).Inv

/-- Every step keeps the invariant: the memories' canonical forms, OBUF exactly below OUT_LEN, OFFT exactly below
OFFT_LEN, the parsed container inside IBUF, `pc` inside the window (10_state.md sections 2 to 4). -/
def Obligations.StepKeepsTheInvariant : Prop :=
  ∀ s t : State, s.Inv → step s = .next t → t.Inv

/-- The parameters are fixed for the life of the block (10_state.md R60). -/
def Obligations.ParametersNeverChange : Prop :=
  ∀ s t : State, step s = .next t → t.cfg = s.cfg

/-- Operations are atomic: a step from between operations ends between operations, so no sequencer state outlives an
operation (20_memory.md R78, 10_state.md R58). -/
def Obligations.StepsFromIdleEndIdle : Prop :=
  ∀ s t : State, s.replay = none → step s = .next t → t.replay = none

/-- The atomic meaning of a decoder operation is its command-by-command run: begin the replay, then let the machine
execute one command a step, and the outcome is the operation's (20_memory.md R78, 41_decoder.md R190 to R195; log 9). -/
def Obligations.ReplayRunsToTheOperationsOutcome : Prop :=
  ∀ (task : Task) (s : State), task = .width ∨ task = .decode ∨ task = .dimsWidth → s.replay = none →
    (∀ s1 r, beginReplay task s = .next s1 → s1.replay = some r →
      ∃ k, Host.Core.run Sys2Proof.core k s1 = exec task.op s) ∧
    ((∀ s1 r, beginReplay task s = .next s1 → s1.replay ≠ some r) → exec task.op s = beginReplay task s)

/-- A step inside a replay runs the command whose byte stands at `pc` (41_decoder.md R183, R184). -/
def Obligations.StepRunsTheCommandAtPc : Prop :=
  ∀ (s : State) (r : Replay) (c : Byte), s.replay = some r → r.ended = false →
    s.window[r.pc]? = some (some c) → step s = exec (decodeCommand c) s

/-- 60_exceptions.md R292: a step that takes a write to CMD clears DONE, stores OP and runs the named operation; when it
ends, DONE is 1. -/
def Obligations.StepRunsTheRequestedOperation : Prop :=
  (∀ (s : State) (q : List HostEvent) (v : Word), s.replay = none → s.hostQueue = .writeReg 0x00 4 v :: q →
    step s = exec (decodeRequest v) { s with hostQueue := q, cmdOp := v.setWidth 4, done := false }) ∧
  (∀ (i : Instr) (s t : State), i.isCommand = false → exec i s = .next t →
    t.done = true ∧ t.cmdOp = s.cmdOp ∧ t.hostQueue = s.hostQueue)

/-- 60_exceptions.md R291: with nothing pending the block holds its state. -/
def Obligations.IdleBlockHoldsItsState : Prop :=
  ∀ s : State, s.replay = none → s.hostQueue = [] → step s = .next s

/-! ### The host's accesses -/

/-- 10_state.md R36 and R32: the fields of STATUS and CMD as the host reads them, reserved bits 0; and what the host
reads in every other register of R31 is that register (R34 to R48). -/
def Obligations.StatusAndCmdFields : Prop :=
  ∀ s : State,
    s.readReg .status = .word s.statusWord ∧ s.statusWord.extractLsb' 0 4 = errCode s.err ∧
    s.statusWord.getLsbD 4 = s.done ∧ s.statusWord.getLsbD 5 = s.hdr ∧ s.statusWord.extractLsb' 6 26 = 0#26 ∧
    (∃ v : Word, s.readReg .cmd = .word v ∧ v.extractLsb' 0 4 = s.cmdOp ∧ v.extractLsb' 4 28 = 0#28) ∧
    s.readReg .inBase = .word s.inBase ∧ s.readReg .inLen = .word s.inLen ∧ s.readReg .outLen = s.outLen ∧
    s.readReg .frameCount = s.frameCount ∧ s.readReg .idx = .word s.idx ∧ s.readReg .sliceBase = s.sliceBase ∧
    s.readReg .sliceLen = s.sliceLen ∧ s.readReg .width = s.width ∧ s.readReg .height = s.height ∧
    s.readReg .gridW = .word s.gridW ∧ s.readReg .gridH = .word s.gridH ∧ s.readReg .contBase = s.contBase ∧
    s.readReg .contLen = s.contLen ∧ s.readReg .offtLen = .word s.offtLen

/-- 10_state.md R49: register accesses that are not defined are refused, and writes to read-only registers are ignored. -/
def Obligations.UndefinedAndIgnoredRegisterAccesses : Prop :=
  (∀ (s : State) (q : List HostEvent) (off width : Nat) (v : Word), s.replay = none →
    s.hostQueue = .writeReg off width v :: q ∨ s.hostQueue = .readReg off width :: q →
    width ≠ 4 ∨ off % 4 ≠ 0 ∨ 0x3C < off → step s = .refused .badRegisterAccess) ∧
  (∀ (s : State) (q : List HostEvent) (off : Nat) (v : Word), s.replay = none →
    s.hostQueue = .writeReg off 4 v :: q →
    off ∈ [0x04, 0x10, 0x1C, 0x20, 0x24, 0x28, 0x34, 0x38, 0x3C] → step s = .next { s with hostQueue := q })

/-- The read-write registers of 10_state.md R31 other than CMD take any 32-bit value, nothing else changes, and the
value reads back. -/
def Obligations.WritableRegistersReadBack : Prop :=
  ∀ (s : State) (q : List HostEvent) (off : Nat) (v : Word), s.replay = none →
    off ∈ [0x08, 0x0C, 0x14, 0x18, 0x2C, 0x30] →
    s.hostQueue = .writeReg off 4 v :: .readReg off 4 :: q →
    ∃ t, step s = .next t ∧
      step t = .next { s with
        hostQueue := q, busData := v
        inBase := if off = 0x08 then v else s.inBase
        inLen := if off = 0x0C then v else s.inLen
        frameCount := if off = 0x14 then .word v else s.frameCount
        idx := if off = 0x18 then v else s.idx
        gridW := if off = 0x2C then v else s.gridW
        gridH := if off = 0x30 then v else s.gridH }

/-- A host read of a register at its offset of 10_state.md R31 returns the register's value (R49; what that value is:
StatusAndCmdFields). A host read changes nothing in the block but the value it returns, and repeating it returns the
same value (20_memory.md R79). -/
def Obligations.HostReadsAreIdempotent : Prop :=
  [RegName.cmd, .status, .inBase, .inLen, .outLen, .frameCount, .idx, .sliceBase, .sliceLen, .width, .height, .gridW,
    .gridH, .contBase, .contLen, .offtLen].map RegName.offset =
      [0x00, 0x04, 0x08, 0x0C, 0x10, 0x14, 0x18, 0x1C, 0x20, 0x24, 0x28, 0x2C, 0x30, 0x34, 0x38, 0x3C] ∧
  (∀ (s : State) (q : List HostEvent) (r : RegName) (v : Word), s.replay = none →
    s.hostQueue = .readReg r.offset 4 :: q → s.readReg r = .word v →
    step s = .next { s with hostQueue := q, busData := v }) ∧
  (∀ (s t : State) (e : HostEvent) (q : List HostEvent), s.replay = none → s.hostQueue = e :: q →
    (∃ off width, e = .readReg off width) ∨ (∃ m a, e = .readMem m a) → step s = .next t →
    t = { s with hostQueue := q, busData := t.busData } ∧
    ∀ q', step { t with hostQueue := e :: q' } = .next { t with hostQueue := q' })

/-- What the host reads in a memory: the cell's value, a fault at a cell with no value (00_scope.md R23), a fault
outside the memory (the model's choice, log 11). That a host read of FLEN answers is the model's choice too (log 11). -/
def Obligations.HostMemoryReads : Prop :=
  ∀ (s : State) (q : List HostEvent) (m : MemName) (a : Nat), s.replay = none → s.hostQueue = .readMem m a :: q →
    (m.size s.cfg ≤ a → step s = .fault (.noSuchAddress m)) ∧
    (a < m.size s.cfg → s.cell m a = none → step s = .fault (.unwritten m)) ∧
    (∀ v, a < m.size s.cfg → s.cell m a = some v → step s = .next { s with hostQueue := q, busData := v })

/-- 00_scope.md R23 for registers: a read of an UNSPECIFIED register faults, by the host or by the operation that
reads it as an operand. -/
def Obligations.UnspecifiedRegisterReadsFault : Prop :=
  (∀ (s : State) (q : List HostEvent) (r : RegName), s.replay = none →
    s.hostQueue = .readReg r.offset 4 :: q → s.readReg r = .unspecified →
    step s = .fault (.unspecifiedRegister r)) ∧
  (∀ s : State, s.inBase.toNat + s.inLen.toNat ≤ s.cfg.maxIbuf → s.frameCount = .unspecified →
    exec .buildContainer s = .fault (.unspecifiedRegister .frameCount))

/-- Host stores to IBUF and FLEN: the stored cells read back, every other cell and everything else is unchanged
(10_state.md R54, R57, 20_memory.md R79). The model's choices: a store outside the memory faults (log 11; an empty line
that starts above it too, log 19), a line of bytes is one step (log 16), and a store to OBUF or OFFT, which the host
cannot write (10_state.md R55, R56), is refused by name (log 11). -/
def Obligations.HostStores : Prop :=
  (∀ (s : State) (q : List HostEvent) (a : Nat) (bytes : List Byte), s.replay = none →
    s.hostQueue = .writeIbuf a bytes :: q →
    (s.cfg.maxIbuf < a + bytes.length → step s = .fault (.noSuchAddress .ibuf)) ∧
    (a + bytes.length ≤ s.cfg.maxIbuf → ∃ m, step s = .next { s with hostQueue := q, ibuf := m } ∧
      ∀ b, Memory.read m b = if a ≤ b ∧ b < a + bytes.length then bytes[b - a]? else Memory.read s.ibuf b)) ∧
  (∀ (s : State) (q : List HostEvent) (k : Nat) (v : Word), s.replay = none →
    s.hostQueue = .writeFlen k v :: q →
    (s.cfg.maxFrames ≤ k → step s = .fault (.noSuchAddress .flen)) ∧
    (k < s.cfg.maxFrames → ∃ m, step s = .next { s with hostQueue := q, flen := m } ∧
      ∀ b, Memory.read m b = if b = k then some v else Memory.read s.flen b)) ∧
  (∀ (s : State) (q : List HostEvent) (a : Nat) (bytes : List Byte), s.replay = none →
    s.hostQueue = .writeObuf a bytes :: q → step s = .refused (.readOnlyMemory .obuf)) ∧
  (∀ (s : State) (q : List HostEvent) (k : Nat) (v : Word), s.replay = none →
    s.hostQueue = .writeOfft k v :: q → step s = .refused (.readOnlyMemory .offt))

/-- COPY OBUF[a..b) -> IBUF[d]: the b - a bytes arrive, every other byte of IBUF and everything else is unchanged
(30_encoding.md R121, 70_reset_and_hazards.md R309); a byte of OBUF with no value faults (10_state.md R55, 00_scope.md
R23); an empty range (b ≤ a) changes nothing (00_scope.md R18). The model's choices: the copy is one step, which checks
OBUF, then the bytes, then IBUF (log 16), a range outside OBUF or IBUF faults (log 11), and so does an empty one that
starts above OBUF or IBUF (log 19). -/
def Obligations.CopyMovesOutputToInput : Prop :=
  ∀ (s : State) (q : List HostEvent) (a b d : Nat), s.replay = none → s.hostQueue = .copy a b d :: q →
    (s.cfg.maxObuf < a + (b - a) → step s = .fault (.noSuchAddress .obuf)) ∧
    (a + (b - a) ≤ s.cfg.maxObuf → (∃ k, k < b - a ∧ Memory.read s.obuf (a + k) = none) →
      step s = .fault (.unwritten .obuf)) ∧
    (∀ bytes : List Byte, a + (b - a) ≤ s.cfg.maxObuf → bytes.length = b - a →
      (∀ k, k < b - a → Memory.read s.obuf (a + k) = bytes[k]?) →
      (s.cfg.maxIbuf < d + (b - a) → step s = .fault (.noSuchAddress .ibuf)) ∧
      (d + (b - a) ≤ s.cfg.maxIbuf → ∃ m, step s = .next { s with hostQueue := q, ibuf := m } ∧
        ∀ c, Memory.read m c = if d ≤ c ∧ c < d + (b - a) then bytes[c - d]? else Memory.read s.ibuf c)) ∧
    (b ≤ a → a ≤ s.cfg.maxObuf → d ≤ s.cfg.maxIbuf → step s = .next { s with hostQueue := q })

/-- Only the host writes IBUF, and only by a store, a copy or the platform's reset: the block never does
(10_state.md R54, 20_memory.md R86, 70_reset_and_hazards.md R308). -/
def Obligations.TheBlockNeverWritesIbuf : Prop :=
  ∀ s t : State, step s = .next t → t.ibuf ≠ s.ibuf →
    s.replay = none ∧ ∃ e q, s.hostQueue = e :: q ∧
      ((∃ a bytes, e = .writeIbuf a bytes) ∨ (∃ a b d, e = .copy a b d) ∨ e = .reset)

/-- 70_reset_and_hazards.md R303: reset keeps nothing of the block's registers and memories; the parameters stay and the
host's later accesses still come (log 13). -/
def Obligations.PlatformResetKeepsNothing : Prop :=
  ∀ (s : State) (q : List HostEvent), s.replay = none → s.hostQueue = .reset :: q →
    step s = .next (State.resetWith s.cfg q)
end

