-- ==== Sys2Proof/Laws/Memory.lean ====
section
/-! SUPPORT. The laws of memories: read after write, and that every operation keeps the canonical form. -/

namespace Sys2Proof.Machine

variable {α : Type}

@[simp] theorem read_nil (a : Nat) : Memory.read ([] : Memory α) a = none := rfl

theorem read_write_self (m : Memory α) (a : Nat) (v : α) : Memory.read (Memory.write m a v) a = some v := by
  induction m with
  | nil => simp [Memory.write, Memory.read]
  | cons p m ih =>
    obtain ⟨k, w⟩ := p
    simp only [Memory.write]
    split
    · simp [Memory.read]
    · split
      · simp [Memory.read]
      · rw [Memory.read, if_neg (by omega)]; exact ih

theorem read_write_ne (m : Memory α) {a b : Nat} (v : α) (h : b ≠ a) :
    Memory.read (Memory.write m a v) b = Memory.read m b := by
  induction m with
  | nil => simp [Memory.write, Memory.read, Ne.symm h]
  | cons p m ih =>
    obtain ⟨k, w⟩ := p
    simp only [Memory.write]
    split
    · simp [Memory.read, Ne.symm h]
    · split
      · rename_i h1 h2; subst h2; simp [Memory.read, Ne.symm h]
      · simp only [Memory.read, ih]

/-- What a byte of a memory reads as after `MemWrite`: the stored one inside the range, the old one outside. -/
theorem read_writeAll (m : Memory α) (a : Nat) (vs : List α) (b : Nat) :
    Memory.read (Memory.writeAll m a vs) b =
      if a ≤ b ∧ b < a + vs.length then vs[b - a]? else Memory.read m b := by
  induction vs generalizing m a with
  | nil => simp [Memory.writeAll]
  | cons v vs ih =>
    rw [Memory.writeAll, ih, List.length_cons]
    by_cases hab : b = a
    · subst hab
      rw [if_neg (by omega), if_pos (by omega), read_write_self]; simp
    · rw [read_write_ne _ _ hab]
      by_cases h : a + 1 ≤ b ∧ b < a + 1 + vs.length
      · rw [if_pos h, if_pos (by omega), show b - a = (b - (a + 1)) + 1 by omega, List.getElem?_cons_succ]
      · rw [if_neg h, if_neg (by omega)]

theorem read_ofList (a : Nat) (vs : List α) (b : Nat) :
    Memory.read (Memory.ofList a vs) b = if a ≤ b then vs[b - a]? else none := by
  induction vs generalizing a with
  | nil => simp [Memory.ofList]
  | cons v vs ih =>
    rw [Memory.ofList, Memory.read, ih]
    by_cases hab : a = b
    · subst hab; simp
    · rw [if_neg hab]
      by_cases h : a + 1 ≤ b
      · rw [if_pos h, if_pos (by omega), show b - a = (b - (a + 1)) + 1 by omega, List.getElem?_cons_succ]
      · rw [if_neg h, if_neg (by omega)]

theorem keys_ofList (a : Nat) (vs : List α) :
    (Memory.ofList a vs).map Prod.fst = List.range' a vs.length := by
  induction vs generalizing a with
  | nil => rfl
  | cons v vs ih => simp [Memory.ofList, ih, List.range'_succ]

theorem keys_ofList_zero (vs : List α) : (Memory.ofList 0 vs).map Prod.fst = List.range vs.length := by
  rw [keys_ofList, List.range_eq_range']

@[simp] theorem wf_nil (size : Nat) : Memory.wf size ([] : Memory α) = true := rfl

theorem wfFrom_weaken {size lo lo' : Nat} {m : Memory α} (h : Memory.wfFrom size lo m = true) (hl : lo' ≤ lo) :
    Memory.wfFrom size lo' m = true := by
  cases m with
  | nil => rfl
  | cons p m =>
    simp only [Memory.wfFrom, Bool.and_eq_true, decide_eq_true_eq] at h ⊢
    exact ⟨⟨by omega, h.1.2⟩, h.2⟩

theorem wfFrom_write {size lo a : Nat} {m : Memory α} (v : α) (h : Memory.wfFrom size lo m = true)
    (hlo : lo ≤ a) (ha : a < size) : Memory.wfFrom size lo (Memory.write m a v) = true := by
  induction m generalizing lo with
  | nil => simp [Memory.write, Memory.wfFrom, hlo, ha]
  | cons p m ih =>
    obtain ⟨k, w⟩ := p
    simp only [Memory.wfFrom, Bool.and_eq_true, decide_eq_true_eq] at h
    simp only [Memory.write]
    split
    · simp only [Memory.wfFrom, Bool.and_eq_true, decide_eq_true_eq]
      exact ⟨⟨hlo, ha⟩, ⟨by omega, h.1.2⟩, h.2⟩
    · split
      · rename_i h1 h2; subst h2
        simp only [Memory.wfFrom, Bool.and_eq_true, decide_eq_true_eq]; exact h
      · simp only [Memory.wfFrom, Bool.and_eq_true, decide_eq_true_eq]
        exact ⟨h.1, ih h.2 (by omega)⟩

/-- A store keeps the canonical form. -/
theorem wf_write {size a : Nat} {m : Memory α} (v : α) (h : Memory.wf size m = true) (ha : a < size) :
    Memory.wf size (Memory.write m a v) = true := wfFrom_write v h (Nat.zero_le _) ha

/-- `MemWrite` keeps the canonical form. -/
theorem wf_writeAll {size a : Nat} {m : Memory α} (vs : List α) (h : Memory.wf size m = true)
    (ha : a + vs.length ≤ size) : Memory.wf size (Memory.writeAll m a vs) = true := by
  induction vs generalizing m a with
  | nil => exact h
  | cons v vs ih =>
    rw [List.length_cons] at ha
    exact ih (wf_write v h (by omega)) (by omega)

theorem wfFrom_ofList {size a : Nat} (vs : List α) (ha : a + vs.length ≤ size) :
    Memory.wfFrom size a (Memory.ofList a vs) = true := by
  induction vs generalizing a with
  | nil => rfl
  | cons v vs ih =>
    rw [List.length_cons] at ha
    simp only [Memory.ofList, Memory.wfFrom, Bool.and_eq_true, decide_eq_true_eq]
    exact ⟨⟨le_refl a, by omega⟩, ih (by omega)⟩

/-- An output or a table as a whole memory has the canonical form. -/
theorem wf_ofList {size : Nat} (vs : List α) (h : vs.length ≤ size) :
    Memory.wf size (Memory.ofList 0 vs) = true := wfFrom_ofList vs (by omega)

end Sys2Proof.Machine
end

