-- ==== Sys2Proof/Laws/State.lean ====
section
/-! SUPPORT. The fields of State under every named update: one lemma per field per update, true by unfolding, so
that no later proof unfolds a record update. -/

namespace Sys2Proof.Machine

/-! ### A CMD write (60_exceptions.md R292) -/

@[simp] theorem startOp_cfg (s : State) (v : Word) : (s.startOp v).cfg = s.cfg := rfl
@[simp] theorem startOp_cmdOp (s : State) (v : Word) : (s.startOp v).cmdOp = v.extractLsb' 0 4 := rfl
@[simp] theorem startOp_err (s : State) (v : Word) : (s.startOp v).err = s.err := rfl
@[simp] theorem startOp_done (s : State) (v : Word) : (s.startOp v).done = false := rfl
@[simp] theorem startOp_hdr (s : State) (v : Word) : (s.startOp v).hdr = s.hdr := rfl
@[simp] theorem startOp_inBase (s : State) (v : Word) : (s.startOp v).inBase = s.inBase := rfl
@[simp] theorem startOp_inLen (s : State) (v : Word) : (s.startOp v).inLen = s.inLen := rfl
@[simp] theorem startOp_outLen (s : State) (v : Word) : (s.startOp v).outLen = s.outLen := rfl
@[simp] theorem startOp_frameCount (s : State) (v : Word) : (s.startOp v).frameCount = s.frameCount := rfl
@[simp] theorem startOp_idx (s : State) (v : Word) : (s.startOp v).idx = s.idx := rfl
@[simp] theorem startOp_sliceBase (s : State) (v : Word) : (s.startOp v).sliceBase = s.sliceBase := rfl
@[simp] theorem startOp_sliceLen (s : State) (v : Word) : (s.startOp v).sliceLen = s.sliceLen := rfl
@[simp] theorem startOp_width (s : State) (v : Word) : (s.startOp v).width = s.width := rfl
@[simp] theorem startOp_height (s : State) (v : Word) : (s.startOp v).height = s.height := rfl
@[simp] theorem startOp_gridW (s : State) (v : Word) : (s.startOp v).gridW = s.gridW := rfl
@[simp] theorem startOp_gridH (s : State) (v : Word) : (s.startOp v).gridH = s.gridH := rfl
@[simp] theorem startOp_contBase (s : State) (v : Word) : (s.startOp v).contBase = s.contBase := rfl
@[simp] theorem startOp_contLen (s : State) (v : Word) : (s.startOp v).contLen = s.contLen := rfl
@[simp] theorem startOp_offtLen (s : State) (v : Word) : (s.startOp v).offtLen = s.offtLen := rfl
@[simp] theorem startOp_ibuf (s : State) (v : Word) : (s.startOp v).ibuf = s.ibuf := rfl
@[simp] theorem startOp_obuf (s : State) (v : Word) : (s.startOp v).obuf = s.obuf := rfl
@[simp] theorem startOp_offt (s : State) (v : Word) : (s.startOp v).offt = s.offt := rfl
@[simp] theorem startOp_flen (s : State) (v : Word) : (s.startOp v).flen = s.flen := rfl
@[simp] theorem startOp_replay (s : State) (v : Word) : (s.startOp v).replay = s.replay := rfl
@[simp] theorem startOp_hostQueue (s : State) (v : Word) : (s.startOp v).hostQueue = s.hostQueue := rfl
@[simp] theorem startOp_busData (s : State) (v : Word) : (s.startOp v).busData = s.busData := rfl

/-! ### Completion without error (60_exceptions.md R292) -/

@[simp] theorem succeed_cfg (s : State) : (succeed s).cfg = s.cfg := rfl
@[simp] theorem succeed_cmdOp (s : State) : (succeed s).cmdOp = s.cmdOp := rfl
@[simp] theorem succeed_err (s : State) : (succeed s).err = none := rfl
@[simp] theorem succeed_done (s : State) : (succeed s).done = true := rfl
@[simp] theorem succeed_hdr (s : State) : (succeed s).hdr = s.hdr := rfl
@[simp] theorem succeed_inBase (s : State) : (succeed s).inBase = s.inBase := rfl
@[simp] theorem succeed_inLen (s : State) : (succeed s).inLen = s.inLen := rfl
@[simp] theorem succeed_outLen (s : State) : (succeed s).outLen = s.outLen := rfl
@[simp] theorem succeed_frameCount (s : State) : (succeed s).frameCount = s.frameCount := rfl
@[simp] theorem succeed_idx (s : State) : (succeed s).idx = s.idx := rfl
@[simp] theorem succeed_sliceBase (s : State) : (succeed s).sliceBase = s.sliceBase := rfl
@[simp] theorem succeed_sliceLen (s : State) : (succeed s).sliceLen = s.sliceLen := rfl
@[simp] theorem succeed_width (s : State) : (succeed s).width = s.width := rfl
@[simp] theorem succeed_height (s : State) : (succeed s).height = s.height := rfl
@[simp] theorem succeed_gridW (s : State) : (succeed s).gridW = s.gridW := rfl
@[simp] theorem succeed_gridH (s : State) : (succeed s).gridH = s.gridH := rfl
@[simp] theorem succeed_contBase (s : State) : (succeed s).contBase = s.contBase := rfl
@[simp] theorem succeed_contLen (s : State) : (succeed s).contLen = s.contLen := rfl
@[simp] theorem succeed_offtLen (s : State) : (succeed s).offtLen = s.offtLen := rfl
@[simp] theorem succeed_ibuf (s : State) : (succeed s).ibuf = s.ibuf := rfl
@[simp] theorem succeed_obuf (s : State) : (succeed s).obuf = s.obuf := rfl
@[simp] theorem succeed_offt (s : State) : (succeed s).offt = s.offt := rfl
@[simp] theorem succeed_flen (s : State) : (succeed s).flen = s.flen := rfl
@[simp] theorem succeed_replay (s : State) : (succeed s).replay = none := rfl
@[simp] theorem succeed_hostQueue (s : State) : (succeed s).hostQueue = s.hostQueue := rfl
@[simp] theorem succeed_busData (s : State) : (succeed s).busData = s.busData := rfl

/-! ### Error entry (60_exceptions.md R281) -/

@[simp] theorem errorEntry_cfg (i : Instr) (e : Err) (s : State) : (errorEntry i e s).cfg = s.cfg := rfl
@[simp] theorem errorEntry_cmdOp (i : Instr) (e : Err) (s : State) : (errorEntry i e s).cmdOp = s.cmdOp := rfl
@[simp] theorem errorEntry_err (i : Instr) (e : Err) (s : State) : (errorEntry i e s).err = some e := rfl
@[simp] theorem errorEntry_done (i : Instr) (e : Err) (s : State) : (errorEntry i e s).done = true := rfl
@[simp] theorem errorEntry_hdr (i : Instr) (e : Err) (s : State) : (errorEntry i e s).hdr = s.hdr := rfl
@[simp] theorem errorEntry_inBase (i : Instr) (e : Err) (s : State) : (errorEntry i e s).inBase = s.inBase := rfl
@[simp] theorem errorEntry_inLen (i : Instr) (e : Err) (s : State) : (errorEntry i e s).inLen = s.inLen := rfl
@[simp] theorem errorEntry_outLen (i : Instr) (e : Err) (s : State) : (errorEntry i e s).outLen = s.outLen.lost .outLen (resultsOf i) := rfl
@[simp] theorem errorEntry_frameCount (i : Instr) (e : Err) (s : State) : (errorEntry i e s).frameCount = s.frameCount.lost .frameCount (resultsOf i) := rfl
@[simp] theorem errorEntry_idx (i : Instr) (e : Err) (s : State) : (errorEntry i e s).idx = s.idx := rfl
@[simp] theorem errorEntry_sliceBase (i : Instr) (e : Err) (s : State) : (errorEntry i e s).sliceBase = s.sliceBase.lost .sliceBase (resultsOf i) := rfl
@[simp] theorem errorEntry_sliceLen (i : Instr) (e : Err) (s : State) : (errorEntry i e s).sliceLen = s.sliceLen.lost .sliceLen (resultsOf i) := rfl
@[simp] theorem errorEntry_width (i : Instr) (e : Err) (s : State) : (errorEntry i e s).width = s.width.lost .width (resultsOf i) := rfl
@[simp] theorem errorEntry_height (i : Instr) (e : Err) (s : State) : (errorEntry i e s).height = s.height.lost .height (resultsOf i) := rfl
@[simp] theorem errorEntry_gridW (i : Instr) (e : Err) (s : State) : (errorEntry i e s).gridW = s.gridW := rfl
@[simp] theorem errorEntry_gridH (i : Instr) (e : Err) (s : State) : (errorEntry i e s).gridH = s.gridH := rfl
@[simp] theorem errorEntry_contBase (i : Instr) (e : Err) (s : State) : (errorEntry i e s).contBase = s.contBase.lost .contBase (resultsOf i) := rfl
@[simp] theorem errorEntry_contLen (i : Instr) (e : Err) (s : State) : (errorEntry i e s).contLen = s.contLen.lost .contLen (resultsOf i) := rfl
@[simp] theorem errorEntry_offtLen (i : Instr) (e : Err) (s : State) : (errorEntry i e s).offtLen = if i = .parseOffsets then 0#32 else s.offtLen := rfl
@[simp] theorem errorEntry_ibuf (i : Instr) (e : Err) (s : State) : (errorEntry i e s).ibuf = s.ibuf := rfl
@[simp] theorem errorEntry_obuf (i : Instr) (e : Err) (s : State) : (errorEntry i e s).obuf = Memory.lost s.obuf .obuf (resultsOf i) := rfl
@[simp] theorem errorEntry_offt (i : Instr) (e : Err) (s : State) : (errorEntry i e s).offt = Memory.lost s.offt .offt (resultsOf i) := rfl
@[simp] theorem errorEntry_flen (i : Instr) (e : Err) (s : State) : (errorEntry i e s).flen = s.flen := rfl
@[simp] theorem errorEntry_replay (i : Instr) (e : Err) (s : State) : (errorEntry i e s).replay = none := rfl
@[simp] theorem errorEntry_hostQueue (i : Instr) (e : Err) (s : State) : (errorEntry i e s).hostQueue = s.hostQueue := rfl
@[simp] theorem errorEntry_busData (i : Instr) (e : Err) (s : State) : (errorEntry i e s).busData = s.busData := rfl

@[simp] theorem lost_of_mem {v : RegValue} {r : Result} {rs : List Result} (h : r ∈ rs) : v.lost r rs = .unspecified := if_pos h
@[simp] theorem lost_of_not_mem {v : RegValue} {r : Result} {rs : List Result} (h : r ∉ rs) : v.lost r rs = v := if_neg h
@[simp] theorem memory_lost_of_mem {α : Type} {m : Memory α} {r : Result} {rs : List Result} (h : r ∈ rs) :
    Memory.lost m r rs = [] := if_pos h
@[simp] theorem memory_lost_of_not_mem {α : Type} {m : Memory α} {r : Result} {rs : List Result} (h : r ∉ rs) :
    Memory.lost m r rs = m := if_neg h

/-! ### Error entry of each operation, whole (60_exceptions.md R281, 30_encoding.md R117) -/

theorem errorEntry_parseOffsets (e : Err) (s : State) : errorEntry .parseOffsets e s =
    { s with frameCount := .unspecified, offt := [], contBase := .unspecified, contLen := .unspecified, offtLen := 0#32, err := some e, done := true, replay := none } := rfl
theorem errorEntry_frameBytes (e : Err) (s : State) : errorEntry .frameBytes e s =
    { s with sliceBase := .unspecified, sliceLen := .unspecified, err := some e, done := true, replay := none } := rfl
theorem errorEntry_buildContainer (e : Err) (s : State) : errorEntry .buildContainer e s =
    { s with obuf := [], outLen := .unspecified, err := some e, done := true, replay := none } := rfl
theorem errorEntry_frameWidth (e : Err) (s : State) : errorEntry .frameWidth e s =
    { s with width := .unspecified, err := some e, done := true, replay := none } := rfl
theorem errorEntry_decompress (e : Err) (s : State) : errorEntry .decompress e s =
    { s with obuf := [], outLen := .unspecified, err := some e, done := true, replay := none } := rfl
theorem errorEntry_frameDims (e : Err) (s : State) : errorEntry .frameDims e s =
    { s with width := .unspecified, height := .unspecified, obuf := [], outLen := .unspecified, err := some e, done := true, replay := none } := rfl
theorem errorEntry_compressBlock (e : Err) (s : State) : errorEntry .compressBlock e s =
    { s with obuf := [], outLen := .unspecified, err := some e, done := true, replay := none } := rfl
theorem errorEntry_compressRow (e : Err) (s : State) : errorEntry .compressRow e s =
    { s with obuf := [], outLen := .unspecified, err := some e, done := true, replay := none } := rfl
theorem errorEntry_encodeFrame (e : Err) (s : State) : errorEntry .encodeFrame e s =
    { s with obuf := [], outLen := .unspecified, err := some e, done := true, replay := none } := rfl
theorem errorEntry_illegalOp (op : BitVec 4) (e : Err) (s : State) : errorEntry (.illegalOp op) e s =
    { s with err := some e, done := true, replay := none } := rfl

/-! ### A host register write (10_state.md R31, R49): the read-write registers take the value -/

@[simp] theorem writeReg_inBase (s : State) (v : Word) : s.writeReg .inBase v = { s with inBase := v } := rfl
@[simp] theorem writeReg_inLen (s : State) (v : Word) : s.writeReg .inLen v = { s with inLen := v } := rfl
@[simp] theorem writeReg_frameCount (s : State) (v : Word) : s.writeReg .frameCount v = { s with frameCount := .word v } := rfl
@[simp] theorem writeReg_idx (s : State) (v : Word) : s.writeReg .idx v = { s with idx := v } := rfl
@[simp] theorem writeReg_gridW (s : State) (v : Word) : s.writeReg .gridW v = { s with gridW := v } := rfl
@[simp] theorem writeReg_gridH (s : State) (v : Word) : s.writeReg .gridH v = { s with gridH := v } := rfl
@[simp] theorem writeReg_cmd (s : State) (v : Word) : s.writeReg .cmd v = s := rfl
@[simp] theorem writeReg_status (s : State) (v : Word) : s.writeReg .status v = s := rfl
@[simp] theorem writeReg_outLen (s : State) (v : Word) : s.writeReg .outLen v = s := rfl
@[simp] theorem writeReg_sliceBase (s : State) (v : Word) : s.writeReg .sliceBase v = s := rfl
@[simp] theorem writeReg_sliceLen (s : State) (v : Word) : s.writeReg .sliceLen v = s := rfl
@[simp] theorem writeReg_width (s : State) (v : Word) : s.writeReg .width v = s := rfl
@[simp] theorem writeReg_height (s : State) (v : Word) : s.writeReg .height v = s := rfl
@[simp] theorem writeReg_contBase (s : State) (v : Word) : s.writeReg .contBase v = s := rfl
@[simp] theorem writeReg_contLen (s : State) (v : Word) : s.writeReg .contLen v = s := rfl
@[simp] theorem writeReg_offtLen (s : State) (v : Word) : s.writeReg .offtLen v = s := rfl

@[simp] theorem writeReg_keeps_cfg (s : State) (r : RegName) (v : Word) : (s.writeReg r v).cfg = s.cfg := by cases r <;> rfl
@[simp] theorem writeReg_keeps_cmdOp (s : State) (r : RegName) (v : Word) : (s.writeReg r v).cmdOp = s.cmdOp := by cases r <;> rfl
@[simp] theorem writeReg_keeps_err (s : State) (r : RegName) (v : Word) : (s.writeReg r v).err = s.err := by cases r <;> rfl
@[simp] theorem writeReg_keeps_done (s : State) (r : RegName) (v : Word) : (s.writeReg r v).done = s.done := by cases r <;> rfl
@[simp] theorem writeReg_keeps_hdr (s : State) (r : RegName) (v : Word) : (s.writeReg r v).hdr = s.hdr := by cases r <;> rfl
@[simp] theorem writeReg_keeps_outLen (s : State) (r : RegName) (v : Word) : (s.writeReg r v).outLen = s.outLen := by cases r <;> rfl
@[simp] theorem writeReg_keeps_sliceBase (s : State) (r : RegName) (v : Word) : (s.writeReg r v).sliceBase = s.sliceBase := by cases r <;> rfl
@[simp] theorem writeReg_keeps_sliceLen (s : State) (r : RegName) (v : Word) : (s.writeReg r v).sliceLen = s.sliceLen := by cases r <;> rfl
@[simp] theorem writeReg_keeps_width (s : State) (r : RegName) (v : Word) : (s.writeReg r v).width = s.width := by cases r <;> rfl
@[simp] theorem writeReg_keeps_height (s : State) (r : RegName) (v : Word) : (s.writeReg r v).height = s.height := by cases r <;> rfl
@[simp] theorem writeReg_keeps_contBase (s : State) (r : RegName) (v : Word) : (s.writeReg r v).contBase = s.contBase := by cases r <;> rfl
@[simp] theorem writeReg_keeps_contLen (s : State) (r : RegName) (v : Word) : (s.writeReg r v).contLen = s.contLen := by cases r <;> rfl
@[simp] theorem writeReg_keeps_offtLen (s : State) (r : RegName) (v : Word) : (s.writeReg r v).offtLen = s.offtLen := by cases r <;> rfl
@[simp] theorem writeReg_keeps_ibuf (s : State) (r : RegName) (v : Word) : (s.writeReg r v).ibuf = s.ibuf := by cases r <;> rfl
@[simp] theorem writeReg_keeps_obuf (s : State) (r : RegName) (v : Word) : (s.writeReg r v).obuf = s.obuf := by cases r <;> rfl
@[simp] theorem writeReg_keeps_offt (s : State) (r : RegName) (v : Word) : (s.writeReg r v).offt = s.offt := by cases r <;> rfl
@[simp] theorem writeReg_keeps_flen (s : State) (r : RegName) (v : Word) : (s.writeReg r v).flen = s.flen := by cases r <;> rfl
@[simp] theorem writeReg_keeps_replay (s : State) (r : RegName) (v : Word) : (s.writeReg r v).replay = s.replay := by cases r <;> rfl
@[simp] theorem writeReg_keeps_hostQueue (s : State) (r : RegName) (v : Word) : (s.writeReg r v).hostQueue = s.hostQueue := by cases r <;> rfl
@[simp] theorem writeReg_keeps_busData (s : State) (r : RegName) (v : Word) : (s.writeReg r v).busData = s.busData := by cases r <;> rfl

/-! ### The reset state (10_state.md R59) -/

@[simp] theorem resetWith_cfg (c : Config) (q : List HostEvent) : (State.resetWith c q).cfg = c := rfl
@[simp] theorem resetWith_cmdOp (c : Config) (q : List HostEvent) : (State.resetWith c q).cmdOp = 0#4 := rfl
@[simp] theorem resetWith_err (c : Config) (q : List HostEvent) : (State.resetWith c q).err = none := rfl
@[simp] theorem resetWith_done (c : Config) (q : List HostEvent) : (State.resetWith c q).done = false := rfl
@[simp] theorem resetWith_hdr (c : Config) (q : List HostEvent) : (State.resetWith c q).hdr = false := rfl
@[simp] theorem resetWith_inBase (c : Config) (q : List HostEvent) : (State.resetWith c q).inBase = 0#32 := rfl
@[simp] theorem resetWith_inLen (c : Config) (q : List HostEvent) : (State.resetWith c q).inLen = 0#32 := rfl
@[simp] theorem resetWith_outLen (c : Config) (q : List HostEvent) : (State.resetWith c q).outLen = .word 0#32 := rfl
@[simp] theorem resetWith_frameCount (c : Config) (q : List HostEvent) : (State.resetWith c q).frameCount = .word 0#32 := rfl
@[simp] theorem resetWith_idx (c : Config) (q : List HostEvent) : (State.resetWith c q).idx = 0#32 := rfl
@[simp] theorem resetWith_sliceBase (c : Config) (q : List HostEvent) : (State.resetWith c q).sliceBase = .word 0#32 := rfl
@[simp] theorem resetWith_sliceLen (c : Config) (q : List HostEvent) : (State.resetWith c q).sliceLen = .word 0#32 := rfl
@[simp] theorem resetWith_width (c : Config) (q : List HostEvent) : (State.resetWith c q).width = .word 0#32 := rfl
@[simp] theorem resetWith_height (c : Config) (q : List HostEvent) : (State.resetWith c q).height = .word 0#32 := rfl
@[simp] theorem resetWith_gridW (c : Config) (q : List HostEvent) : (State.resetWith c q).gridW = 0#32 := rfl
@[simp] theorem resetWith_gridH (c : Config) (q : List HostEvent) : (State.resetWith c q).gridH = 0#32 := rfl
@[simp] theorem resetWith_contBase (c : Config) (q : List HostEvent) : (State.resetWith c q).contBase = .word 0#32 := rfl
@[simp] theorem resetWith_contLen (c : Config) (q : List HostEvent) : (State.resetWith c q).contLen = .word 0#32 := rfl
@[simp] theorem resetWith_offtLen (c : Config) (q : List HostEvent) : (State.resetWith c q).offtLen = 0#32 := rfl
@[simp] theorem resetWith_ibuf (c : Config) (q : List HostEvent) : (State.resetWith c q).ibuf = [] := rfl
@[simp] theorem resetWith_obuf (c : Config) (q : List HostEvent) : (State.resetWith c q).obuf = [] := rfl
@[simp] theorem resetWith_offt (c : Config) (q : List HostEvent) : (State.resetWith c q).offt = [] := rfl
@[simp] theorem resetWith_flen (c : Config) (q : List HostEvent) : (State.resetWith c q).flen = [] := rfl
@[simp] theorem resetWith_replay (c : Config) (q : List HostEvent) : (State.resetWith c q).replay = none := rfl
@[simp] theorem resetWith_hostQueue (c : Config) (q : List HostEvent) : (State.resetWith c q).hostQueue = q := rfl
@[simp] theorem resetWith_busData (c : Config) (q : List HostEvent) : (State.resetWith c q).busData = 0#32 := rfl

/-! ### The window depends on IN_BASE, IN_LEN, IBUF and MAX_IBUF only (10_state.md R33) -/

@[simp] theorem startOp_window (s : State) (v : Word) : (s.startOp v).window = s.window := rfl
@[simp] theorem startOp_windowOk (s : State) (v : Word) : (s.startOp v).windowOk = s.windowOk := rfl
@[simp] theorem succeed_window (s : State) : (succeed s).window = s.window := rfl
@[simp] theorem succeed_windowOk (s : State) : (succeed s).windowOk = s.windowOk := rfl
@[simp] theorem errorEntry_window (s : State) (i : Instr) (e : Err) : (errorEntry i e s).window = s.window := rfl
@[simp] theorem errorEntry_windowOk (s : State) (i : Instr) (e : Err) : (errorEntry i e s).windowOk = s.windowOk := rfl

/-! ### A running replay under one command (41_decoder.md R190, R191) -/

@[simp] theorem start_task (t : Task) (pc : Nat) : (Replay.start t pc).task = t := rfl
@[simp] theorem start_pc (t : Task) (pc : Nat) : (Replay.start t pc).pc = pc := rfl
@[simp] theorem start_acc (t : Task) (pc : Nat) : (Replay.start t pc).acc = 0 := rfl
@[simp] theorem start_ended (t : Task) (pc : Nat) : (Replay.start t pc).ended = false := rfl
@[simp] theorem start_out (t : Task) (pc : Nat) : (Replay.start t pc).out = [] := rfl

@[simp] theorem advance_pc (r : Replay) (c : CmdResult) : (r.advance c).pc = c.next := by
  unfold Replay.advance; split <;> rfl
@[simp] theorem advance_task (r : Replay) (c : CmdResult) : (r.advance c).task = r.task := by
  unfold Replay.advance; split <;> rfl
theorem advance_counts (r : Replay) (c : CmdResult) (h : r.task.counts = true) :
    r.advance c = { r with pc := c.next, acc := r.acc + c.n, ended := c.term } := if_pos h
theorem advance_collects (r : Replay) (c : CmdResult) (h : r.task.counts = false) :
    r.advance c = { r with pc := c.next, out := r.out ++ c.pixels } := if_neg (by simp [h])

end Sys2Proof.Machine
end

