-- ==== Sys2Proof/Laws/Ops.lean ====
section
/-! SUPPORT. What each shared operation can do, said once: the end of an operation, its stores, its operands, and
one command of a replay. Later proofs cite these and unfold nothing. -/

namespace Sys2Proof.Machine

/-! ### The end of an operation -/

@[simp] theorem conclude_ok (i : Instr) (s t : State) : conclude i s (.ok t) = .next (succeed t) := rfl
@[simp] theorem conclude_raise (i : Instr) (s : State) (e : Err) :
    conclude i s (raise e) = .next (errorEntry i e s) := rfl
@[simp] theorem conclude_error_raise (i : Instr) (s : State) (e : Err) :
    conclude i s (.error (.raise e)) = .next (errorEntry i e s) := rfl
@[simp] theorem conclude_error_fault (i : Instr) (s : State) (f : Fault) :
    conclude i s (.error (.fault f)) = .fault f := rfl

/-- An operation that ends has completed without error or entered an error. -/
theorem conclude_next {i : Instr} {s t : State} {r : Except Stop State} (h : conclude i s r = .next t) :
    (∃ t', r = .ok t' ∧ t = succeed t') ∨ (∃ e, r = .error (.raise e) ∧ t = errorEntry i e s) := by
  match r with
  | .ok t' => exact .inl ⟨t', rfl, by injection h with h; exact h.symm⟩
  | .error (.raise e) => exact .inr ⟨e, rfl, by injection h with h; exact h.symm⟩
  | .error (.fault f) => cases h

/-- A window-reading operation that ends has failed the window check or run its own pseudocode. -/
theorem windowOp_next {i : Instr} {s t : State} {k : Window → Except Stop State} (h : windowOp i s k = .next t) :
    (s.windowOk = false ∧ t = errorEntry i .illegalRequest s) ∨
    (s.windowOk = true ∧ ∃ t', k s.window = .ok t' ∧ t = succeed t') ∨
    (s.windowOk = true ∧ ∃ e, k s.window = .error (.raise e) ∧ t = errorEntry i e s) := by
  unfold windowOp at h
  split at h
  · rename_i hw
    rcases conclude_next h with ⟨t', h1, h2⟩ | ⟨e, h1, h2⟩
    · exact .inr (.inl ⟨hw, t', h1, h2⟩)
    · exact .inr (.inr ⟨hw, e, h1, h2⟩)
  · rename_i hw
    injection h with h
    exact .inl ⟨by simpa using hw, h.symm⟩

theorem hdrPresent_not_raise {rule : HdrRule} {F : Window} {e : Err} :
    hdrPresent rule F ≠ .error (.raise e) := by
  unfold hdrPresent
  split
  · simp
  · unfold readByte
    split <;> simp [Except.map, stopFault]

/-- A decoder operation that ends has failed the window check, or has written STATUS.HDR and run its pseudocode. -/
theorem decoderOp_next {i : Instr} {s t : State} {k : State → Window → Except Stop State}
    (h : decoderOp i s k = .next t) :
    (s.windowOk = false ∧ t = errorEntry i .illegalRequest s) ∨
    (s.windowOk = true ∧ ∃ hd, hdrPresent s.cfg.hdrRule s.window = .ok hd ∧
      ((∃ t', k { s with hdr := hd } s.window = .ok t' ∧ t = succeed t') ∨
        (∃ e, k { s with hdr := hd } s.window = .error (.raise e) ∧ t = errorEntry i e { s with hdr := hd }))) := by
  unfold decoderOp at h
  split at h
  · rename_i hw
    split at h
    · rename_i e he
      match e with
      | .raise e => exact absurd he hdrPresent_not_raise
      | .fault f => cases h
    · rename_i hd hh
      exact .inr ⟨hw, hd, hh, conclude_next h⟩
  · rename_i hw
    injection h with h
    exact .inl ⟨by simpa using hw, h.symm⟩

/-! ### Stores -/

theorem storeOutput_fits {s : State} {p : List Byte} (h : p.length ≤ s.cfg.maxObuf) :
    storeOutput s p = .ok { s with obuf := Memory.ofList 0 p, outLen := .word (BitVec.ofNat 32 p.length) } :=
  if_neg (by omega)

theorem storeOutput_over {s : State} {p : List Byte} (h : s.cfg.maxObuf < p.length) :
    storeOutput s p = raise .capacityExceeded := if_pos h

theorem storeOutput_ok {s t : State} {p : List Byte} (h : storeOutput s p = .ok t) :
    p.length ≤ s.cfg.maxObuf ∧
      t = { s with obuf := Memory.ofList 0 p, outLen := .word (BitVec.ofNat 32 p.length) } := by
  unfold storeOutput at h
  split at h
  · cases h
  · injection h with h; exact ⟨by omega, h.symm⟩

theorem storeWidth_fits {s : State} {w : Nat} (h : w ≤ u32Max) :
    storeWidth s w = .ok { s with width := .word (BitVec.ofNat 32 w) } := if_neg (by omega)

theorem storeWidth_ok {s t : State} {w : Nat} (h : storeWidth s w = .ok t) :
    w ≤ u32Max ∧ t = { s with width := .word (BitVec.ofNat 32 w) } := by
  unfold storeWidth at h
  split at h
  · cases h
  · injection h with h; exact ⟨by omega, h.symm⟩

theorem storeDims_ok {s t : State} {d : Nat × Nat × List Byte} (h : storeDims s d = .ok t) :
    d.2.2.length ≤ s.cfg.maxObuf ∧
      t = { s with obuf := Memory.ofList 0 d.2.2, outLen := .word (BitVec.ofNat 32 d.2.2.length)
                   width := .word (BitVec.ofNat 32 d.1), height := .word (BitVec.ofNat 32 d.2.1) } := by
  unfold storeDims at h
  match hs : storeOutput s d.2.2 with
  | .ok u =>
    rw [hs] at h
    obtain ⟨h1, rfl⟩ := storeOutput_ok hs
    exact ⟨h1, by injection h with h; exact h.symm⟩
  | .error e => rw [hs] at h; cases h

/-! ### The window -/

@[simp] theorem window_length (s : State) : s.window.length = s.inLen.toNat := by simp [State.window]

theorem window_getElem? (s : State) {k : Nat} (h : k < s.inLen.toNat) :
    s.window[k]? = some (Memory.read s.ibuf (s.inBase.toNat + k)) := by
  simp [State.window, List.getElem?_range h]

@[simp] theorem specified_map_some (bs : List Byte) : specified (bs.map some) = .ok bs := by
  induction bs with
  | nil => rfl
  | cons b bs ih => simp [specified, ih, Except.map]

theorem specified_ok {F : Window} {bs : List Byte} (h : specified F = .ok bs) : F = bs.map some := by
  induction F generalizing bs with
  | nil => cases h; rfl
  | cons c F ih =>
    cases c with
    | none => cases h
    | some b =>
      match hF : specified F with
      | .ok cs =>
        simp only [specified, hF, Except.map] at h
        injection h with h
        subst h; simp [ih hF]
      | .error e => simp [specified, hF, Except.map] at h

theorem readByte_ok {F : Window} {k : Nat} {b : Byte} : readByte F k = .ok b ↔ F[k]? = some (some b) := by
  unfold readByte
  split
  · rename_i c hc; simp [hc]
  · rename_i hc; simp only [stopFault, reduceCtorEq, false_iff]; exact hc b

theorem readSlice_map_some (bs : List Byte) (a b : Nat) :
    readSlice (bs.map some) a b = .ok ((bs.take b).drop a) := by
  rw [readSlice, ← List.map_take, ← List.map_drop, specified_map_some]

/-! ### Commands -/

theorem litRun_ok {n pc : Nat} {F : Window} {c : CmdResult} (h : litRun n F pc = .ok c) :
    pc + 1 + n ≤ F.length ∧ ∃ px, readSlice F (pc + 1) (pc + 1 + n) = .ok px ∧
      c = { n := n, pixels := px, next := pc + 1 + n, term := decide (n < litMaxRun) } := by
  unfold litRun at h
  split at h
  · cases h
  · match hs : readSlice F (pc + 1) (pc + 1 + n) with
    | .ok px =>
      rw [hs] at h
      injection h with h
      exact ⟨by omega, px, rfl, h.symm⟩
    | .error e => rw [hs] at h; cases h

theorem litRun_short {n pc : Nat} {F : Window} (h : F.length < pc + 1 + n) :
    litRun n F pc = raise .unexpectedEndOfFrame := if_pos h

/-- Inside a replay a command either advances it, or ends its operation in an error. -/
theorem commandStep_next {run : Window → Nat → Except Stop CmdResult} {s t : State}
    (h : commandStep run s = .next t) :
    ∃ r, s.replay = some r ∧
      ((∃ c, run s.window r.pc = .ok c ∧ t = { s with replay := some (r.advance c) }) ∨
        (∃ e, run s.window r.pc = .error (.raise e) ∧ t = errorEntry r.task.op e s)) := by
  unfold commandStep at h
  split at h
  · cases h
  · rename_i r hr
    refine ⟨r, hr, ?_⟩
    split at h
    · rename_i c hc; injection h with h; exact .inl ⟨c, hc, h.symm⟩
    · rename_i e he; injection h with h; exact .inr ⟨e, he, h.symm⟩
    · cases h

/-- The two ways 30_encoding.md R103 says which commands terminate agree, for a literal run. -/
theorem terminator_literal : ∀ c : Byte, c.toNat < 128 →
    c.getLsbD 7 = false ∧ terminator c = decide (c.toNat < litMaxRun) := by decide

/-- The two ways 30_encoding.md R103 says which commands terminate agree, for a transparency run. -/
theorem terminator_transparent : ∀ c : Byte, 128 ≤ c.toNat →
    c.getLsbD 7 = true ∧ terminator c = decide (0x100 - c.toNat < trnMaxRun) := by decide

/-- The literal case of `exec(F, pc)` is the run the class of the byte selects (41_decoder.md R184). -/
theorem execAt_literal {F : Window} {pc : Nat} {c : Byte} (hc : F[pc]? = some (some c)) (hk : c.toNat < 128) :
    execAt F pc = litRun c.toNat F pc := by
  obtain ⟨h7, ht⟩ := terminator_literal c hk
  simp only [execAt, readByte_ok.2 hc, bind, Except.bind, h7, Bool.false_eq_true, if_false, litRun, ht]
  split
  · rfl
  · cases readSlice F (pc + 1) (pc + 1 + c.toNat) <;> rfl

/-- The transparency case of `exec(F, pc)` (41_decoder.md R184). -/
theorem execAt_transparent {F : Window} {pc : Nat} {c : Byte} (hc : F[pc]? = some (some c))
    (hk : 128 ≤ c.toNat) : execAt F pc = trnRun (0x100 - c.toNat) F pc := by
  obtain ⟨h7, ht⟩ := terminator_transparent c hk
  simp only [execAt, readByte_ok.2 hc, bind, Except.bind, h7, if_true, trnRun, ht]
  rfl

/-- A command advances `pc` and never passes the end of the frame (41_decoder.md R189). -/
theorem execAt_next {F : Window} {pc : Nat} {r : CmdResult} (h : execAt F pc = .ok r) :
    pc < r.next ∧ r.next ≤ F.length := by
  match hb : readByte F pc with
  | .ok c =>
    have hc := readByte_ok.1 hb
    have hlt : pc < F.length := (List.getElem?_eq_some_iff.1 hc).1
    by_cases hk : c.toNat < 128
    · rw [execAt_literal hc hk] at h
      obtain ⟨h1, px, -, rfl⟩ := litRun_ok h
      exact ⟨by simp; omega, h1⟩
    · rw [execAt_transparent hc (by omega)] at h
      injection h with h; subst h
      exact ⟨by simp, by simpa using hlt⟩
  | .error e => simp [execAt, hb, bind, Except.bind] at h

/-! ### Little-endian words -/

theorem le32_bytesLE32 (v : Word) :
    le32 (v.extractLsb' 0 8) (v.extractLsb' 8 8) (v.extractLsb' 16 8) (v.extractLsb' 24 8) = v := by
  apply BitVec.eq_of_toNat_eq
  have hv := v.isLt
  simp only [le32, BitVec.extractLsb'_toNat, BitVec.toNat_ofNat, Nat.shiftRight_eq_div_pow]
  omega

@[simp] theorem bytesLE32_length (v : Word) : (bytesLE32 v).length = 4 := rfl

end Sys2Proof.Machine
end

