-- ==== Sys2Proof/Laws/HostPort.lean ====
section
/-! SUPPORT. What each access of the host can do, said once. -/

namespace Sys2Proof.Machine

/-- Between operations a step takes the oldest access of the host. -/
theorem step_pending {s : State} {e : HostEvent} {q : List HostEvent} (hr : s.replay = none)
    (hq : s.hostQueue = e :: q) : step s = hostStep e { s with hostQueue := q } := by
  simp [step, hr, idleStep, hq]

/-! ### Registers -/

@[simp] theorem ofOffset_offset (r : RegName) : RegName.ofOffset r.offset = some r := by cases r <;> rfl

@[simp] theorem regAt_offset (r : RegName) : regAt r.offset 4 = some r := by simp [regAt]

@[simp] theorem regValue_get_word (r : RegName) (v : Word) : (RegValue.word v).get r = .ok v := rfl
@[simp] theorem regValue_get_unspecified (r : RegName) :
    RegValue.unspecified.get r = .error (.fault (.unspecifiedRegister r)) := rfl

/-- A host read of a register goes on only where the register exists and holds a word, and then returns it. -/
theorem hostReadReg_next {offset width : Nat} {s t : State} (h : hostReadReg offset width s = .next t) :
    ∃ r v, regAt offset width = some r ∧ s.readReg r = .word v ∧ t = { s with busData := v } := by
  unfold hostReadReg at h
  split at h
  · cases h
  · rename_i r hr
    cases hv : s.readReg r with
    | word v => rw [hv] at h; injection h with h; exact ⟨r, v, hr, hv, h.symm⟩
    | unspecified => rw [hv] at h; cases h

/-! ### Memories -/

/-- A host read of a cell goes on only where the cell exists and has a value, and then returns it. -/
theorem hostReadMem_next {m : MemName} {a : Nat} {s t : State} (h : hostReadMem m a s = .next t) :
    a < m.size s.cfg ∧ ∃ v, s.cell m a = some v ∧ t = { s with busData := v } := by
  unfold hostReadMem at h
  split at h
  · cases h
  · split at h
    · cases h
    · rename_i v hv
      injection h with h
      exact ⟨by omega, v, hv, h.symm⟩

/-- A store to IBUF goes on exactly where its range fits, and changes IBUF alone. -/
theorem hostWriteIbuf_next {a : Nat} {bytes : List Byte} {s t : State} :
    hostWriteIbuf a bytes s = .next t ↔
      a + bytes.length ≤ s.cfg.maxIbuf ∧ t = { s with ibuf := Memory.writeAll s.ibuf a bytes } := by
  unfold hostWriteIbuf
  split
  · simp only [reduceCtorEq, false_iff]; omega
  · simp only [Host.Outcome.next.injEq]
    exact ⟨fun h => ⟨by omega, h.symm⟩, fun h => h.2.symm⟩

/-- A store to FLEN goes on exactly where its entry exists, and changes FLEN alone. -/
theorem hostWriteFlen_next {k : Nat} {v : Word} {s t : State} :
    hostWriteFlen k v s = .next t ↔ k < s.cfg.maxFrames ∧ t = { s with flen := Memory.write s.flen k v } := by
  unfold hostWriteFlen
  split
  · simp only [reduceCtorEq, false_iff]; omega
  · simp only [Host.Outcome.next.injEq]
    exact ⟨fun h => ⟨by omega, h.symm⟩, fun h => h.2.symm⟩

/-- `readBytes` gives the bytes of its range where each has a value. -/
theorem readBytes_eq_some {m : Memory Byte} {a n : Nat} {bytes : List Byte} :
    readBytes m a n = some bytes ↔ bytes.length = n ∧ ∀ k, k < n → Memory.read m (a + k) = bytes[k]? := by
  induction n generalizing a bytes with
  | zero =>
    simp only [readBytes, Option.some.injEq, Nat.not_lt_zero, false_implies, implies_true, and_true,
      List.length_eq_zero_iff]
    exact eq_comm
  | succ n ih =>
    constructor
    · intro h
      unfold readBytes at h
      split at h
      · rename_i b bs hb hbs
        injection h with h
        subst h
        obtain ⟨hlen, hk⟩ := ih.1 hbs
        refine ⟨by simp [hlen], fun k hkn => ?_⟩
        cases k with
        | zero => simpa using hb
        | succ k =>
          have := hk k (by omega)
          rw [List.getElem?_cons_succ, ← this]
          congr 1
          omega
      · cases h
    · rintro ⟨hlen, hk⟩
      obtain ⟨b, bs, rfl⟩ := List.exists_cons_of_length_eq_add_one hlen
      have hb : Memory.read m a = some b := by simpa using hk 0 (by omega)
      have hbs : readBytes m (a + 1) n = some bs := ih.2 ⟨by simpa using hlen, fun k hkn => by
        have := hk (k + 1) (by omega)
        rw [List.getElem?_cons_succ] at this
        rw [← this]
        congr 1
        omega⟩
      simp [readBytes, hb, hbs]

/-- `readBytes` fails exactly where a byte of its range has no value. -/
theorem readBytes_eq_none {m : Memory Byte} {a n : Nat} :
    readBytes m a n = none ↔ ∃ k, k < n ∧ Memory.read m (a + k) = none := by
  induction n generalizing a with
  | zero => simp [readBytes]
  | succ n ih =>
    constructor
    · intro h
      cases hb : Memory.read m a with
      | none => exact ⟨0, by omega, hb⟩
      | some b =>
        cases hbs : readBytes m (a + 1) n with
        | none =>
          obtain ⟨k, hk, hr⟩ := ih.1 hbs
          exact ⟨k + 1, by omega, by rw [← hr]; congr 1; omega⟩
        | some bs => simp [readBytes, hb, hbs] at h
    · rintro ⟨k, hk, hr⟩
      cases k with
      | zero => rw [Nat.add_zero] at hr; simp [readBytes, hr]
      | succ k =>
        have : readBytes m (a + 1) n = none := ih.2 ⟨k, by omega, by rw [← hr]; congr 1; omega⟩
        simp [readBytes, this]

/-- A copy goes on exactly where both ranges fit and every byte to copy has a value, and changes IBUF alone. -/
theorem hostCopy_next {a b d : Nat} {s t : State} :
    hostCopy a b d s = .next t ↔ a + (b - a) ≤ s.cfg.maxObuf ∧ ∃ bytes, readBytes s.obuf a (b - a) = some bytes ∧
      d + (b - a) ≤ s.cfg.maxIbuf ∧ t = { s with ibuf := Memory.writeAll s.ibuf d bytes } := by
  unfold hostCopy
  split
  · simp only [reduceCtorEq, false_iff]; omega
  · cases hb : readBytes s.obuf a (b - a) with
    | none => simp
    | some bytes =>
      have hlen := (readBytes_eq_some.1 hb).1
      simp only [hostWriteIbuf_next, Option.some.injEq, exists_eq_left', hlen]
      exact ⟨fun h => ⟨by omega, h⟩, fun h => h.2⟩

end Sys2Proof.Machine
end

