-- ==== Sys2Proof/Laws/PerInstr.lean ====
section
/-! SUPPORT. Statements about every instruction as syntax, one lemma per constructor. -/

namespace Sys2Proof.Laws.CodeRoundTrip

/-- A well-formed instruction is what its code decodes to (30_encoding.md R104, R117, R118). -/
def Statement (i : Instr) : Prop := i.wf = true → decode (encode i) = i

/-- The byte of a LIT, and what it decodes to: a bounded check over the 126 counts. -/
theorem lit_bytes : ∀ n : Fin 127, 1 ≤ n.val → decodeCommand (BitVec.ofNat 8 n.val) = .lit n.val := by decide

/-- The byte of a TRN, and what it decodes to: a bounded check over the 127 counts. -/
theorem trn_bytes : ∀ n : Fin 128, 1 ≤ n.val → decodeCommand (BitVec.ofNat 8 (0x100 - n.val)) = .trn n.val := by
  decide

theorem lit (n : Nat) : Statement (.lit n) := by
  intro h
  simp only [Instr.wf, Bool.and_eq_true, decide_eq_true_eq] at h
  exact lit_bytes ⟨n, by omega⟩ h.1

theorem endRun : Statement .endRun := fun _ => rfl
theorem litMax : Statement .litMax := fun _ => rfl
theorem trnMax : Statement .trnMax := fun _ => rfl

theorem trn (n : Nat) : Statement (.trn n) := by
  intro h
  simp only [Instr.wf, Bool.and_eq_true, decide_eq_true_eq] at h
  exact trn_bytes ⟨n, by omega⟩ h.1

theorem parseOffsets : Statement .parseOffsets := fun _ => rfl
theorem frameBytes : Statement .frameBytes := fun _ => rfl
theorem buildContainer : Statement .buildContainer := fun _ => rfl
theorem frameWidth : Statement .frameWidth := fun _ => rfl
theorem decompress : Statement .decompress := fun _ => rfl
theorem frameDims : Statement .frameDims := fun _ => rfl
theorem compressBlock : Statement .compressBlock := fun _ => rfl
theorem compressRow : Statement .compressRow := fun _ => rfl
theorem encodeFrame : Statement .encodeFrame := fun _ => rfl

/-- The seven codes that name no operation decode to themselves. -/
theorem illegal_words : ∀ op : BitVec 4, Instr.wf (.illegalOp op) = true →
    decode (encode (.illegalOp op)) = .illegalOp op := by decide

theorem illegalOp (op : BitVec 4) : Statement (.illegalOp op) := illegal_words op

end Sys2Proof.Laws.CodeRoundTrip
end

