-- ==== Sys2Proof/Tests/Slice0.lean ====
section
/-! SUPPORT. The model's own tests and the witnesses of the statements' hypotheses. Expected results are from
spec/95_test_vectors.md (its vector ids are in the docstrings), from the rules' examples, or worked out by hand. -/

namespace Sys2Proof.Tests

open Sys2Proof Sys2Proof.Machine

/-! ### Helpers -/

/-- The next state of an outcome. -/
def got (o : Host.Outcome State Fault Refusal) : Option State :=
  match o with
  | .next t => some t
  | .fault _ => none
  | .refused _ => none

/-- The fault of an outcome. -/
def faulted (o : Host.Outcome State Fault Refusal) : Option Fault :=
  match o with
  | .next _ => none
  | .fault f => some f
  | .refused _ => none

/-- The refusal of an outcome. -/
def refusedBy (o : Host.Outcome State Fault Refusal) : Option Refusal :=
  match o with
  | .next _ => none
  | .fault _ => none
  | .refused r => some r

/-- Small parameters. -/
def cfg : Config := { maxIbuf := 300, maxObuf := 300, maxFrames := 3, hdrRule := .gt }

/-- A block with `bytes` at IBUF address 0 as its window. -/
def withWindow (c : Config) (bytes : List Byte) : State :=
  { State.resetWith c [] with ibuf := Memory.ofList 0 bytes, inLen := BitVec.ofNat 32 bytes.length }

/-- The same inside a replay. -/
def inReplay (t : Task) (pc : Nat) (bytes : List Byte) : State :=
  { withWindow cfg bytes with replay := some (Replay.start t pc) }

/-- A block with one host access pending. -/
def pending (e : HostEvent) : State := State.resetWith cfg [e]

/-- Any header: the `H` of 95_test_vectors.md. -/
def header : List Byte := [0x20#8, 0#8, 0#8, 0#8, 0#8, 0#8, 0#8, 0#8, 0#8, 0#8]

/-- The frame of program P1. -/
def frameP1 : List Byte := [0x04#8, 0x01#8, 0x02#8, 0x03#8, 0x04#8, 0xFE#8, 0x02#8, 0x05#8, 0x06#8]

/-- The container of vector X3. -/
def containerX3 : List Byte :=
  [0x03#8, 0#8, 0#8, 0#8, 0x14#8, 0#8, 0#8, 0#8, 0x18#8, 0#8, 0#8, 0#8, 0x19#8, 0#8, 0#8, 0#8] ++
  [0x19#8, 0#8, 0#8, 0#8, 0x03#8, 0x01#8, 0x02#8, 0x03#8, 0xFE#8]

/-! ### Well-formed terms -/

theorem test_wf_lit_range :
    Instr.wf (.lit 0) = false ∧ Instr.wf (.lit 1) = true ∧ Instr.wf (.lit 126) = true ∧ Instr.wf (.lit 127) = false := by
  decide

theorem test_wf_trn_range :
    Instr.wf (.trn 0) = false ∧ Instr.wf (.trn 1) = true ∧ Instr.wf (.trn 127) = true ∧ Instr.wf (.trn 128) = false := by
  decide

theorem test_wf_illegal_op :
    Instr.wf (.illegalOp 1#4) = false ∧ Instr.wf (.illegalOp 9#4) = false ∧ Instr.wf (.illegalOp 0#4) = true ∧
    Instr.wf (.illegalOp 10#4) = true ∧ Instr.wf (.illegalOp 15#4) = true := by decide

/-! ### Decoding: words written out from 30_encoding.md R104 and R117 -/

theorem test_decode_lit : decode (.command 0b00000011#8) = .lit 3 ∧ decode (.command 0b01111110#8) = .lit 126 := by decide
theorem test_decode_end : decode (.command 0b00000000#8) = .endRun := by decide
theorem test_decode_litMax : decode (.command 0b01111111#8) = .litMax := by decide
theorem test_decode_trnMax : decode (.command 0b10000000#8) = .trnMax := by decide
theorem test_decode_trn : decode (.command 0b10000001#8) = .trn 127 ∧ decode (.command 0b11111111#8) = .trn 1 := by decide
theorem test_decode_parseOffsets : decode (.request 0x00000001#32) = .parseOffsets := by decide
theorem test_decode_frameBytes : decode (.request 0x00000002#32) = .frameBytes := by decide
theorem test_decode_buildContainer : decode (.request 0x00000003#32) = .buildContainer := by decide
theorem test_decode_frameWidth : decode (.request 0x00000004#32) = .frameWidth := by decide
/-- Q3: bits[31:4] are ignored. -/
theorem test_decode_decompress : decode (.request 0x00000015#32) = .decompress := by decide
theorem test_decode_frameDims : decode (.request 0x00000006#32) = .frameDims := by decide
theorem test_decode_compressBlock : decode (.request 0x00000007#32) = .compressBlock := by decide
theorem test_decode_compressRow : decode (.request 0x00000008#32) = .compressRow := by decide
theorem test_decode_encodeFrame : decode (.request 0xFFFFFFF9#32) = .encodeFrame := by decide
theorem test_decode_illegalOp :
    decode (.request 0x00000010#32) = .illegalOp 0#4 ∧ decode (.request 0x0000000A#32) = .illegalOp 10#4 := by decide

/-- Words of spec/opcode_table.json as the host gives them (log 6). -/
theorem test_decode_table_commands :
    decodeTableWord 8 0x00 = some .endRun ∧ decodeTableWord 8 0x7F = some .litMax ∧
    decodeTableWord 8 0x80 = some .trnMax ∧ decodeTableWord 8 0x81 = some (.trn 127) ∧
    decodeTableWord 8 0x10 = some (.lit 16) := by decide

theorem test_decode_table_requests :
    decodeTableWord 32 0x1 = some .parseOffsets ∧ decodeTableWord 8 0x9 = some .encodeFrame ∧
    decodeTableWord 32 0x0 = some (.illegalOp 0#4) ∧ decodeTableWord 8 0xA = some (.illegalOp 10#4) := by decide

/-- A step after placing a request word at reset runs it: an illegal one sets STATUS 0x16 (Q1). -/
theorem test_place_request :
    (got (step (State.reset.withFetchWord 32 0xF0))).map State.statusWord = some 0x16#32 := by decide

/-- A step after placing a command byte at reset runs it. -/
theorem test_place_command :
    ((got (step (State.reset.withFetchWord 8 0xFE))).bind State.replay).map (fun r => (r.pc, r.out)) =
      some (1, [0xFF#8, 0xFF#8]) := by decide +kernel

/-! ### Commands -/

/-- LIT 3 at pc 0 of `03 10 20 30` (41_decoder.md R185, example). -/
theorem test_lit : got (exec (.lit 3) (inReplay .decode 0 [0x03#8, 0x10#8, 0x20#8, 0x30#8])) =
    some { inReplay .decode 0 [0x03#8, 0x10#8, 0x20#8, 0x30#8] with
      replay := some { task := .decode, pc := 4, acc := 0, ended := false, out := [0x10#8, 0x20#8, 0x30#8] } } := by
  decide

/-- V4: a payload cut short ends the operation, and its result is lost. -/
theorem test_lit_short : got (exec (.lit 2) (inReplay .width 0 [0x02#8, 0x05#8])) =
    some { withWindow cfg [0x02#8, 0x05#8] with
      width := .unspecified, err := some .unexpectedEndOfFrame, done := true } := by decide

/-- END terminates a width replay and counts nothing (R185, corner case n = 0). -/
theorem test_end : got (exec .endRun (inReplay .width 0 [0x00#8])) =
    some { withWindow cfg [0x00#8] with
      replay := some { task := .width, pc := 1, acc := 0, ended := true, out := [] } } := by decide

/-- LITMAX counts 127 and does not terminate (R186); its payload may end exactly at |F|. -/
theorem test_litMax : got (exec .litMax (inReplay .dimsWidth 0 (0x7F#8 :: List.replicate 127 0x07#8))) =
    some { withWindow cfg (0x7F#8 :: List.replicate 127 0x07#8) with
      replay := some { task := .dimsWidth, pc := 128, acc := 127, ended := false, out := [] } } := by decide +kernel

/-- V15: LITMAX with 126 payload bytes. -/
theorem test_litMax_short : got (exec .litMax (inReplay (.dimsDecode 5) 0 (0x7F#8 :: List.replicate 126 0x01#8))) =
    some { withWindow cfg (0x7F#8 :: List.replicate 126 0x01#8) with
      width := .unspecified, height := .unspecified, outLen := .unspecified,
      err := some .unexpectedEndOfFrame, done := true } := by decide +kernel

/-- TRNMAX counts 128 and does not terminate (R188). -/
theorem test_trnMax : got (exec .trnMax (inReplay .width 0 [0x80#8])) =
    some { withWindow cfg [0x80#8] with
      replay := some { task := .width, pc := 1, acc := 128, ended := false, out := [] } } := by decide

/-- TRN 127 counts 127 and terminates (R187); TRN 1 is one transparent pixel. -/
theorem test_trn :
    got (exec (.trn 127) (inReplay .width 0 [0x81#8])) = some { withWindow cfg [0x81#8] with
      replay := some { task := .width, pc := 1, acc := 127, ended := true, out := [] } } ∧
    got (exec (.trn 1) (inReplay (.dimsDecode 1) 0 [0xFF#8])) = some { withWindow cfg [0xFF#8] with
      replay := some { task := .dimsDecode 1, pc := 1, acc := 0, ended := false, out := [0xFF#8] } } := by decide

/-- The model's choice (log 10). -/
theorem test_command_outside_a_replay :
    refusedBy (exec (.lit 1) (withWindow cfg [0x01#8, 0x05#8])) = some .noReplay ∧
    refusedBy (exec .trnMax (withWindow cfg [])) = some .noReplay := by decide

/-! ### Operations -/

/-- X3a: OFFT, OFFT_LEN, CONT_LEN. -/
theorem test_parseOffsets :
    (got (exec .parseOffsets (withWindow cfg containerX3))).map
        (fun t => (t.offt.map Prod.snd, t.offtLen, t.frameCount, t.contLen, t.err)) =
      some ([20#32, 24#32, 25#32, 25#32], 4#32, .word 3#32, .word 25#32, none) := by decide +kernel

/-- X5, X6, X11. -/
theorem test_parseOffsets_errors :
    (got (exec .parseOffsets (withWindow cfg [0x01#8, 0#8, 0#8]))).map (·.err) = some (some .malformedContainer) ∧
    (got (exec .parseOffsets (withWindow cfg [0#8, 0#8, 0#8, 0#8, 0x08#8, 0#8, 0#8]))).map (·.err) =
      some (some .malformedContainer) ∧
    (got (exec .parseOffsets (withWindow { cfg with maxFrames := 1 } containerX3))).map (fun t => (t.err, t.offtLen)) =
      some (some .capacityExceeded, 0#32) := by decide +kernel

/-- The state X3c leaves: X3's container parsed at IBUF 100. -/
def parsed (offs : List Word) (len : Word) (i : Word) : State :=
  { State.resetWith cfg [] with
    offt := Memory.ofList 0 offs, offtLen := BitVec.ofNat 32 offs.length, contBase := .word 100#32
    contLen := .word len, idx := i }

/-- X3c, and the empty frame of X3b. -/
theorem test_frameBytes :
    (got (exec .frameBytes (parsed [20#32, 24#32, 25#32, 25#32] 25#32 1#32))).map (fun t => (t.sliceBase, t.sliceLen)) =
      some (.word 124#32, .word 1#32) ∧
    (got (exec .frameBytes (parsed [20#32, 24#32, 25#32, 25#32] 25#32 2#32))).map (fun t => (t.sliceBase, t.sliceLen)) =
      some (.word 125#32, .word 0#32) := by decide

/-- X3b, X7a, X8, X9. -/
theorem test_frameBytes_errors :
    (got (exec .frameBytes (parsed [20#32, 24#32, 25#32, 25#32] 25#32 3#32))).map (·.err) =
      some (some .indexOutOfRange) ∧
    (got (exec .frameBytes (parsed [20#32, 24#32, 25#32, 25#32] 25#32 0xFFFFFFFF#32))).map (·.err) =
      some (some .indexOutOfRange) ∧
    (got (exec .frameBytes (parsed [16#32, 20#32, 18#32] 20#32 1#32))).map (·.err) =
      some (some .malformedContainer) ∧
    (got (exec .frameBytes (parsed [12#32, 99#32] 12#32 0#32))).map (·.err) = some (some .malformedContainer) ∧
    (got (exec .frameBytes State.reset)).map (·.err) = some (some .indexOutOfRange) := by decide

/-- FRAME_COUNT frames of the lengths in FLEN. -/
def toBuild (c : Config) (n : Word) (lens : List Word) (bytes : List Byte) : State :=
  { withWindow c bytes with frameCount := .word n, flen := Memory.ofList 0 lens }

/-- The example of 40_indexer.md R148, which is X3's container. -/
theorem test_buildContainer :
    (got (exec .buildContainer (toBuild cfg 3#32 [4#32, 1#32, 0#32] [0x03#8, 0x01#8, 0x02#8, 0x03#8, 0xFE#8]))).map
        (fun t => (t.obuf, t.outLen)) = some (Memory.ofList 0 containerX3, .word 25#32) := by decide +kernel

/-- X12, X13, X14. -/
theorem test_buildContainer_errors :
    (got (exec .buildContainer (toBuild cfg 2#32 [1#32, 1#32] [1#8, 2#8, 3#8]))).map (·.err) =
      some (some .illegalRequest) ∧
    (got (exec .buildContainer (toBuild cfg 4#32 [] []))).map (·.err) = some (some .illegalRequest) ∧
    (got (exec .buildContainer (toBuild { cfg with maxObuf := 16 } 1#32 [9#32] frameP1))).map (·.err) =
      some (some .capacityExceeded) := by decide +kernel

/-- The example of 41_decoder.md R192, and W2: the header is skipped. -/
theorem test_frameWidth :
    (got (exec .frameWidth (withWindow cfg [0x03#8, 0x10#8, 0x20#8, 0x30#8, 0x7D#8]))).map (fun t => (t.width, t.hdr)) =
      some (.word 3#32, false) ∧
    (got (exec .frameWidth (withWindow cfg (header ++ [0x81#8])))).map (fun t => (t.width, t.hdr)) =
      some (.word 127#32, true) := by decide +kernel

/-- B4: no terminator. -/
theorem test_frameWidth_error :
    (got (exec .frameWidth (withWindow cfg (header ++ [0x80#8])))).map (fun t => (t.width, t.statusWord)) =
      some (.unspecified, 0x33#32) := by decide +kernel

/-- V38. -/
theorem test_decompress :
    (got (exec .decompress (withWindow cfg frameP1))).map (fun t => (t.obuf, t.outLen)) =
      some (Memory.ofList 0 [0x01#8, 0x02#8, 0x03#8, 0x04#8, 0xFF#8, 0xFF#8, 0x05#8, 0x06#8], .word 8#32) := by
  decide +kernel

/-- V41: truncation comes before capacity. V40: capacity. -/
theorem test_decompress_errors :
    (got (exec .decompress (withWindow { cfg with maxObuf := 100 } (header ++ [0x80#8, 0x02#8, 0x01#8])))).map (·.err) =
      some (some .unexpectedEndOfFrame) ∧
    (got (exec .decompress (withWindow { cfg with maxObuf := 100 } (header ++ [0x80#8])))).map (·.err) =
      some (some .capacityExceeded) := by decide +kernel

/-- V38 and V37. -/
theorem test_frameDims :
    (got (exec .frameDims (withWindow cfg frameP1))).map (fun t => (t.width, t.height, t.outLen)) =
      some (.word 4#32, .word 2#32, .word 8#32) ∧
    (got (exec .frameDims (withWindow cfg [0x01#8, 0x05#8, 0xFF#8, 0x01#8, 0x06#8]))).map
      (fun t => (t.width, t.height, t.outLen)) = some (.word 1#32, .word 3#32, .word 3#32) := by decide +kernel

/-- V39, V1 and V36. -/
theorem test_frameDims_errors :
    (got (exec .frameDims (withWindow cfg [0x02#8, 0x01#8, 0x02#8, 0xFF#8]))).map (·.err) =
      some (some .dimensionMismatch) ∧
    (got (exec .frameDims (withWindow cfg [0x00#8]))).map (·.err) = some (some .dimensionMismatch) ∧
    (got (exec .frameDims (withWindow cfg (header ++ [0x02#8, 0x01#8, 0x02#8, 0x03#8, 0x03#8, 0x04#8])))).map (·.err) =
      some (some .unexpectedEndOfFrame) := by decide +kernel

/-- K6 and K11. -/
theorem test_compressBlock :
    (got (exec .compressBlock (withWindow cfg (List.replicate 129 0xFF#8)))).map (fun t => (t.obuf, t.outLen)) =
      some (Memory.ofList 0 [0x80#8, 0xFF#8], .word 2#32) ∧
    (got (exec .compressBlock (withWindow cfg (List.replicate 128 0x01#8)))).map (fun t => (t.obuf, t.outLen)) =
      some (Memory.ofList 0 (0x7F#8 :: List.replicate 127 0x01#8 ++ [0x01#8, 0x01#8]), .word 130#32) := by
  decide +kernel

/-- K14. -/
theorem test_compressBlock_mixed :
    (got (exec .compressBlock (withWindow cfg [0x01#8, 0xFF#8]))).map (·.err) = some (some .illegalRequest) := by decide

/-- S13 and S4. -/
theorem test_compressRow :
    (got (exec .compressRow (withWindow cfg (List.replicate 128 0xFF#8 ++ List.replicate 127 0x01#8)))).map (·.obuf) =
      some (Memory.ofList 0 (0x80#8 :: 0x7F#8 :: List.replicate 127 0x01#8 ++ [0x00#8])) ∧
    (got (exec .compressRow (withWindow cfg [0x05#8, 0xFF#8, 0x06#8]))).map (·.obuf) =
      some (Memory.ofList 0 [0x01#8, 0x05#8, 0xFF#8, 0x01#8, 0x06#8]) := by decide +kernel

/-- A grid in the window. -/
def withGrid (w h : Word) (bytes : List Byte) : State := { withWindow cfg bytes with gridW := w, gridH := h }

/-- F4 and F14. -/
theorem test_encodeFrame :
    (got (exec .encodeFrame (withGrid 2#32 3#32 [0x01#8, 0x02#8, 0xFF#8, 0x03#8, 0x04#8, 0x05#8]))).map (·.obuf) =
      some (Memory.ofList 0 [0x02#8, 0x01#8, 0x02#8, 0xFF#8, 0x01#8, 0x03#8, 0x02#8, 0x04#8, 0x05#8]) ∧
    (got (exec .encodeFrame (withGrid 2#32 2#32 [0x01#8, 0x02#8, 0xFF#8]))).map (·.err) =
      some (some .illegalRequest) := by decide +kernel

/-- Q2: STATUS 0x16. -/
theorem test_illegalOp : (got (exec (.illegalOp 15#4) State.reset)).map State.statusWord = some 0x16#32 := by decide

/-! ### The host -/

/-- Q3, Q7, Q8. -/
theorem test_host_accesses :
    (got (step (pending (.writeReg 0x00 4 0x15#32)))).map (fun t => (t.cmdOp, t.done)) = some (5#4, true) ∧
    (got (step (pending (.writeReg 0x04 4 0xFFFFFFFF#32)))).map State.statusWord = some 0#32 ∧
    refusedBy (step (pending (.readReg 0x05 1))) = some .badRegisterAccess := by decide

/-- 00_scope.md R23, 70_reset_and_hazards.md R301: a cell of IBUF faults before the first write. -/
theorem test_unwritten_cell_faults :
    faulted (step (pending (.readMem .ibuf 0))) = some (.unwritten .ibuf) ∧
    faulted (step (pending (.readMem .ibuf 300))) = some (.noSuchAddress .ibuf) := by decide

/-- Stores and COPY, the bytes that arrive. -/
theorem test_host_stores :
    (got (step (pending (.writeIbuf 298 [0x01#8, 0x02#8])))).map (·.ibuf) = some [(298, 0x01#8), (299, 0x02#8)] ∧
    (got (step { pending (.copy 1 3 7) with obuf := [(0, 9#8), (1, 8#8), (2, 7#8)], outLen := .word 3#32 })).map (·.ibuf) =
      some [(7, 8#8), (8, 7#8)] := by decide

/-! ### Witnesses: states and operands that meet the hypotheses of each statement -/

theorem witness_DecodeOfEncodeIsTheInstruction :
    Instr.wf (.lit 1) = true ∧ Instr.wf (.lit 126) = true ∧ Instr.wf (.trn 1) = true ∧ Instr.wf (.trn 127) = true ∧
    Instr.wf (.illegalOp 0#4) = true ∧ Instr.wf (.illegalOp 15#4) = true ∧ Instr.wf .endRun = true := by decide

/-- The ends of the four ranges of R104. -/
theorem witness_CommandByteClasses :
    (0x00#8).toNat = 0 ∧ (0x01#8).toNat = 1 ∧ (0x7E#8).toNat = 0x7E ∧ (0x7F#8).toNat = 0x7F ∧ (0x80#8).toNat = 0x80 ∧
    (0x81#8).toNat = 0x81 ∧ (0xFF#8).toNat = 0xFF ∧ decodeCommand 0x01#8 = .lit 1 ∧ decodeCommand 0x7E#8 = .lit 126 ∧
    decodeCommand 0x81#8 = .trn 127 ∧ decodeCommand 0xFF#8 = .trn 1 := by decide

/-- Each clause, with ignored bits set in some. -/
theorem witness_RequestWordSelectsTheOperation :
    0x00000001#32 &&& 0xF#32 = 1#32 ∧ 0x00000012#32 &&& 0xF#32 = 2#32 ∧ 0x00000003#32 &&& 0xF#32 = 3#32 ∧
    0x00000004#32 &&& 0xF#32 = 4#32 ∧ 0xFFFFFFF5#32 &&& 0xF#32 = 5#32 ∧ 0x00000006#32 &&& 0xF#32 = 6#32 ∧
    0x00000007#32 &&& 0xF#32 = 7#32 ∧ 0x00000008#32 &&& 0xF#32 = 8#32 ∧ 0x00000009#32 &&& 0xF#32 = 9#32 ∧
    0x000000F0#32 &&& 0xF#32 = 0#32 ∧ 0xA#32 ≤ 0x0000000A#32 &&& 0xF#32 ∧ 0xA#32 ≤ 0x0000000F#32 &&& 0xF#32 := by decide

/-- Both clauses: END at the last byte, LIT 126 and LITMAX with the payload complete and one byte short. -/
theorem witness_LiteralRunInAReplay :
    ((inReplay .width 2 [1#8, 2#8, 0x00#8]).window.length = 2 + 1 + 0 ∧ (inReplay .width 2 [1#8, 2#8, 0#8]).replay.isSome) ∧
    (∀ k < 126, (inReplay .decode 0 (0x7E#8 :: List.replicate 126 9#8)).window[0 + 1 + k]? = some (some 9#8)) ∧
    (∀ k < 127, (inReplay .dimsWidth 0 (0x7F#8 :: List.replicate 127 9#8)).window[0 + 1 + k]? = some (some 9#8)) ∧
    (inReplay (.dimsDecode 3) 0 (0x7F#8 :: List.replicate 126 9#8)).window.length < 0 + 1 + 127 ∧
    (inReplay .decode 0 (0x7E#8 :: List.replicate 125 9#8)).window.length < 0 + 1 + 126 := by decide +kernel

theorem witness_TransparencyRunInAReplay :
    (inReplay .width 0 [0x81#8]).replay = some (Replay.start .width 0) ∧
    (inReplay .decode 0 [0x80#8]).replay = some (Replay.start .decode 0) := ⟨rfl, rfl⟩

theorem witness_CommandOutsideAReplayIsRefused :
    Instr.isCommand (.lit 1) = true ∧ Instr.isCommand .trnMax = true ∧ (withWindow cfg []).replay = none := ⟨rfl, rfl, rfl⟩

/-- A header of exactly 10 bytes, one of 9, and the threshold's two sides under both rules. -/
theorem witness_HeaderTestAndStreamStart :
    hdrPresent .gt (header.map some) = .ok true ∧ (header.map some).length = 10 ∧
    hdrPresent .gt ((header.take 9).map some) = .ok true ∧ ((header.take 9).map some).length = 9 ∧
    hdrPresent .gt [some 0x10#8] = .ok false ∧ hdrPresent .gt [some 0x11#8] = .ok true ∧
    hdrPresent .le [some 0x10#8] = .ok true ∧ hdrPresent .le [some 0x11#8] = .ok false := by decide

/-- A headerless list of lines and one behind a header. -/
theorem witness_FullDecodeOfACommandList :
    ((∀ l ∈ [AsmLine.lit [1#8, 2#8], .endRun, .trn 127, .runTrn 130], l.isRuns = true) ∧
      (assemble [.lit [1#8, 2#8], .endRun, .trn 127, .runTrn 130]) = some [2#8, 1#8, 2#8, 0#8, 0x81#8, 0x80#8, 0xFE#8] ∧
      hdrPresent .gt ([2#8, 1#8, 2#8, 0#8, 0x81#8, 0x80#8, 0xFE#8].map some) = .ok false) ∧
    (assemble [.trnMax, .runLit [4#8]] = some [0x80#8, 1#8, 4#8] ∧ header.length = 10 ∧
      hdrPresent .gt (header.map some) = .ok true) ∧
    ((2#8).toNat < 128 ∧ [5#8].length < (2#8).toNat ∧ hdrPresent .gt (([] ++ 2#8 :: [5#8]).map some) = .ok false ∧
      decompress .gt ([2#8, 5#8].map some) = raise .unexpectedEndOfFrame) := by decide

/-- A first row of several commands, and a stream of maximal runs only. -/
theorem witness_WidthOfACommandList :
    (∀ l ∈ [AsmLine.trnMax, .trnMax], l.isMaximal = true) ∧ AsmLine.isTerminator (.trn 127) = true ∧
    assemble ([.trnMax, .trnMax] ++ [.trn 127]) = some [0x80#8, 0x80#8, 0x81#8] ∧
    assemble [.trnMax, .trnMax] = some [0x80#8, 0x80#8] ∧ header.length = 10 ∧
    hdrPresent .gt (header.map some) = .ok true ∧ AsmLine.isTerminator .endRun = true ∧
    assemble ([] ++ [AsmLine.endRun]) = some [0#8] ∧ hdrPresent .gt ([0#8].map some) = .ok false ∧
    (List.replicate 126 1#8).length < (0x7F#8).toNat ∧ (0x7F#8).toNat < 128 ∧ assemble [] = some [] ∧
    frameWidth .gt ((header ++ [] ++ 0x7F#8 :: List.replicate 126 1#8).map some) = raise .unexpectedEndOfFrame := by
  decide +kernel

/-- V37. -/
theorem witness_FirstRowPixelsAreThePrefix :
    frameWidth .gt ([1#8, 5#8, 0xFF#8, 1#8, 6#8].map some) = .ok 1 ∧
    decompress .gt ([1#8, 5#8, 0xFF#8, 1#8, 6#8].map some) = .ok [5#8, 0xFF#8, 6#8] := by decide

/-- A window that ends exactly at the end of IBUF, and one byte past it. -/
def atTheEnd (len : Word) : State :=
  { State.resetWith cfg [] with inBase := 298#32, inLen := len, ibuf := [(298, 1#8), (299, 5#8)] }

/-- The window check's two sides, with the wide sum of Q5. -/
theorem witness_window_check :
    (atTheEnd 3#32).cfg.maxIbuf < (atTheEnd 3#32).inBase.toNat + (atTheEnd 3#32).inLen.toNat ∧
    (atTheEnd 2#32).inBase.toNat + (atTheEnd 2#32).inLen.toNat ≤ (atTheEnd 2#32).cfg.maxIbuf ∧
    (got (exec .decompress (atTheEnd 3#32))).map (·.err) = some (some .illegalRequest) ∧
    (got (exec .decompress (atTheEnd 2#32))).map (·.err) = some none ∧
    (got (exec .decompress { atTheEnd 2#32 with inBase := 0xFFFFFFFF#32 })).map (·.err) =
      some (some .illegalRequest) := by decide

/-- The window of a block whose IBUF lists the bytes. -/
theorem window_withWindow (c : Config) (bytes : List Byte) (h : bytes.length < 4294967296) :
    (withWindow c bytes).window = bytes.map some := by
  apply List.ext_getElem?
  intro k
  have hl : (withWindow c bytes).inLen.toNat = bytes.length := by
    show (BitVec.ofNat 32 bytes.length).toNat = _
    simp [Nat.mod_eq_of_lt h]
  by_cases hk : k < bytes.length
  · rw [window_getElem? _ (by omega)]
    show some (Memory.read (Memory.ofList 0 bytes) (0 + k)) = _
    simp [read_ofList, List.getElem?_map, List.getElem?_eq_getElem hk]
  · rw [List.getElem?_eq_none (by rw [window_length]; omega), List.getElem?_eq_none (by simp; omega)]

/-- A width replay of `n` TRNMAX and an END. -/
theorem widthLoop_trnMax (F : Window) (n : Nat) : ∀ fuel pc acc, n < fuel →
    (∀ k, k < n → F[pc + k]? = some (some 0x80#8)) → F[pc + n]? = some (some 0x00#8) →
    widthLoop F fuel pc acc = .ok (acc + 128 * n) := by
  induction n with
  | zero =>
    intro fuel pc acc hf _ h0
    obtain ⟨fuel, rfl⟩ : ∃ m, fuel = m + 1 := ⟨fuel - 1, by omega⟩
    rw [Nat.add_zero] at h0
    have hlt : pc < F.length := (List.getElem?_eq_some_iff.1 h0).1
    have hx : execAt F pc = litRun 0 F pc := execAt_literal h0 (by decide)
    have hl : litRun 0 F pc = .ok { n := 0, pixels := [], next := pc + 1, term := true } := by
      simp [litRun, readSlice, specified, Except.map, Nat.not_lt.2 hlt, litMaxRun]
    simp [widthLoop, Nat.not_le.2 hlt, hx, hl, bind, Except.bind, pure, Except.pure]
  | succ n ih =>
    intro fuel pc acc hf hk h0
    obtain ⟨fuel, rfl⟩ : ∃ m, fuel = m + 1 := ⟨fuel - 1, by omega⟩
    have h80 : F[pc]? = some (some 0x80#8) := hk 0 (by omega)
    have hlt : pc < F.length := (List.getElem?_eq_some_iff.1 h80).1
    have hx : execAt F pc = trnRun 128 F pc := execAt_transparent h80 (by decide)
    have hrec := ih fuel (pc + 1) (acc + 128) (by omega)
      (fun k hkn => by have := hk (k + 1) (by omega); rwa [show pc + (k + 1) = pc + 1 + k by omega] at this)
      (by rwa [show pc + (n + 1) = pc + 1 + n by omega] at h0)
    simp [widthLoop, Nat.not_le.2 hlt, hx, trnRun, bind, Except.bind, trnMaxRun, hrec]
    omega

/-- A frame of `n` TRNMAX and an END behind a header. -/
def wideFrame (n : Nat) : List Byte := header ++ (List.replicate n 0x80#8 ++ [0x00#8])

theorem wideFrame_length (n : Nat) : (wideFrame n).length = n + 11 := by
  simp [wideFrame, header]

theorem wideFrame_width (n m : Nat) (h : n + 11 < 4294967296) :
    hdrPresent .gt (withWindow { cfg with maxIbuf := m } (wideFrame n)).window = .ok true ∧
    frameWidth .gt (withWindow { cfg with maxIbuf := m } (wideFrame n)).window = .ok (128 * n) := by
  rw [window_withWindow _ _ (by rw [wideFrame_length]; exact h)]
  have h0 : ((wideFrame n).map some).length ≠ 0 := by rw [List.length_map, wideFrame_length]; omega
  have hlen : ¬ ((wideFrame n).map some).length < 10 := by rw [List.length_map, wideFrame_length]; omega
  have hp : hdrPresent .gt ((wideFrame n).map some) = .ok true := by rw [hdrPresent, if_neg h0]; rfl
  refine ⟨hp, ?_⟩
  have key := widthLoop_trnMax ((wideFrame n).map some) n (((wideFrame n).map some).length + 1) 10 0
    (by rw [List.length_map, wideFrame_length]; omega)
    (fun k hk => by
      rw [wideFrame, List.map_append, List.getElem?_append_right (by simp [header]), List.map_append,
        List.getElem?_append_left (by simpa [header] using hk)]
      simp [header, hk])
    (by
      rw [wideFrame, List.map_append, List.getElem?_append_right (by simp [header]), List.map_append,
        List.getElem?_append_right (by simp [header])]
      simp [header])
  have hs : cmdStart .gt ((wideFrame n).map some) = .ok 10 := by
    rw [cmdStart, hp]
    exact if_neg (t := raise .unexpectedEndOfFrame) hlen
  rw [Nat.zero_add] at key
  rw [frameWidth, hs]
  exact key

/-- FRAME_WIDTH's clause of a width above 2^32 - 1: a frame of 2^25 TRNMAX. -/
theorem witness_FrameWidthOperation_capacity :
    hdrPresent .gt (withWindow { cfg with maxIbuf := 33554443 } (wideFrame 33554432)).window = .ok true ∧
    frameWidth .gt (withWindow { cfg with maxIbuf := 33554443 } (wideFrame 33554432)).window =
      .ok (128 * 33554432) :=
  wideFrame_width 33554432 33554443 (by omega)

/-- The other clauses of the decoder's operations: headerless and with a header, a result of exactly MAX_OBUF bytes and
one more, a width of 0, an indivisible count, and each replay cut short. -/
theorem witness_decoder_operations :
    (hdrPresent .gt (withWindow cfg frameP1).window = .ok false ∧
      frameWidth .gt (withWindow cfg frameP1).window = .ok 4 ∧
      decompress .gt (withWindow cfg frameP1).window = .ok [1#8, 2#8, 3#8, 4#8, 0xFF#8, 0xFF#8, 5#8, 6#8] ∧
      (got (exec .frameDims (withWindow { cfg with maxObuf := 8, maxIbuf := 9 } frameP1))).map (·.err) = some none ∧
      (got (exec .frameDims (withWindow { cfg with maxObuf := 7 } frameP1))).map (·.err) =
        some (some .capacityExceeded) ∧
      (got (exec .decompress (withWindow { cfg with maxObuf := 8 } frameP1))).map (·.err) = some none ∧
      (got (exec .decompress (withWindow { cfg with maxObuf := 7 } frameP1))).map (·.err) =
        some (some .capacityExceeded)) ∧
    (frameWidth .gt (withWindow cfg [0#8]).window = .ok 0 ∧ decompress .gt (withWindow cfg [0#8]).window = .ok []) ∧
    (frameWidth .gt (withWindow cfg [2#8, 1#8, 2#8, 0xFF#8]).window = .ok 2 ∧
      decompress .gt (withWindow cfg [2#8, 1#8, 2#8, 0xFF#8]).window = .ok [1#8, 2#8, 0xFF#8]) ∧
    (frameWidth .gt (withWindow cfg []).window = raise .unexpectedEndOfFrame ∧
      hdrPresent .gt (withWindow cfg []).window = .ok false) ∧
    (frameWidth .gt (withWindow cfg [1#8, 5#8, 2#8, 6#8]).window = .ok 1 ∧
      decompress .gt (withWindow cfg [1#8, 5#8, 2#8, 6#8]).window = raise .unexpectedEndOfFrame) := by decide +kernel

/-- The frame statements: each operation ends. -/
theorem witness_frames :
    (got (exec .frameWidth (withWindow cfg frameP1))).isSome ∧ (got (exec .decompress (withWindow cfg frameP1))).isSome ∧
    (got (exec .frameDims (withWindow cfg frameP1))).isSome ∧
    (got (exec .parseOffsets (withWindow cfg containerX3))).isSome ∧
    (got (exec .frameBytes (parsed [20#32, 24#32] 25#32 0#32))).isSome ∧
    (got (exec .buildContainer (toBuild cfg 1#32 [9#32] frameP1))).map (·.err) = some none ∧
    (got (exec .compressBlock (withWindow cfg [5#8]))).map (·.err) = some none ∧
    (got (exec .compressRow (withWindow cfg [5#8, 0xFF#8]))).map (·.err) = some none ∧
    (got (exec .encodeFrame (withGrid 1#32 2#32 [5#8, 0xFF#8]))).map (·.err) = some none := by decide +kernel

/-- PARSE_OFFSETS: windows of 3 and 4 bytes, a table one byte short, one of exactly its size, MAX_FRAMES and one more. -/
theorem witness_ParseOffsetsOperation :
    (withWindow cfg [1#8, 0#8, 0#8]).inLen.toNat < 4 ∧
    (readWord (withWindow cfg [0#8, 0#8, 0#8, 0#8]).window 0 = .ok 0#32 ∧
      (withWindow cfg [0#8, 0#8, 0#8, 0#8]).inLen.toNat < 4 * (0 + 2)) ∧
    (readWord (withWindow cfg [0#8, 0#8, 0#8, 0#8, 8#8, 0#8, 0#8, 0#8]).window 0 = .ok 0#32 ∧
      4 * (0 + 2) ≤ (withWindow cfg [0#8, 0#8, 0#8, 0#8, 8#8, 0#8, 0#8, 0#8]).inLen.toNat ∧
      readWord (withWindow cfg [0#8, 0#8, 0#8, 0#8, 8#8, 0#8, 0#8, 0#8]).window (4 + 4 * 0) = .ok 8#32) ∧
    (readWord (withWindow cfg containerX3).window 0 = .ok 3#32 ∧ (3#32).toNat ≤ cfg.maxFrames ∧
      readWord (withWindow cfg containerX3).window (4 + 4 * 0) = .ok 20#32 ∧
      readWord (withWindow cfg containerX3).window (4 + 4 * 1) = .ok 24#32 ∧
      readWord (withWindow cfg containerX3).window (4 + 4 * 2) = .ok 25#32 ∧
      readWord (withWindow cfg containerX3).window (4 + 4 * 3) = .ok 25#32 ∧
      { cfg with maxFrames := 2 }.maxFrames < (3#32).toNat) := by decide +kernel

/-- FRAME_BYTES: the last index and one more, the empty frame, offsets that fall and one past the container. -/
theorem witness_FrameBytesOperation :
    (parsed [20#32, 24#32] 25#32 1#32).offtLen.toNat ≤ (parsed [20#32, 24#32] 25#32 1#32).idx.toNat + 1 ∧
    ((parsed [20#32, 25#32] 25#32 0#32).idx.toNat + 1 < (parsed [20#32, 25#32] 25#32 0#32).offtLen.toNat ∧
      Memory.read (parsed [20#32, 25#32] 25#32 0#32).offt 0 = some 20#32 ∧
      Memory.read (parsed [20#32, 25#32] 25#32 0#32).offt 1 = some 25#32) ∧
    (got (exec .frameBytes (parsed [20#32, 25#32] 25#32 0#32))).map (·.err) = some none ∧
    (got (exec .frameBytes (parsed [20#32, 26#32] 25#32 0#32))).map (·.err) = some (some .malformedContainer) ∧
    (got (exec .frameBytes (parsed [20#32, 19#32] 25#32 0#32))).map (·.err) = some (some .malformedContainer) ∧
    (got (exec .frameBytes (parsed [25#32, 25#32] 25#32 0#32))).map (·.sliceLen) = some (.word 0#32) := by decide

/-- BUILD_CONTAINER: MAX_FRAMES frames and one more, lengths that do and do not sum up, a container of exactly MAX_OBUF
bytes and one more. -/
theorem witness_BuildContainerOperation :
    (cfg.maxFrames < (4#32).toNat ∧ (3#32).toNat ≤ cfg.maxFrames) ∧
    ([4, 1, 0].sum = (toBuild cfg 3#32 [4#32, 1#32, 0#32] [3#8, 1#8, 2#8, 3#8, 0xFE#8]).inLen.toNat ∧
      [[3#8, 1#8, 2#8, 3#8], [0xFE#8], []].map List.length = [4, 1, 0] ∧
      (toBuild cfg 3#32 [4#32, 1#32, 0#32] [3#8, 1#8, 2#8, 3#8, 0xFE#8]).window =
        [[3#8, 1#8, 2#8, 3#8], [0xFE#8], []].flatten.map some) ∧
    (got (exec .buildContainer (toBuild cfg 1#32 [2#32] [3#8]))).map (·.err) = some (some .illegalRequest) ∧
    (got (exec .buildContainer (toBuild { cfg with maxObuf := 13 } 1#32 [1#32] [3#8]))).map (·.err) = some none ∧
    (got (exec .buildContainer (toBuild { cfg with maxObuf := 12 } 1#32 [1#32] [3#8]))).map (·.err) =
      some (some .capacityExceeded) ∧
    (got (exec .buildContainer (toBuild cfg 0#32 [] []))).map (·.outLen) = some (.word 8#32) := by decide +kernel

/-- Containers of no frame and of two, the second one empty. -/
theorem witness_ContainerIndexRoundTrip :
    4 * (([] : List (List Byte)).length + 2) + (([] : List (List Byte)).map List.length).sum ≤ 4294967295 ∧
    4 * ([[1#8, 2#8], []].length + 2) + ([[1#8, 2#8], ([] : List Byte)].map List.length).sum ≤ 4294967295 := by decide

/-- The encoder's pure statements: a sentinel, a literal and a mixed block; a row whose last block is a multiple of 127
and one whose last block is not. -/
theorem witness_encoder_functions :
    (partition [5#8, 0xFF#8, 6#8] = [[5#8], [0xFF#8]] ++ [[6#8]]) ∧
    (partition (List.replicate 127 1#8) = [] ++ [List.replicate 127 1#8] ∧
      compressRow (List.replicate 127 1#8) = .ok (0x7F#8 :: List.replicate 127 1#8 ++ [0#8])) ∧
    (List.replicate 127 (1#8)).length = 127 ∧ (0 < [1#8].length ∧ (List.replicate 126 (1#8)).length < 127) ∧
    (∃ p ∈ [1#8, 0xFF#8], p = 0xFF#8) ∧ (∃ p ∈ [1#8, 0xFF#8], p ≠ 0xFF#8) ∧ (∀ p ∈ [0xFF#8], p = 0xFF#8) ∧
    (∀ p ∈ [1#8, 2#8], p ≠ 0xFF#8) ∧ compressRow [0xFF#8] = .ok [0xFF#8] := by decide +kernel

/-- F2, F4 and F5: round trips with the right width and with a wrong one. -/
theorem witness_round_trips :
    ([1#8, 2#8, 3#8, 4#8, 0xFF#8, 0xFF#8, 5#8, 6#8].length = 4 * 2 ∧
      encodeFrame [1#8, 2#8, 3#8, 4#8, 0xFF#8, 0xFF#8, 5#8, 6#8] 4 2 = .ok frameP1 ∧
      hdrPresent .gt (frameP1.map some) = .ok false ∧ frameWidth .gt (frameP1.map some) = .ok 4) ∧
    (encodeFrame [1#8, 2#8, 0xFF#8, 3#8, 4#8, 5#8] 3 2 = .ok [2#8, 1#8, 2#8, 0xFF#8, 3#8, 3#8, 4#8, 5#8] ∧
      hdrPresent .gt ([2#8, 1#8, 2#8, 0xFF#8, 3#8, 3#8, 4#8, 5#8].map some) = .ok false ∧
      partition ([1#8, 2#8, 0xFF#8, 3#8, 4#8, 5#8].take 3) = [] ++ [1#8, 2#8] :: [[0xFF#8]] ∧
      [1#8, 2#8].length % maximalRun [1#8, 2#8] ≠ 0) ∧
    (encodeFrame ([] : List Byte) 0 3 = .ok [] ∧ encodeFrame [0xFF#8] 1 1 = .ok [0xFF#8] ∧
      hdrPresent .le [some 0xFF#8] = .ok false ∧ hdrPresent .gt [some 0xFF#8] = .ok true) := by decide +kernel

/-- COMPRESS_BLOCK, COMPRESS_ROW and ENCODE_FRAME: an output of exactly MAX_OBUF bytes and one more; W * H beyond 32 bits. -/
theorem witness_encoder_operations :
    (withWindow cfg [5#8]).window = [5#8].map some ∧ compressBlock [5#8] = .ok [1#8, 5#8] ∧
    (got (exec .compressBlock (withWindow { cfg with maxObuf := 2 } [5#8]))).map (·.err) = some none ∧
    (got (exec .compressBlock (withWindow { cfg with maxObuf := 1 } [5#8]))).map (·.err) = some (some .capacityExceeded) ∧
    (got (exec .compressRow (withWindow { cfg with maxObuf := 2 } [5#8]))).map (·.err) = some none ∧
    (got (exec .compressRow (withWindow { cfg with maxObuf := 1 } [5#8]))).map (·.err) = some (some .capacityExceeded) ∧
    (got (exec .encodeFrame { withGrid 1#32 1#32 [5#8] with cfg := { cfg with maxObuf := 2 } })).map (·.err) = some none ∧
    (got (exec .encodeFrame { withGrid 1#32 1#32 [5#8] with cfg := { cfg with maxObuf := 1 } })).map (·.err) =
      some (some .capacityExceeded) ∧
    (got (exec .encodeFrame (withGrid 0x10000#32 0x10000#32 []))).map (·.err) = some (some .illegalRequest) := by
  decide +kernel

/-- An operation code of each illegal range, and the writes to CMD that carry one. -/
theorem witness_IllegalOpOperation :
    State.reset.replay = none ∧ (pending (.writeReg 0x00 4 0xF0#32)).hostQueue = [.writeReg 0x00 4 0xF0#32] ∧
    (0xF0#32).setWidth 4 = 0x0#4 ∧ 0xA#4 ≤ (0x0A#32).setWidth 4 ∧ 0xA#4 ≤ (0x0F#32).setWidth 4 := by decide

/-- Every error code, reached: for the statements about errors. -/
theorem witness_errors :
    (got (exec .parseOffsets (withWindow cfg []))).map (·.err) = some (some .malformedContainer) ∧
    (got (exec .frameBytes State.reset)).map (·.err) = some (some .indexOutOfRange) ∧
    (got (exec .frameWidth (withWindow cfg []))).map (·.err) = some (some .unexpectedEndOfFrame) ∧
    (got (exec .frameDims (withWindow cfg [0#8]))).map (·.err) = some (some .dimensionMismatch) ∧
    (got (exec .decompress (withWindow { cfg with maxObuf := 1 } [2#8, 1#8, 1#8]))).map (·.err) =
      some (some .capacityExceeded) ∧
    (got (exec .buildContainer (toBuild cfg 4#32 [] []))).map (·.err) = some (some .illegalRequest) ∧
    (got (exec .compressBlock (withWindow cfg [1#8, 0xFF#8]))).map (·.err) = some (some .illegalRequest) ∧
    (got (exec .compressRow (atTheEnd 3#32))).map (·.err) = some (some .illegalRequest) ∧
    (got (exec .encodeFrame (withGrid 2#32 1#32 [5#8]))).map (·.err) = some (some .illegalRequest) ∧
    (got (exec (.illegalOp 0#4) State.reset)).map (·.err) = some (some .illegalRequest) := by decide

/-- A state that meets the invariant, with outputs, a parsed container and written operands. -/
def busy : State :=
  { toBuild cfg 2#32 [5#32, 4#32] frameP1 with
    obuf := [(0, 1#8), (1, 2#8)], outLen := .word 2#32, offt := [(0, 12#32), (1, 20#32)], offtLen := 2#32
    contBase := .word 280#32, contLen := .word 20#32, gridW := 3#32, gridH := 3#32
    hostQueue := [.writeReg 0x00 4 3#32] }

theorem witness_Inv : busy.Inv := by constructor <;> decide

/-- The same inside a replay, whose `pc` is at the end of the window. -/
theorem witness_Inv_in_a_replay : { busy with replay := some (Replay.start .decode 9) }.Inv := by
  constructor <;> decide

theorem witness_reset_Inv : State.reset.Inv ∧ cfg.ok = true := ⟨by constructor <;> decide, by decide⟩

/-- The steps the whole-machine statements are about: from `busy`, and one inside a replay. -/
theorem witness_steps :
    (got (step busy)).map (fun t => (t.err, t.done, t.cmdOp)) = some (none, true, 3#4) ∧ busy.replay = none ∧
    (got (step { busy with replay := some (Replay.start .decode 9) })).isSome ∧
    (got (step { busy with replay := some (Replay.start .width 0) })).map (fun t => t.replay.isSome) = some true := by
  decide +kernel

theorem witness_OperationsEndOnWrittenOperands :
    busy.windowWritten ∧ busy.frameCount = .word 2#32 ∧ (∀ k, k < (2#32).toNat → Memory.read busy.flen k ≠ none) ∧
    busy.inBase.toNat + busy.inLen.toNat ≤ busy.cfg.maxIbuf := by
  refine ⟨?_, rfl, by decide, by decide⟩
  show ∀ k, k < 9 → _
  decide

/-- A replay that begins, and one whose header is cut short. -/
theorem witness_ReplayRunsToTheOperationsOutcome :
    (got (beginReplay .dimsWidth (withWindow cfg frameP1))).map (·.replay) = some (some (Replay.start .dimsWidth 0)) ∧
    (got (beginReplay .width (withWindow cfg [0x20#8]))).map (·.replay) = some none ∧
    (got (Host.Core.run Sys2Proof.core 7 (inReplay .dimsWidth 0 frameP1))) = got (exec .frameDims (withWindow cfg frameP1)) := by
  decide +kernel

theorem witness_StepRunsTheCommandAtPc :
    (inReplay .decode 5 frameP1).replay = some (Replay.start .decode 5) ∧ (Replay.start .decode 5).ended = false ∧
    (inReplay .decode 5 frameP1).window[5]? = some (some 0xFE#8) := by decide

/-- Accesses of each kind pending. -/
theorem witness_host_accesses :
    (State.reset.replay = none ∧ State.reset.hostQueue = []) ∧ (pending (.writeReg 0x40 4 1#32)).replay = none ∧
    (pending (.writeReg 0x00 4 1#32)).hostQueue = [.writeReg 0x00 4 1#32] ∧
    (refusedBy (step (pending (.writeReg 0x40 4 1#32))) = some .badRegisterAccess ∧
      refusedBy (step (pending (.writeReg 0x0A 4 1#32))) = some .badRegisterAccess ∧
      refusedBy (step (pending (.readReg 0x3C 2))) = some .badRegisterAccess) ∧
    (got (step (pending (.writeReg 0x3C 4 1#32)))).isSome ∧
    ((pending (.readReg 0x24 4)).hostQueue = [.readReg RegName.width.offset 4] ∧
      (got (step { pending (.readReg 0x24 4) with width := .word 9#32 })).map (·.busData) = some 9#32) ∧
    (got (step (pending (.readReg 0x3C 4)))).map (·.busData) = some 0#32 ∧
    ((pending (.readMem .obuf 0)).cell .obuf 0 = none ∧ MemName.size cfg .obuf ≤ 300) ∧
    ({ pending (.readMem .obuf 0) with obuf := [(0, 7#8)] }.cell .obuf 0 = some 7#32) := by decide

/-- A register write and the read that gives it back, at the first and the last such register. -/
theorem witness_WritableRegistersReadBack :
    (State.resetWith cfg [.writeReg 0x08 4 7#32, .readReg 0x08 4]).hostQueue = [.writeReg 0x08 4 7#32, .readReg 0x08 4] ∧
    (State.resetWith cfg [.writeReg 0x30 4 7#32, .readReg 0x30 4]).replay = none ∧
    ((got (step (State.resetWith cfg [.writeReg 0x30 4 7#32, .readReg 0x30 4]))).bind (got ∘ step)).map (·.busData) =
      some 7#32 := by decide

/-- An operation's error leaves a register UNSPECIFIED, and BUILD_CONTAINER can meet one as its operand. -/
theorem witness_UnspecifiedRegisterReadsFault :
    ((got (exec .frameWidth (withWindow cfg []))).map (·.width) = some .unspecified) ∧
    { pending (.readReg 0x24 4) with width := .unspecified }.readReg .width = .unspecified ∧
    faulted (step { pending (.readReg 0x24 4) with width := .unspecified }) = some (.unspecifiedRegister .width) ∧
    ((got (exec .parseOffsets (withWindow cfg []))).map (·.frameCount) = some .unspecified) := by decide

/-- Stores that end at the end of a memory, and one past it. -/
theorem witness_HostStores :
    (pending (.writeIbuf 299 [1#8])).cfg.maxIbuf = 299 + [1#8].length ∧
    (pending (.writeIbuf 300 [1#8])).cfg.maxIbuf < 300 + [1#8].length ∧ 2 < cfg.maxFrames ∧ cfg.maxFrames ≤ 3 ∧
    (got (step (pending (.writeFlen 2 9#32)))).map (·.flen) = some [(2, 9#32)] ∧
    refusedBy (step (pending (.writeObuf 0 [1#8]))) = some (.readOnlyMemory .obuf) ∧
    refusedBy (step (pending (.writeOfft 0 1#32))) = some (.readOnlyMemory .offt) := by decide

/-- A block with three bytes in OBUF and a copy pending. -/
def copying (a b d : Nat) : State :=
  { pending (.copy a b d) with obuf := [(0, 9#8), (1, 8#8), (2, 7#8)], outLen := .word 3#32 }

/-- A copy to the last two bytes of IBUF, one byte further, out of OBUF, over a byte with no value, and empty ones at the
ends of the memories and above them (log 19). -/
theorem witness_CopyMovesOutputToInput :
    ((copying 1 3 298).hostQueue = [.copy 1 3 298] ∧ 298 + (3 - 1) ≤ (copying 1 3 298).cfg.maxIbuf ∧
      (∀ k, k < 3 - 1 → Memory.read (copying 1 3 298).obuf (1 + k) = [8#8, 7#8][k]?) ∧
      (got (step (copying 1 3 298))).map (·.ibuf) = some [(298, 8#8), (299, 7#8)]) ∧
    faulted (step (copying 1 3 299)) = some (.noSuchAddress .ibuf) ∧
    faulted (step (copying 299 301 0)) = some (.noSuchAddress .obuf) ∧
    faulted (step (copying 2 4 0)) = some (.unwritten .obuf) ∧
    (got (step (copying 300 1 300)) = some { copying 300 1 300 with hostQueue := [] }) ∧
    faulted (step (copying 301 1 0)) = some (.noSuchAddress .obuf) ∧
    faulted (step (copying 1 1 301)) = some (.noSuchAddress .ibuf) := by
  decide +kernel

/-- A step that changes IBUF, and one that resets the block. -/
theorem witness_ibuf_and_reset :
    (got (step (pending (.writeIbuf 0 [1#8])))).map (·.ibuf) = some [(0, 1#8)] ∧ (pending (.writeIbuf 0 [1#8])).ibuf = [] ∧
    got (step { busy with hostQueue := [.reset, .readReg 0 4] }) = some (State.resetWith cfg [.readReg 0 4]) := by decide

end Sys2Proof.Tests
end

section
/-! SUPPORT. Proofs for 00_scope.md: little-endian words in a window (R21), and reads of UNSPECIFIED registers (R23). -/

namespace Sys2Proof.Proofs.Scope

open Sys2Proof Sys2Proof.Machine

/-! ### Little-endian words (00_scope.md R21) -/

/-- Specified bytes that stand behind `pre` in a window are read at its length plus their index. -/
theorem readByte_append_map_some (pre post : Window) {bs : List Byte} {j : Nat} {b : Byte} (h : bs[j]? = some b) :
    readByte (pre ++ bs.map some ++ post) (pre.length + j) = .ok b := by
  have hj : j < bs.length := (List.getElem?_eq_some_iff.1 h).1
  rw [readByte_ok, List.append_assoc, List.getElem?_append_right (by omega), Nat.add_sub_cancel_left,
    List.getElem?_append_left (by simpa using hj), List.getElem?_map, h, Option.map_some]

/-- A word read at `k` is `LE32` of the four bytes there. -/
theorem readWord_of_readByte {F : Window} {k : Nat} {b0 b1 b2 b3 : Byte} (h0 : readByte F k = .ok b0)
    (h1 : readByte F (k + 1) = .ok b1) (h2 : readByte F (k + 2) = .ok b2) (h3 : readByte F (k + 3) = .ok b3) :
    readWord F k = .ok (le32 b0 b1 b2 b3) := by
  simp only [readWord, h0, h1, h2, h3, bind, Except.bind, pure, Except.pure]

/-- A word's bytes, least significant first, read back as the word at every byte offset. -/
theorem readWord_append_bytesLE32 (v : Word) (pre post : Window) :
    readWord (pre ++ (bytesLE32 v).map some ++ post) pre.length = .ok v := by
  have hbyte (j : Nat) {b : Byte} : (bytesLE32 v)[j]? = some b →
      readByte (pre ++ (bytesLE32 v).map some ++ post) (pre.length + j) = .ok b :=
    readByte_append_map_some pre post
  calc readWord (pre ++ (bytesLE32 v).map some ++ post) pre.length
      _ = .ok (le32 (v.extractLsb' 0 8) (v.extractLsb' 8 8) (v.extractLsb' 16 8) (v.extractLsb' 24 8)) :=
        readWord_of_readByte (hbyte 0 rfl) (hbyte 1 rfl) (hbyte 2 rfl) (hbyte 3 rfl)
      _ = .ok v := congrArg Except.ok (le32_bytesLE32 v)

/-- Four bytes never exceed 32 bits, so the value of `LE32` is R21's sum itself. -/
theorem le32_toNat (b0 b1 b2 b3 : Byte) :
    (le32 b0 b1 b2 b3).toNat = b0.toNat + 256 * b1.toNat + 65536 * b2.toNat + 16777216 * b3.toNat := by
  have h0 := b0.isLt
  have h1 := b1.isLt
  have h2 := b2.isLt
  have h3 := b3.isLt
  rw [le32, BitVec.toNat_ofNat, Nat.mod_eq_of_lt (by omega)]

/-- Settles O6: the four bytes of a word are read one by one behind `pre`, and `LE32` of them is the word. -/
theorem littleEndianWordReadsBack : Obligations.LittleEndianWordReadsBack :=
  ⟨readWord_append_bytesLE32, by decide, le32_toNat⟩

/-! ### UNSPECIFIED registers (00_scope.md R23) -/

/-- A host read of an UNSPECIFIED register faults with its name. -/
theorem hostReadReg_unspecified {s : State} {r : RegName} (h : s.readReg r = .unspecified) :
    hostReadReg r.offset 4 s = .fault (.unspecifiedRegister r) := by
  simp only [hostReadReg, regAt_offset, h, regValue_get_unspecified, returnRead]

/-- A pending access leaves every register as it stands when it is taken from the queue. -/
theorem readReg_hostQueue (s : State) (q : List HostEvent) (r : RegName) :
    State.readReg { s with hostQueue := q } r = s.readReg r := by
  cases r <;> rfl

/-- An operation whose window fits runs its own pseudocode (10_state.md R33). -/
theorem windowOp_of_fits {i : Instr} {s : State} {k : Window → Except Stop State}
    (h : s.inBase.toNat + s.inLen.toNat ≤ s.cfg.maxIbuf) : windowOp i s k = conclude i s (k s.window) :=
  if_pos (decide_eq_true h)

/-- BUILD_CONTAINER reads FRAME_COUNT first, right after the window check (40_indexer.md R148). -/
theorem execBuildContainer_unspecified {s : State} (hw : s.inBase.toNat + s.inLen.toNat ≤ s.cfg.maxIbuf)
    (hc : s.frameCount = .unspecified) : execBuildContainer s = .fault (.unspecifiedRegister .frameCount) := by
  rw [execBuildContainer, windowOp_of_fits hw, hc, regValue_get_unspecified]
  exact conclude_error_fault _ _ _

/-- Settles O56: the host's pending read is the next step, and BUILD_CONTAINER is the operation that has a register an
error can leave UNSPECIFIED as its operand. -/
theorem unspecifiedRegisterReadsFault : Obligations.UnspecifiedRegisterReadsFault := by
  refine ⟨fun s q r hidle hq hr => ?_, fun s hw hc => execBuildContainer_unspecified hw hc⟩
  calc step s
      _ = hostReadReg r.offset 4 { s with hostQueue := q } := step_pending hidle hq
      _ = .fault (.unspecifiedRegister r) := hostReadReg_unspecified ((readReg_hostQueue s q r).trans hr)

end Sys2Proof.Proofs.Scope
end

section
/-! SUPPORT. Proofs for 10_state.md: what one step can do, said once as an inversion of `step`, and from it the
invariant (sections 2 to 4) and the parameters (R60); then reset (R59) and the host's accesses (R31 to R57). -/

namespace Sys2Proof.Proofs.Block

open Sys2Proof Sys2Proof.Machine

/-! ### What an operation's pseudocode leaves -/

/-- A sequence that gives a value has given one at its first part. -/
theorem bind_eq_ok {ε α β : Type} {x : Except ε α} {f : α → Except ε β} {b : β} (h : x >>= f = .ok b) :
    ∃ a, x = .ok a ∧ f a = .ok b := by
  cases x with
  | ok a => exact ⟨a, rfl, h⟩
  | error e => cases h

/-- The states a completed operation can leave from `s`, before ERR and DONE: the results it stores (30_encoding.md R117,
"results written"), with the checks they have passed. -/
inductive Stores (s : State) : State → Prop
  | output (p : List Byte) (fits : p.length ≤ s.cfg.maxObuf) :
    Stores s { s with obuf := Memory.ofList 0 p, outLen := .word (BitVec.ofNat 32 p.length) }
  | width (w : Word) : Stores s { s with width := .word w }
  | dims (p : List Byte) (w h : Word) (fits : p.length ≤ s.cfg.maxObuf) :
    Stores s { s with
      obuf := Memory.ofList 0 p, outLen := .word (BitVec.ofNat 32 p.length), width := .word w, height := .word h }
  | table (n : Word) (offs : List Word) (window : s.windowOk = true) (fits : n.toNat ≤ s.cfg.maxFrames)
      (length : offs.length = n.toNat + 1) :
    Stores s { s with
      offt := Memory.ofList 0 offs, offtLen := BitVec.ofNat 32 (n.toNat + 1), frameCount := .word n
      contBase := .word s.inBase, contLen := .word s.inLen }
  | slice (a n : Word) : Stores s { s with sliceBase := .word a, sliceLen := .word n }

/-- The states in which operation `i` can end: it has stored its results, or entered an error; STATUS.HDR is what a decoder
operation has written by then, or what it was (60_exceptions.md R281, R292). -/
inductive Ends (i : Instr) (s : State) : State → Prop
  | completed (hdr : Bool) {t : State} (stores : Stores { s with hdr := hdr } t) : Ends i s (succeed t)
  | raised (hdr : Bool) (e : Err) : Ends i s (errorEntry i e { s with hdr := hdr })

theorem stores_of_storeOutput {s t : State} {p : List Byte} (h : storeOutput s p = .ok t) : Stores s t := by
  obtain ⟨fits, rfl⟩ := storeOutput_ok h
  exact .output p fits

theorem stores_of_storeWidth {s t : State} {w : Nat} (h : storeWidth s w = .ok t) : Stores s t := by
  obtain ⟨-, rfl⟩ := storeWidth_ok h
  exact .width _

theorem stores_of_storeDims {s t : State} {d : Nat × Nat × List Byte} (h : storeDims s d = .ok t) : Stores s t := by
  obtain ⟨fits, rfl⟩ := storeDims_ok h
  exact .dims _ _ _ fits

/-! ### Every operation ends by its stores or in error entry -/

/-- The end of an operation whose completed pseudocode leaves nothing but its stores. -/
theorem ends_of_conclude {i : Instr} {s t : State} {r : Except Stop State} (h : conclude i s r = .next t)
    (hr : ∀ t', r = .ok t' → Stores s t') : Ends i s t := by
  obtain ⟨t', hok, rfl⟩ | ⟨e, -, rfl⟩ := conclude_next h
  · exact .completed s.hdr (hr t' hok)
  · exact .raised s.hdr e

theorem ends_of_windowOp {i : Instr} {s t : State} {k : Window → Except Stop State} (h : windowOp i s k = .next t)
    (hk : ∀ t', s.windowOk = true → k s.window = .ok t' → Stores s t') : Ends i s t := by
  obtain ⟨-, rfl⟩ | ⟨hw, t', hok, rfl⟩ | ⟨-, e, -, rfl⟩ := windowOp_next h
  · exact .raised s.hdr .illegalRequest
  · exact .completed s.hdr (hk t' hw hok)
  · exact .raised s.hdr e

theorem ends_of_decoderOp {i : Instr} {s t : State} {k : State → Window → Except Stop State}
    (h : decoderOp i s k = .next t) (hk : ∀ u F t', k u F = .ok t' → Stores u t') : Ends i s t := by
  obtain ⟨-, rfl⟩ | ⟨-, hd, -, ⟨t', hok, rfl⟩ | ⟨e, -, rfl⟩⟩ := decoderOp_next h
  · exact .raised s.hdr .illegalRequest
  · exact .completed hd (hk _ _ t' hok)
  · exact .raised hd e

theorem readWords_length {F : Window} {k n : Nat} {ws : List Word} (h : readWords F k n = .ok ws) : ws.length = n := by
  induction n generalizing k ws with
  | zero => cases h; rfl
  | succ n ih =>
    obtain ⟨w, -, h⟩ := bind_eq_ok h
    obtain ⟨vs, hvs, h⟩ := bind_eq_ok h
    cases h
    rw [List.length_cons, ih hvs]

/-- A container with N frames has N + 1 offsets (40_indexer.md R141). -/
theorem parseOffsets_length {C : Window} {n : Word} {offs : List Word} (h : parseOffsets C = .ok (n, offs)) :
    offs.length = n.toNat + 1 := by
  unfold parseOffsets at h
  split at h
  · cases h
  · obtain ⟨m, -, h⟩ := bind_eq_ok h
    split at h
    · cases h
    · obtain ⟨ws, hws, h⟩ := bind_eq_ok h
      cases h
      exact readWords_length hws

theorem execParseOffsets_ends {s t : State} (h : execParseOffsets s = .next t) : Ends .parseOffsets s t := by
  refine ends_of_windowOp h fun t' hw hk => ?_
  obtain ⟨⟨n, offs⟩, hp, hk⟩ := bind_eq_ok hk
  dsimp only at hk
  split at hk
  · cases hk
  · cases hk
    exact .table n offs hw (by omega) (parseOffsets_length hp)

theorem execFrameBytes_ends {s t : State} (h : execFrameBytes s = .next t) : Ends .frameBytes s t := by
  refine ends_of_conclude h fun t' hk => ?_
  obtain ⟨⟨a, n⟩, -, hk⟩ := bind_eq_ok hk
  obtain ⟨base, -, hk⟩ := bind_eq_ok hk
  cases hk
  exact .slice _ _

theorem execBuildContainer_ends {s t : State} (h : execBuildContainer s = .next t) : Ends .buildContainer s t := by
  refine ends_of_windowOp h fun t' _ hk => ?_
  obtain ⟨n, -, hk⟩ := bind_eq_ok hk
  split at hk
  · cases hk
  · obtain ⟨lens, -, hk⟩ := bind_eq_ok hk
    split at hk
    · cases hk
    · obtain ⟨frames, -, hk⟩ := bind_eq_ok hk
      split at hk
      · cases hk
      · exact stores_of_storeOutput hk

theorem execFrameWidth_ends {s t : State} (h : execFrameWidth s = .next t) : Ends .frameWidth s t := by
  refine ends_of_decoderOp h fun u F t' hk => ?_
  obtain ⟨w, -, hk⟩ := bind_eq_ok hk
  exact stores_of_storeWidth hk

theorem execDecompress_ends {s t : State} (h : execDecompress s = .next t) : Ends .decompress s t := by
  refine ends_of_decoderOp h fun u F t' hk => ?_
  obtain ⟨p, -, hk⟩ := bind_eq_ok hk
  exact stores_of_storeOutput hk

theorem execFrameDims_ends {s t : State} (h : execFrameDims s = .next t) : Ends .frameDims s t := by
  refine ends_of_decoderOp h fun u F t' hk => ?_
  obtain ⟨d, -, hk⟩ := bind_eq_ok hk
  exact stores_of_storeDims hk

theorem execCompressBlock_ends {s t : State} (h : execCompressBlock s = .next t) : Ends .compressBlock s t := by
  refine ends_of_windowOp h fun t' _ hk => ?_
  obtain ⟨B, -, hk⟩ := bind_eq_ok hk
  obtain ⟨out, -, hk⟩ := bind_eq_ok hk
  exact stores_of_storeOutput hk

theorem execCompressRow_ends {s t : State} (h : execCompressRow s = .next t) : Ends .compressRow s t := by
  refine ends_of_windowOp h fun t' _ hk => ?_
  obtain ⟨R, -, hk⟩ := bind_eq_ok hk
  obtain ⟨out, -, hk⟩ := bind_eq_ok hk
  exact stores_of_storeOutput hk

theorem execEncodeFrame_ends {s t : State} (h : execEncodeFrame s = .next t) : Ends .encodeFrame s t := by
  refine ends_of_windowOp h fun t' _ hk => ?_
  split at hk
  · cases hk
  · obtain ⟨G, -, hk⟩ := bind_eq_ok hk
    obtain ⟨out, -, hk⟩ := bind_eq_ok hk
    exact stores_of_storeOutput hk

theorem execIllegalOp_ends {op : BitVec 4} {s t : State} (h : execIllegalOp op s = .next t) :
    Ends (.illegalOp op) s t :=
  ends_of_conclude h fun _ hk => by cases hk

/-- Every operation that ends has stored its results or entered an error. -/
theorem exec_ends {i : Instr} {s t : State} (hi : i.isCommand = false) (h : exec i s = .next t) : Ends i s t := by
  cases i with
  | lit n => cases hi
  | endRun => cases hi
  | litMax => cases hi
  | trnMax => cases hi
  | trn n => cases hi
  | parseOffsets => exact execParseOffsets_ends h
  | frameBytes => exact execFrameBytes_ends h
  | buildContainer => exact execBuildContainer_ends h
  | frameWidth => exact execFrameWidth_ends h
  | decompress => exact execDecompress_ends h
  | frameDims => exact execFrameDims_ends h
  | compressBlock => exact execCompressBlock_ends h
  | compressRow => exact execCompressRow_ends h
  | encodeFrame => exact execEncodeFrame_ends h
  | illegalOp op => exact execIllegalOp_ends h

/-- Every request word names an operation, never a command of a frame (30_encoding.md R117, R118). -/
theorem decodeRequest_isCommand (v : Word) : (decodeRequest v).isCommand = false := by
  unfold decodeRequest
  split <;> rfl

/-! ### What one step inside a replay can do -/

/-- A step inside a replay goes on with `pc` inside the window, or the replay's operation ends (10_state.md R51, R58). -/
inductive ReplayGoes (r : Replay) (s : State) : State → Prop
  | on (r' : Replay) (inside : r'.pc ≤ s.inLen.toNat) : ReplayGoes r s { s with replay := some r' }
  | ended {t : State} (ends : Ends r.task.op s t) : ReplayGoes r s t

/-- A command whose run stays inside the window keeps `pc` there, or ends its operation in an error. -/
theorem replayGoes_of_commandStep {run : Window → Nat → Except Stop CmdResult} {r : Replay} {s t : State}
    (hr : s.replay = some r) (hrun : ∀ c, run s.window r.pc = .ok c → c.next ≤ s.window.length)
    (h : commandStep run s = .next t) : ReplayGoes r s t := by
  obtain ⟨r', hr', hc⟩ := commandStep_next h
  obtain rfl : r = r' := Option.some.inj (hr.symm.trans hr')
  obtain ⟨c, hok, rfl⟩ | ⟨e, -, rfl⟩ := hc
  · exact .on _ (by simpa using hrun c hok)
  · exact .ended (.raised s.hdr e)

theorem litRun_inside {n pc : Nat} {F : Window} {c : CmdResult} (h : litRun n F pc = .ok c) : c.next ≤ F.length := by
  obtain ⟨hlen, px, -, rfl⟩ := litRun_ok h
  exact hlen

theorem trnRun_inside {n pc : Nat} {F : Window} {c : CmdResult} (hpc : pc < F.length) (h : trnRun n F pc = .ok c) :
    c.next ≤ F.length := by
  cases h
  exact hpc

/-- The command of a byte of the window runs inside the window (41_decoder.md R189). -/
theorem replayGoes_of_command {c : Byte} {r : Replay} {s t : State} (hr : s.replay = some r)
    (hpc : r.pc < s.window.length) (h : exec (decodeCommand c) s = .next t) : ReplayGoes r s t := by
  unfold decodeCommand at h
  split at h
  · split at h <;> exact replayGoes_of_commandStep hr (fun _ => trnRun_inside hpc) h
  · split at h
    · exact replayGoes_of_commandStep hr (fun _ => litRun_inside) h
    · split at h <;> exact replayGoes_of_commandStep hr (fun _ => litRun_inside) h

/-- The first command stands inside the window, or at its end (41_decoder.md R182). -/
theorem cmdStart_le {rule : HdrRule} {F : Window} {pc : Nat} (h : cmdStart rule F = .ok pc) : pc ≤ F.length := by
  obtain ⟨hd, -, h⟩ := bind_eq_ok h
  split at h
  · split at h
    · cases h
    · cases h; omega
  · cases h; omega

/-- What follows a replay that is over: the end of its operation, or the second replay of FRAME_DIMS. -/
theorem replayGoes_of_finishReplay {r : Replay} {s t : State} (h : finishReplay r s = .next t) : ReplayGoes r s t := by
  obtain ⟨task, pc, acc, ended, out⟩ := r
  cases task with
  | width =>
    refine .ended (ends_of_conclude h fun t' hk => ?_)
    dsimp only at hk
    split at hk
    · exact stores_of_storeWidth hk
    · cases hk
  | decode => exact .ended (ends_of_conclude h fun _ => stores_of_storeOutput)
  | dimsWidth =>
    unfold finishReplay at h
    dsimp only at h
    split at h
    · split at h
      · exact .ended (ends_of_conclude h fun _ hk => by cases hk)
      · rename_i pc' hpc
        cases h
        exact .on _ (by simpa using cmdStart_le hpc)
    · exact .ended (ends_of_conclude h fun _ hk => by cases hk)
  | dimsDecode w =>
    refine .ended (ends_of_conclude h fun t' hk => ?_)
    obtain ⟨d, -, hk⟩ := bind_eq_ok hk
    exact stores_of_storeDims hk

theorem replayStep_goes {r : Replay} {s t : State} (hr : s.replay = some r) (h : replayStep r s = .next t) :
    ReplayGoes r s t := by
  unfold replayStep at h
  split at h
  · exact replayGoes_of_finishReplay h
  · split at h
    · rename_i hc
      exact replayGoes_of_command hr (List.getElem?_eq_some_iff.1 (readByte_ok.1 hc)).1 h
    · cases h
      exact .ended (.raised s.hdr _)
    · cases h

/-! ### What one access of the host can do -/

/-- The states one access of the host can leave: the end of an operation it started, a register, IBUF, FLEN or the value
read written, or the reset state (10_state.md R49 to R59). -/
inductive HostActs (s : State) : State → Prop
  | request (v : Word) {t : State} (ends : Ends (decodeRequest v) (s.startOp v) t) : HostActs s t
  | register (r : RegName) (v : Word) : HostActs s (s.writeReg r v)
  | read (v : Word) : HostActs s { s with busData := v }
  | ibuf (a : Nat) (bytes : List Byte) (fits : a + bytes.length ≤ s.cfg.maxIbuf) :
    HostActs s { s with ibuf := Memory.writeAll s.ibuf a bytes }
  | flen (k : Nat) (v : Word) (fits : k < s.cfg.maxFrames) : HostActs s { s with flen := Memory.write s.flen k v }
  | reset : HostActs s (State.resetWith s.cfg s.hostQueue)

theorem hostWriteReg_acts {offset width : Nat} {v : Word} {s t : State} (h : hostWriteReg offset width v s = .next t) :
    HostActs s t := by
  unfold hostWriteReg at h
  split at h
  · cases h
  · exact .request v (exec_ends (decodeRequest_isCommand v) h)
  · cases h
    exact .register _ v

theorem hostStep_acts {e : HostEvent} {s t : State} (h : hostStep e s = .next t) : HostActs s t := by
  cases e with
  | writeReg offset width v => exact hostWriteReg_acts h
  | readReg offset width =>
    obtain ⟨r, v, -, -, rfl⟩ := hostReadReg_next h
    exact .read v
  | writeIbuf a bytes =>
    obtain ⟨fits, rfl⟩ := hostWriteIbuf_next.1 h
    exact .ibuf a bytes fits
  | writeFlen k v =>
    obtain ⟨fits, rfl⟩ := hostWriteFlen_next.1 h
    exact .flen k v fits
  | writeObuf a bytes => cases h
  | writeOfft k v => cases h
  | readMem m a =>
    obtain ⟨-, v, -, rfl⟩ := hostReadMem_next h
    exact .read v
  | copy a b d =>
    obtain ⟨-, bytes, hbytes, fits, rfl⟩ := hostCopy_next.1 h
    exact .ibuf d bytes ((readBytes_eq_some.1 hbytes).1 ▸ fits)
  | reset =>
    cases h
    exact .reset

/-! ### What one step can do -/

/-- One step: a step of the running replay, the host's oldest access, or nothing (60_exceptions.md R291). -/
inductive Steps (s : State) : State → Prop
  | replay (r : Replay) {t : State} (running : s.replay = some r) (goes : ReplayGoes r s t) : Steps s t
  | host (e : HostEvent) (q : List HostEvent) {t : State} (idle : s.replay = none) (pending : s.hostQueue = e :: q)
      (acts : HostActs { s with hostQueue := q } t) : Steps s t
  | hold (idle : s.replay = none) (nothing : s.hostQueue = []) : Steps s s

/-- Said once for every later proof: a step that goes on is one of these. -/
theorem step_cases {s t : State} (h : step s = .next t) : Steps s t := by
  cases hr : s.replay with
  | some r =>
    rw [step, hr] at h
    exact .replay r hr (replayStep_goes hr h)
  | none =>
    cases hq : s.hostQueue with
    | nil =>
      rw [step, hr, idleStep, hq] at h
      cases h
      exact .hold hr hq
    | cons e q =>
      rw [step_pending hr hq] at h
      exact .host e q hr hq (hostStep_acts h)

/-! ### The parameters (10_state.md R60) -/

theorem Stores.cfg_eq {s t : State} (h : Stores s t) : t.cfg = s.cfg := by
  cases h <;> rfl

theorem Ends.cfg_eq {i : Instr} {s t : State} (h : Ends i s t) : t.cfg = s.cfg := by
  cases h with
  | completed hdr stores => exact stores.cfg_eq
  | raised hdr e => rfl

theorem ReplayGoes.cfg_eq {r : Replay} {s t : State} (h : ReplayGoes r s t) : t.cfg = s.cfg := by
  cases h with
  | on r' inside => rfl
  | ended ends => exact ends.cfg_eq

theorem HostActs.cfg_eq {s t : State} (h : HostActs s t) : t.cfg = s.cfg := by
  cases h with
  | request v ends => exact ends.cfg_eq
  | register r v => exact writeReg_keeps_cfg s r v
  | read v => rfl
  | ibuf a bytes fits => rfl
  | flen k v fits => rfl
  | reset => rfl

/-- Settles O45: whatever the step does, no store of it reaches the parameters. -/
theorem parametersNeverChange : Obligations.ParametersNeverChange := by
  intro s t h
  cases step_cases h with
  | replay r running goes => exact goes.cfg_eq
  | host e q idle pending acts => exact acts.cfg_eq
  | hold idle nothing => rfl

/-! ### The invariant (10_state.md sections 2 to 4) -/

theorem Stores.replay_eq {s t : State} (h : Stores s t) : t.replay = s.replay := by
  cases h <;> rfl

/-- An operation's end leaves no sequencer state (10_state.md R58). -/
theorem Ends.replay_eq {i : Instr} {s t : State} (h : Ends i s t) : t.replay = none := by
  cases h <;> rfl

/-- OBUF's exactness is a matter of OBUF, OUT_LEN and MAX_OBUF alone. -/
theorem outputExact_of_eq {s t : State} (h : s.outputExact = true) (hc : t.cfg = s.cfg) (hb : t.obuf = s.obuf)
    (ho : t.outLen = s.outLen) : t.outputExact = true := by
  rw [← h]
  simp only [State.outputExact, hc, hb, ho]

/-- The container's place is a matter of OFFT_LEN, CONT_BASE, CONT_LEN and MAX_IBUF alone. -/
theorem containerInside_of_eq {s t : State} (h : s.containerInside = true) (hc : t.cfg = s.cfg)
    (ho : t.offtLen = s.offtLen) (hb : t.contBase = s.contBase) (hl : t.contLen = s.contLen) :
    t.containerInside = true := by
  rw [← h]
  simp only [State.containerInside, hc, ho, hb, hl]

theorem replayInside_of_none {s : State} (h : s.replay = none) : s.replayInside = true := by
  rw [State.replayInside, h]

/-- The output of an operation whose capacity check has passed. -/
theorem outputExact_ofList {s : State} {p : List Byte} (hc : s.cfg.ok = true) (fits : p.length ≤ s.cfg.maxObuf)
    (hb : s.obuf = Memory.ofList 0 p) (ho : s.outLen = .word (BitVec.ofNat 32 p.length)) : s.outputExact = true := by
  simp only [Config.ok, u32Max, Bool.and_eq_true, decide_eq_true_eq] at hc
  have hn : (BitVec.ofNat 32 p.length).toNat = p.length := by
    rw [BitVec.toNat_ofNat, Nat.mod_eq_of_lt (by omega)]
  simp [State.outputExact, ho, hb, hn, keys_ofList_zero, fits]

/-- The offset table of a container whose frames MAX_FRAMES admits. -/
theorem tableExact_ofList {s : State} {n : Nat} {offs : List Word} (hc : s.cfg.ok = true) (fits : n ≤ s.cfg.maxFrames)
    (hl : offs.length = n + 1) (ht : s.offt = Memory.ofList 0 offs) (ho : s.offtLen = BitVec.ofNat 32 (n + 1)) :
    s.tableExact = true := by
  simp only [Config.ok, Bool.and_eq_true, decide_eq_true_eq] at hc
  have hn : (BitVec.ofNat 32 (n + 1)).toNat = n + 1 := by
    rw [BitVec.toNat_ofNat, Nat.mod_eq_of_lt (by omega)]
  simp [State.tableExact, ho, ht, hn, keys_ofList_zero, hl, fits]

theorem Stores.inv {s t : State} (h : Stores s t) (hs : s.Inv) : t.Inv := by
  cases h with
  | output p fits =>
    exact { hs with obufForm := wf_ofList p fits, output := outputExact_ofList hs.cfgOk fits rfl rfl }
  | width w => exact { hs with }
  | dims p w h fits =>
    exact { hs with obufForm := wf_ofList p fits, output := outputExact_ofList hs.cfgOk fits rfl rfl }
  | table n offs window fits length =>
    exact { hs with
      offtForm := wf_ofList offs (length.trans_le (Nat.succ_le_succ fits))
      table := tableExact_ofList hs.cfgOk fits length rfl rfl
      container := Bool.or_eq_true_iff.2 (.inr window) }
  | slice a n => exact { hs with }

theorem succeed_inv {s : State} (hs : s.Inv) : (succeed s).Inv :=
  { hs with replay := rfl }

/-- An operation writes OBUF exactly if it writes OUT_LEN (30_encoding.md R117). -/
theorem obuf_mem_resultsOf (i : Instr) : .obuf ∈ resultsOf i ↔ .outLen ∈ resultsOf i := by
  cases i <;> simp [resultsOf]

/-- Only PARSE_OFFSETS writes the offset table, and with it the container's place (30_encoding.md R117). -/
theorem table_not_mem_resultsOf {i : Instr} (h : i ≠ .parseOffsets) :
    .offt ∉ resultsOf i ∧ .contBase ∉ resultsOf i ∧ .contLen ∉ resultsOf i := by
  cases i with
  | parseOffsets => exact absurd rfl h
  | _ => simp [resultsOf]

theorem errorEntry_obufForm (i : Instr) (e : Err) {s : State} (hs : s.Inv) :
    Memory.wf s.cfg.maxObuf (errorEntry i e s).obuf = true := by
  by_cases h : .obuf ∈ resultsOf i
  · simp [h]
  · simpa [h] using hs.obufForm

/-- An error keeps OBUF and OUT_LEN or loses both (60_exceptions.md R281). -/
theorem errorEntry_output (i : Instr) (e : Err) {s : State} (hs : s.Inv) : (errorEntry i e s).outputExact = true := by
  by_cases h : .outLen ∈ resultsOf i
  · simp [State.outputExact, h, (obuf_mem_resultsOf i).2 h]
  · have hb := (obuf_mem_resultsOf i).not.2 h
    exact outputExact_of_eq hs.output rfl (memory_lost_of_not_mem hb) (lost_of_not_mem h)

/-- A failed PARSE_OFFSETS leaves the empty table; any other error keeps the table and the container (60_exceptions.md
R281). -/
theorem errorEntry_inv (i : Instr) (e : Err) {s : State} (hs : s.Inv) : (errorEntry i e s).Inv := by
  by_cases h : i = .parseOffsets
  · subst h
    exact { hs with offtForm := rfl, table := rfl, container := rfl, replay := rfl }
  · obtain ⟨ho, hb, hl⟩ := table_not_mem_resultsOf h
    exact { hs with
      obufForm := errorEntry_obufForm i e hs
      output := errorEntry_output i e hs
      offtForm := by simpa [ho] using hs.offtForm
      table := by simpa [State.tableExact, ho, h] using hs.table
      container := containerInside_of_eq hs.container rfl (if_neg h) (lost_of_not_mem hb) (lost_of_not_mem hl)
      replay := rfl }

theorem Ends.inv {i : Instr} {s t : State} (h : Ends i s t) (hs : s.Inv) : t.Inv := by
  cases h with
  | completed hdr stores => exact succeed_inv (stores.inv { hs with })
  | raised hdr e => exact errorEntry_inv i e { hs with }

/-- A running replay has passed the window check, so any replay with `pc` inside may take its place. -/
theorem ReplayGoes.inv {r : Replay} {s t : State} (h : ReplayGoes r s t) (hr : s.replay = some r) (hs : s.Inv) :
    t.Inv := by
  cases h with
  | on r' inside =>
    have hw := hs.replay
    simp only [State.replayInside, hr, Bool.and_eq_true] at hw
    exact { hs with replay := Bool.and_eq_true_iff.2 ⟨hw.1, decide_eq_true inside⟩ }
  | ended ends => exact ends.inv hs

/-- Between operations a register write cannot move a running replay's window. -/
theorem writeReg_inv {s : State} (hidle : s.replay = none) (r : RegName) (v : Word) (hs : s.Inv) :
    (s.writeReg r v).Inv := by
  have hin := replayInside_of_none (s := s.writeReg r v) (by rw [writeReg_keeps_replay, hidle])
  cases r with
  | inBase => exact { hs with replay := hin }
  | inLen => exact { hs with replay := hin }
  | _ => exact { hs with }

theorem resetWith_inv {c : Config} (q : List HostEvent) (hc : c.ok = true) : (State.resetWith c q).Inv :=
  { cfgOk := hc, ibufForm := rfl, obufForm := rfl, offtForm := rfl, flenForm := rfl
    output := rfl, table := rfl, container := rfl, replay := rfl }

theorem HostActs.inv {s t : State} (h : HostActs s t) (hidle : s.replay = none) (hs : s.Inv) : t.Inv := by
  cases h with
  | request v ends => exact ends.inv { hs with }
  | register r v => exact writeReg_inv hidle r v hs
  | read v => exact { hs with }
  | ibuf a bytes fits => exact { hs with ibufForm := wf_writeAll bytes hs.ibufForm fits }
  | flen k v fits => exact { hs with flenForm := wf_write v hs.flenForm fits }
  | reset => exact resetWith_inv s.hostQueue hs.cfgOk

/-- Settles O44: by the cases of a step; a replay keeps `pc` inside its window, an operation's end stores exact memories
or loses them with their lengths, and the host writes inside its memories. -/
theorem stepKeepsTheInvariant : Obligations.StepKeepsTheInvariant := by
  intro s t hs h
  cases step_cases h with
  | replay r running goes => exact goes.inv running hs
  | host e q idle pending acts => exact acts.inv idle { hs with }
  | hold idle nothing => exact hs

/-! ### Reset (10_state.md R59) and commands outside a replay (R50) -/

theorem resetWith_readReg (c : Config) (q : List HostEvent) (r : RegName) :
    (State.resetWith c q).readReg r = .word 0#32 := by
  cases r with
  | status =>
    have hzero : 0#26 ++ BitVec.ofBool false ++ BitVec.ofBool false ++ 0#4 = 0#32 := by decide
    exact congrArg RegValue.word hzero
  | _ => rfl

theorem resetWith_cell (c : Config) (q : List HostEvent) (m : MemName) (a : Nat) :
    (State.resetWith c q).cell m a = none := by
  cases m <;> rfl

/-- Settles O42: State.reset is the reset state of its parameters, and every reset state reads 0 and holds no cell. -/
theorem resetValues : Obligations.ResetValues :=
  ⟨resetWith_readReg _ _, resetWith_cell _ _, rfl, fun c q => ⟨resetWith_readReg c q, resetWith_cell c q, rfl⟩⟩

/-- Settles O43: the parameters of State.reset are admitted, and the reset state of admitted parameters is exact. -/
theorem resetMeetsTheInvariant : Obligations.ResetMeetsTheInvariant :=
  ⟨resetWith_inv _ (by decide), rfl, rfl, fun _ q hc => resetWith_inv q hc⟩

theorem commandStep_idle (run : Window → Nat → Except Stop CmdResult) {s : State} (h : s.replay = none) :
    commandStep run s = .refused .noReplay := by
  rw [commandStep, h]

/-- Settles O9: each of the five commands is a step of the running replay. -/
theorem commandOutsideAReplayIsRefused : Obligations.CommandOutsideAReplayIsRefused := by
  intro i s hi hs
  cases i with
  | lit n => exact commandStep_idle (litRun n) hs
  | endRun => exact commandStep_idle (litRun 0) hs
  | litMax => exact commandStep_idle (litRun litMaxRun) hs
  | trnMax => exact commandStep_idle (trnRun trnMaxRun) hs
  | trn n => exact commandStep_idle (trnRun n) hs
  | _ => cases hi

/-! ### Register reads (10_state.md R31 to R49) -/

/-- Bits 0 to 3, 4, 5 and 6 to 31 of a word put together as STATUS is (10_state.md R36). -/
theorem statusWord_fields (e : BitVec 4) (d h : Bool) :
    (0#26 ++ BitVec.ofBool h ++ BitVec.ofBool d ++ e).extractLsb' 0 4 = e ∧
    (0#26 ++ BitVec.ofBool h ++ BitVec.ofBool d ++ e).getLsbD 4 = d ∧
    (0#26 ++ BitVec.ofBool h ++ BitVec.ofBool d ++ e).getLsbD 5 = h ∧
    (0#26 ++ BitVec.ofBool h ++ BitVec.ofBool d ++ e).extractLsb' 6 26 = 0#26 := by
  revert e d h
  decide

/-- CMD holds OP in bits 0 to 3 and nothing above (10_state.md R32). -/
theorem cmdWord_fields : ∀ op : BitVec 4,
    (op.setWidth 32).extractLsb' 0 4 = op ∧ (op.setWidth 32).extractLsb' 4 28 = 0#28 := by
  decide

/-- Settles O51: the fields are those of the two words; every other register is read as it is. -/
theorem statusAndCmdFields : Obligations.StatusAndCmdFields := by
  intro s
  obtain ⟨herr, hdone, hhdr, hreserved⟩ := statusWord_fields (errCode s.err) s.done s.hdr
  exact ⟨rfl, herr, hdone, hhdr, hreserved, ⟨_, rfl, cmdWord_fields s.cmdOp⟩,
    rfl, rfl, rfl, rfl, rfl, rfl, rfl, rfl, rfl, rfl, rfl, rfl, rfl, rfl⟩

/-- No register depends on the host's accesses still to come or on what its last read returned (logs 7, 8). -/
theorem readReg_of_host_fields (s : State) (q : List HostEvent) (u : Word) (r : RegName) :
    State.readReg { s with hostQueue := q, busData := u } r = s.readReg r := by
  cases r <;> rfl

theorem cell_of_host_fields (s : State) (q : List HostEvent) (u : Word) (m : MemName) (a : Nat) :
    State.cell { s with hostQueue := q, busData := u } m a = s.cell m a := by
  cases m <;> rfl

theorem hostReadReg_word {offset width : Nat} {s : State} {r : RegName} {v : Word} (hr : regAt offset width = some r)
    (hv : s.readReg r = .word v) : hostReadReg offset width s = .next { s with busData := v } := by
  simp only [hostReadReg, hr, hv, regValue_get_word, returnRead]

theorem hostReadMem_value {m : MemName} {a : Nat} {s : State} {v : Word} (ha : a < m.size s.cfg)
    (hv : s.cell m a = some v) : hostReadMem m a s = .next { s with busData := v } := by
  simp only [hostReadMem, Nat.not_le.2 ha, if_false, hv]

/-- A read of a register changes `busData` alone, and the same read next returns the same value. -/
theorem hostReadReg_again {offset width : Nat} {s t : State} (h : hostReadReg offset width s = .next t) :
    t = { s with busData := t.busData } ∧
      ∀ q, hostReadReg offset width { t with hostQueue := q } = .next { t with hostQueue := q } := by
  obtain ⟨r, v, hr, hv, rfl⟩ := hostReadReg_next h
  exact ⟨rfl, fun q => hostReadReg_word hr ((readReg_of_host_fields s q v r).trans hv)⟩

/-- A read of a cell changes `busData` alone, and the same read next returns the same value. -/
theorem hostReadMem_again {m : MemName} {a : Nat} {s t : State} (h : hostReadMem m a s = .next t) :
    t = { s with busData := t.busData } ∧
      ∀ q, hostReadMem m a { t with hostQueue := q } = .next { t with hostQueue := q } := by
  obtain ⟨ha, v, hv, rfl⟩ := hostReadMem_next h
  exact ⟨rfl, fun q => hostReadMem_value ha ((cell_of_host_fields s q v m a).trans hv)⟩

theorem hostStep_read_again {e : HostEvent} {s t : State}
    (he : (∃ off width, e = .readReg off width) ∨ (∃ m a, e = .readMem m a)) (h : hostStep e s = .next t) :
    t = { s with busData := t.busData } ∧
      ∀ q, hostStep e { t with hostQueue := q } = .next { t with hostQueue := q } := by
  obtain ⟨off, width, rfl⟩ | ⟨m, a, rfl⟩ := he
  · exact hostReadReg_again h
  · exact hostReadMem_again h

/-- Settles O54: a read that goes on returns a register's or a cell's value, which no read changes. -/
theorem hostReadsAreIdempotent : Obligations.HostReadsAreIdempotent := by
  refine ⟨rfl, fun s q r v hidle hq hv => ?_, fun s t e q hidle hq he h => ?_⟩
  · exact (step_pending hidle hq).trans
      (hostReadReg_word (regAt_offset r) ((readReg_of_host_fields s q s.busData r).trans hv))
  · obtain ⟨ht, hagain⟩ := hostStep_read_again he ((step_pending hidle hq).symm.trans h)
    refine ⟨ht, fun q' => (step_pending ?_ rfl).trans (hagain q')⟩
    rw [ht]
    exact hidle

/-! ### Register writes (10_state.md R31, R49) -/

/-- The registers the host only reads (10_state.md R31). -/
def readOnlyRegs : List RegName :=
  [.status, .outLen, .sliceBase, .sliceLen, .width, .height, .contBase, .contLen, .offtLen]

/-- The registers the host reads and writes, other than CMD (10_state.md R31). -/
def readWriteRegs : List RegName := [.inBase, .inLen, .frameCount, .idx, .gridW, .gridH]

theorem ne_cmd_of_mem_readOnlyRegs {r : RegName} (h : r ∈ readOnlyRegs) : r ≠ .cmd := by
  rintro rfl
  exact absurd h (by decide)

theorem ne_cmd_of_mem_readWriteRegs {r : RegName} (h : r ∈ readWriteRegs) : r ≠ .cmd := by
  rintro rfl
  exact absurd h (by decide)

theorem writeReg_readOnly {r : RegName} (h : r ∈ readOnlyRegs) (s : State) (v : Word) : s.writeReg r v = s := by
  cases r with
  | inBase | inLen | frameCount | idx | gridW | gridH => exact absurd h (by decide)
  | _ => rfl

theorem readReg_writeReg_self {r : RegName} (h : r ∈ readWriteRegs) (s : State) (v : Word) :
    (s.writeReg r v).readReg r = .word v := by
  cases r with
  | inBase | inLen | frameCount | idx | gridW | gridH => rfl
  | _ => exact absurd h (by decide)

theorem ofOffset_eq_some {off : Nat} {r : RegName} (h : RegName.ofOffset off = some r) : off = r.offset := by
  unfold RegName.ofOffset at h
  split at h <;> cases h <;> rfl

theorem offset_defined (r : RegName) : r.offset % 4 = 0 ∧ r.offset ≤ 0x3C := by
  cases r <;> decide

/-- No register stands at a width other than 4, off the multiples of 4 or above 0x3C (10_state.md R49). -/
theorem regAt_undefined {off width : Nat} (h : width ≠ 4 ∨ off % 4 ≠ 0 ∨ 0x3C < off) : regAt off width = none := by
  unfold regAt
  split
  · rename_i hw
    refine Option.eq_none_iff_forall_ne_some.2 fun r hr => ?_
    have := offset_defined r
    rw [← ofOffset_eq_some hr] at this
    omega
  · rfl

theorem hostReadReg_undefined {off width : Nat} (h : regAt off width = none) (s : State) :
    hostReadReg off width s = .refused .badRegisterAccess := by
  simp only [hostReadReg, h]

theorem hostWriteReg_undefined {off width : Nat} (h : regAt off width = none) (v : Word) (s : State) :
    hostWriteReg off width v s = .refused .badRegisterAccess := by
  simp only [hostWriteReg, h]

/-- A write at the offset of a register other than CMD is the register's write. -/
theorem hostWriteReg_offset {r : RegName} (h : r ≠ .cmd) (v : Word) (s : State) :
    hostWriteReg r.offset 4 v s = .next (s.writeReg r v) := by
  cases r with
  | cmd => exact absurd rfl h
  | _ => rfl

/-- Settles O52: an access reaches a register only at an offset of R31, and the nine offsets are the read-only ones. -/
theorem undefinedAndIgnoredRegisterAccesses : Obligations.UndefinedAndIgnoredRegisterAccesses := by
  refine ⟨fun s q off width v hidle hq hbad => ?_, fun s q off v hidle hq hoff => ?_⟩
  · obtain hq | hq := hq
    · exact (step_pending hidle hq).trans (hostWriteReg_undefined (regAt_undefined hbad) v _)
    · exact (step_pending hidle hq).trans (hostReadReg_undefined (regAt_undefined hbad) _)
  · obtain ⟨r, hr, rfl⟩ : ∃ r ∈ readOnlyRegs, r.offset = off := List.mem_map.1 hoff
    calc step s
        _ = hostWriteReg r.offset 4 v { s with hostQueue := q } := step_pending hidle hq
        _ = .next (State.writeReg { s with hostQueue := q } r v) :=
          hostWriteReg_offset (ne_cmd_of_mem_readOnlyRegs hr) v _
        _ = .next { s with hostQueue := q } := congrArg _ (writeReg_readOnly hr _ v)

/-- The whole state after a register's write, by its offset: no offset but the six read-write ones changes it. -/
theorem writeReg_eq (s : State) (r : RegName) (v : Word) : s.writeReg r v =
    { s with
      inBase := if r.offset = 0x08 then v else s.inBase
      inLen := if r.offset = 0x0C then v else s.inLen
      frameCount := if r.offset = 0x14 then .word v else s.frameCount
      idx := if r.offset = 0x18 then v else s.idx
      gridW := if r.offset = 0x2C then v else s.gridW
      gridH := if r.offset = 0x30 then v else s.gridH } := by
  cases r <;> rfl

/-- The read of a read-write register just written returns the value and changes nothing more. -/
theorem step_read_after_writeReg {s : State} {q : List HostEvent} {r : RegName} (hr : r ∈ readWriteRegs)
    (hidle : s.replay = none) (hq : s.hostQueue = .readReg r.offset 4 :: q) (v : Word) :
    step (s.writeReg r v) = .next { s.writeReg r v with hostQueue := q, busData := v } :=
  (step_pending ((writeReg_keeps_replay s r v).trans hidle) ((writeReg_keeps_hostQueue s r v).trans hq)).trans
    (hostReadReg_word (regAt_offset r)
      ((readReg_of_host_fields _ q (s.writeReg r v).busData r).trans (readReg_writeReg_self hr s v)))

/-- Settles O53: the six offsets are the read-write registers', and the read after the write changes `busData` alone. -/
theorem writableRegistersReadBack : Obligations.WritableRegistersReadBack := by
  intro s q off v hidle hoff hq
  obtain ⟨r, hr, rfl⟩ : ∃ r ∈ readWriteRegs, r.offset = off := List.mem_map.1 hoff
  refine ⟨_, (step_pending hidle hq).trans (hostWriteReg_offset (ne_cmd_of_mem_readWriteRegs hr) v _), ?_⟩
  rw [step_read_after_writeReg (s := { s with hostQueue := .readReg r.offset 4 :: q }) hr hidle rfl, writeReg_eq]

/-! ### Host stores (10_state.md R54 to R57) -/

theorem hostWriteIbuf_outside {a : Nat} {bytes : List Byte} {s : State} (h : s.cfg.maxIbuf < a + bytes.length) :
    hostWriteIbuf a bytes s = .fault (.noSuchAddress .ibuf) := if_pos h

theorem hostWriteFlen_outside {k : Nat} {v : Word} {s : State} (h : s.cfg.maxFrames ≤ k) :
    hostWriteFlen k v s = .fault (.noSuchAddress .flen) := if_pos h

theorem read_write {α : Type} (m : Memory α) (a : Nat) (v : α) (b : Nat) :
    Memory.read (Memory.write m a v) b = if b = a then some v else Memory.read m b := by
  split
  · rename_i h
    rw [h, read_write_self]
  · rename_i h
    exact read_write_ne m v h

/-- Settles O57: the pending store is the next step; inside its memory it is `MemWrite`, whose reads the memory's laws
give. -/
theorem hostStores : Obligations.HostStores := by
  refine ⟨fun s q a bytes hidle hq => ⟨fun hout => ?_, fun hin => ?_⟩,
    fun s q k v hidle hq => ⟨fun hout => ?_, fun hin => ?_⟩,
    fun s q a bytes hidle hq => step_pending hidle hq, fun s q k v hidle hq => step_pending hidle hq⟩
  · exact (step_pending hidle hq).trans (hostWriteIbuf_outside hout)
  · exact ⟨_, (step_pending hidle hq).trans (hostWriteIbuf_next.2 ⟨hin, rfl⟩), read_writeAll s.ibuf a bytes⟩
  · exact (step_pending hidle hq).trans (hostWriteFlen_outside hout)
  · exact ⟨_, (step_pending hidle hq).trans (hostWriteFlen_next.2 ⟨hin, rfl⟩), read_write s.flen k v⟩

end Sys2Proof.Proofs.Block
end

section
/-! SUPPORT. Proofs for 20_memory.md: operations are atomic (R78), the decoder's command-by-command run ends in the atomic
operation's outcome (R78, 41_decoder.md R190 to R195; log 9), and the host's reads of a memory (R76). -/

namespace Sys2Proof.Proofs.Operations

open Sys2Proof Sys2Proof.Machine Sys2Proof.Proofs.Block

/-! ### Operations are atomic (20_memory.md R78) -/

theorem HostActs.replay_eq {s t : State} (h : HostActs s t) (hidle : s.replay = none) : t.replay = none := by
  cases h with
  | request v ends => exact ends.replay_eq
  | register r v => exact (writeReg_keeps_replay s r v).trans hidle
  | read v => exact hidle
  | ibuf a bytes fits => exact hidle
  | flen k v fits => exact hidle
  | reset => rfl

/-- Settles O46: between operations only the host moves, and an operation it starts ends within its step. -/
theorem stepsFromIdleEndIdle : Obligations.StepsFromIdleEndIdle := by
  intro s t hidle h
  cases step_cases h with
  | replay r running goes => exact absurd running (by simp [hidle])
  | host e q idle pending acts => exact HostActs.replay_eq acts hidle
  | hold idle nothing => exact hidle

/-! ### Host reads of a memory (20_memory.md R76) -/

theorem hostReadMem_outside {m : MemName} {a : Nat} {s : State} (h : m.size s.cfg ≤ a) :
    hostReadMem m a s = .fault (.noSuchAddress m) := if_pos h

theorem hostReadMem_unwritten {m : MemName} {a : Nat} {s : State} (ha : a < m.size s.cfg) (hv : s.cell m a = none) :
    hostReadMem m a s = .fault (.unwritten m) := by
  simp only [hostReadMem, Nat.not_le.2 ha, if_false, hv]

/-- Settles O55: the pending read is the next step, and taking it from the queue leaves every cell as it was. -/
theorem hostMemoryReads : Obligations.HostMemoryReads := by
  intro s q m a hidle hq
  have hcell : State.cell { s with hostQueue := q } m a = s.cell m a := cell_of_host_fields s q s.busData m a
  refine ⟨fun hout => ?_, fun hin hv => ?_, fun v hin hv => ?_⟩
  · exact (step_pending hidle hq).trans (hostReadMem_outside hout)
  · exact (step_pending hidle hq).trans (hostReadMem_unwritten hin (hcell.trans hv))
  · exact (step_pending hidle hq).trans (hostReadMem_value hin (hcell.trans hv))

/-! ### Runs of the machine that end in an outcome -/

theorem run_one (M : Host.Core) (s : M.State) : M.run 1 s = M.step s := by
  rw [Host.Core.run]
  cases M.step s <;> rfl

theorem run_succ_of_step_next {M : Host.Core} {s t : M.State} (h : M.step s = .next t) (k : Nat) :
    M.run (k + 1) s = M.run k t := by
  rw [Host.Core.run, h]

/-- Some number of steps from `s` gives the outcome `o`. -/
def Reaches (s : State) (o : Host.Outcome State Fault Refusal) : Prop := ∃ k, Host.Core.run Sys2Proof.core k s = o

theorem reaches_of_step {s : State} {o : Host.Outcome State Fault Refusal} (h : step s = o) : Reaches s o :=
  ⟨1, (run_one Sys2Proof.core s).trans h⟩

theorem Reaches.of_step_next {s t : State} {o : Host.Outcome State Fault Refusal} (h : step s = .next t)
    (ht : Reaches t o) : Reaches s o := by
  obtain ⟨k, hk⟩ := ht
  exact ⟨k + 1, (run_succ_of_step_next (M := Sys2Proof.core) h k).trans hk⟩

/-! ### One step inside a replay (41_decoder.md R183, R184) -/

/-- `s` with the replay `r` running in it. -/
def running (s : State) (r : Replay) : State := { s with replay := some r }

@[simp] theorem running_cfg (s : State) (r : Replay) : (running s r).cfg = s.cfg := rfl
@[simp] theorem running_replay (s : State) (r : Replay) : (running s r).replay = some r := rfl
@[simp] theorem running_window (s : State) (r : Replay) : (running s r).window = s.window := rfl

theorem commandStep_congr {f g : Window → Nat → Except Stop CmdResult} {s : State} {r : Replay}
    (hr : s.replay = some r) (h : f s.window r.pc = g s.window r.pc) : commandStep f s = commandStep g s := by
  simp only [commandStep, hr, h]

theorem exec_decodeCommand_literal {c : Byte} (hk : c.toNat < 128) (s : State) :
    exec (decodeCommand c) s = commandStep (litRun c.toNat) s := by
  have hkind : kindBit c = false := (terminator_literal c hk).1
  simp only [decodeCommand, hkind, Bool.false_eq_true, if_false]
  split
  · rename_i hc
    rw [hc]
    rfl
  · split
    · rename_i hc
      rw [hc]
      rfl
    · rfl

theorem exec_decodeCommand_transparent {c : Byte} (hk : 128 ≤ c.toNat) (s : State) :
    exec (decodeCommand c) s = commandStep (trnRun (0x100 - c.toNat)) s := by
  have hkind : kindBit c = true := (terminator_transparent c hk).1
  simp only [decodeCommand, hkind, if_true]
  split
  · rename_i hc
    rw [hc]
    rfl
  · rfl

/-- The command that a byte of the window decodes to runs as `exec(F, pc)` (41_decoder.md R184). -/
theorem exec_decodeCommand {s : State} {r : Replay} {c : Byte} (hr : s.replay = some r)
    (hc : readByte s.window r.pc = .ok c) : exec (decodeCommand c) s = commandStep execAt s := by
  have hat := readByte_ok.1 hc
  obtain hk | hk := Nat.lt_or_ge c.toNat 128
  · rw [exec_decodeCommand_literal hk]
    exact commandStep_congr hr (execAt_literal hat hk).symm
  · rw [exec_decodeCommand_transparent hk]
    exact commandStep_congr hr (execAt_transparent hat hk).symm

theorem execAt_of_readByte_error {F : Window} {pc : Nat} {e : Stop} (h : readByte F pc = .error e) :
    execAt F pc = .error e := by
  rw [execAt, h]
  rfl

/-- A replay that is not over runs the command at `pc`, and stops as `exec(F, pc)` does where `pc` has no byte. -/
theorem replayStep_of_not_over {s : State} {r : Replay} (hr : s.replay = some r) (h : r.over s.window = false) :
    replayStep r s = commandStep execAt s := by
  cases hb : readByte s.window r.pc with
  | ok c =>
    simp only [replayStep, h, hb, Bool.false_eq_true, if_false]
    exact exec_decodeCommand hr hb
  | error e =>
    simp only [replayStep, commandStep, h, hr, hb, execAt_of_readByte_error hb, Bool.false_eq_true, if_false]
    cases e <;> rfl

theorem step_running_over {s : State} {r : Replay} (h : r.over s.window = true) :
    step (running s r) = finishReplay r (running s r) := if_pos h

theorem step_running_ok {s : State} {r : Replay} {c : CmdResult} (hover : r.over s.window = false)
    (hc : execAt s.window r.pc = .ok c) : step (running s r) = .next (running s (r.advance c)) := by
  calc step (running s r)
      _ = commandStep execAt (running s r) := replayStep_of_not_over rfl hover
      _ = .next (running s (r.advance c)) := by
        simp only [commandStep, running_replay, running_window, hc]
        rfl

theorem step_running_error {s : State} {r : Replay} {e : Stop} (hover : r.over s.window = false)
    (he : execAt s.window r.pc = .error e) : step (running s r) = conclude r.task.op s (.error e) := by
  calc step (running s r)
      _ = commandStep execAt (running s r) := replayStep_of_not_over rfl hover
      _ = conclude r.task.op s (.error e) := by
        simp only [commandStep, running_replay, running_window, he]
        cases e <;> rfl

/-- One command of a replay against one round of the operation's loop: `g` is the rest of the pseudocode. -/
theorem Reaches.of_command {s : State} {r : Replay} {g : CmdResult → Except Stop State}
    (hover : r.over s.window = false)
    (h : ∀ c, execAt s.window r.pc = .ok c → Reaches (running s (r.advance c)) (conclude r.task.op s (g c))) :
    Reaches (running s r) (conclude r.task.op s (execAt s.window r.pc >>= g)) := by
  cases hx : execAt s.window r.pc with
  | ok c => exact .of_step_next (step_running_ok hover hx) (h c hx)
  | error e => exact reaches_of_step (step_running_error hover hx)

/-! ### The end of a replay (10_state.md R58): what is stored does not depend on the replay -/

theorem storeWidth_running (s : State) (r : Replay) (w : Nat) :
    storeWidth (running s r) w = (storeWidth s w).map (running · r) := by
  simp only [storeWidth]
  split <;> rfl

theorem storeOutput_running (s : State) (r : Replay) (p : List Byte) :
    storeOutput (running s r) p = (storeOutput s p).map (running · r) := by
  obtain h | h := Nat.lt_or_ge s.cfg.maxObuf p.length
  · rw [storeOutput_over h, storeOutput_over (s := running s r) h]
    rfl
  · rw [storeOutput_fits h, storeOutput_fits (s := running s r) h]
    rfl

theorem storeDims_running (s : State) (r : Replay) (d : Nat × Nat × List Byte) :
    storeDims (running s r) d = (storeDims s d).map (running · r) := by
  rw [storeDims, storeOutput_running, storeDims]
  cases storeOutput s d.2.2 <;> rfl

theorem conclude_running (i : Instr) (s : State) (r : Replay) (x : Except Stop State) :
    conclude i (running s r) (x.map (running · r)) = conclude i s x := by
  cases x with
  | ok t => rfl
  | error e => cases e <;> rfl

/-- A width replay that has met its terminator stores the width, as FRAME_WIDTH does (41_decoder.md R192). -/
theorem finishReplay_width {s : State} {r : Replay} (ht : r.task = .width) (he : r.ended = true) :
    finishReplay r (running s r) = conclude .frameWidth s (storeWidth s r.acc) := by
  simp only [finishReplay, ht, he, if_true, storeWidth_running, conclude_running]

theorem finishReplay_decode {s : State} {r : Replay} (ht : r.task = .decode) :
    finishReplay r (running s r) = conclude .decompress s (storeOutput s r.out) := by
  simp only [finishReplay, ht, storeOutput_running, conclude_running]

theorem finishReplay_dimsDecode {s : State} {r : Replay} {w : Nat} (ht : r.task = .dimsDecode w) :
    finishReplay r (running s r) = conclude .frameDims s (dimsCheck w r.out >>= storeDims s) := by
  have hdims : dimsCheck w r.out >>= storeDims (running s r) =
      (dimsCheck w r.out >>= storeDims s).map (running · r) := by
    cases dimsCheck w r.out with
    | ok d => exact storeDims_running s r d
    | error e => rfl
  simp only [finishReplay, ht, hdims, conclude_running]

/-- A width replay that reaches the end of the window without a terminator ends its operation (41_decoder.md R190). -/
theorem finishReplay_unterminated {s : State} {r : Replay} (hc : r.task.counts = true) (he : r.ended = false) :
    finishReplay r (running s r) = conclude r.task.op s (raise .unexpectedEndOfFrame) := by
  cases ht : r.task with
  | width => simp only [finishReplay, ht, he, Bool.false_eq_true, if_false]; rfl
  | dimsWidth => simp only [finishReplay, ht, he, Bool.false_eq_true, if_false]; rfl
  | decode => simp [ht, Task.counts] at hc
  | dimsDecode w => simp [ht, Task.counts] at hc

/-! ### The loops of 41_decoder.md R190 and R191, command by command -/

theorem over_eq_false {r : Replay} {F : Window} (he : r.ended = false) (hpc : r.pc < F.length) : r.over F = false := by
  simp [Replay.over, he, hpc]

theorem over_of_length_le {r : Replay} {F : Window} (hpc : F.length ≤ r.pc) : r.over F = true := by
  simp [Replay.over, hpc]

theorem over_of_ended {r : Replay} {F : Window} (he : r.ended = true) : r.over F = true := by
  simp [Replay.over, he]

/-- A width replay runs as the loop of `frameWidth` does; `k` is what the operation does with the width. -/
theorem reaches_widthLoop {s : State} {k : Nat → Except Stop State} {fuel : Nat} {r : Replay}
    (hc : r.task.counts = true) (he : r.ended = false) (hfuel : s.window.length - r.pc < fuel)
    (hdone : ∀ r', r'.task = r.task → r'.ended = true → Reaches (running s r') (conclude r.task.op s (k r'.acc))) :
    Reaches (running s r) (conclude r.task.op s (widthLoop s.window fuel r.pc r.acc >>= k)) := by
  induction fuel generalizing r with
  | zero => omega
  | succ fuel ih =>
    rw [widthLoop]
    split
    · rename_i hpc
      exact reaches_of_step ((step_running_over (over_of_length_le hpc)).trans (finishReplay_unterminated hc he))
    · rename_i hpc
      rw [bind_assoc]
      refine .of_command (over_eq_false he (by omega)) fun c hcmd => ?_
      have hnext := execAt_next hcmd
      rw [advance_counts r c hc]
      split
      · rename_i hterm
        exact hdone _ rfl hterm
      · rename_i hterm
        exact ih hc (by simpa using hterm) (by dsimp only; omega) hdone

/-- A decode replay runs as the loop of `decompress` does; `k` is what the operation does with the pixels. -/
theorem reaches_decodeLoop {s : State} {k : List Byte → Except Stop State} {fuel : Nat} {r : Replay}
    (hc : r.task.counts = false) (he : r.ended = false) (hfuel : s.window.length - r.pc < fuel)
    (hdone : ∀ r', r'.task = r.task → finishReplay r' (running s r') = conclude r.task.op s (k r'.out)) :
    Reaches (running s r) (conclude r.task.op s (decodeLoop s.window fuel r.pc r.out >>= k)) := by
  induction fuel generalizing r with
  | zero => omega
  | succ fuel ih =>
    rw [decodeLoop]
    split
    · rename_i hpc
      exact reaches_of_step ((step_running_over (over_of_length_le hpc)).trans (hdone r rfl))
    · rename_i hpc
      rw [bind_assoc]
      refine .of_command (over_eq_false he (by omega)) fun c hcmd => ?_
      have hnext := execAt_next hcmd
      rw [advance_collects r c hc]
      exact ih hc he (by dsimp only; omega) hdone

/-! ### The operations, from `cmdStart(F)` on -/

/-- What a decoder operation does once `pc` stands at `cmdStart(F)` (41_decoder.md R190 to R195). -/
def opFrom (s : State) (F : Window) (pc : Nat) : Task → Except Stop State
  | .width => widthLoop F (F.length + 1) pc 0 >>= storeWidth s
  | .decode => decodeLoop F (F.length + 1) pc [] >>= storeOutput s
  | .dimsWidth | .dimsDecode _ => widthLoop F (F.length + 1) pc 0 >>= fun w =>
      decompress s.cfg.hdrRule F >>= fun p => dimsCheck w p >>= storeDims s

theorem exec_op (t : Task) (s : State) :
    exec t.op s = decoderOp t.op s fun u F => cmdStart u.cfg.hdrRule F >>= fun pc => opFrom u F pc t := by
  cases t with
  | width => simp only [Task.op, exec, execFrameWidth, frameWidth, opFrom, bind_assoc]
  | decode => simp only [Task.op, exec, execDecompress, decompress, opFrom, bind_assoc]
  | dimsWidth => simp only [Task.op, exec, execFrameDims, frameDims, frameWidth, opFrom, bind_assoc]
  | dimsDecode w => simp only [Task.op, exec, execFrameDims, frameDims, frameWidth, opFrom, bind_assoc]

/-- The second replay of FRAME_DIMS: a decode replay that keeps the width (41_decoder.md R194). -/
theorem reaches_dimsDecode (s : State) (w pc : Nat) :
    Reaches (running s (Replay.start (.dimsDecode w) pc)) (conclude .frameDims s
      (decodeLoop s.window (s.window.length + 1) pc [] >>= fun p => dimsCheck w p >>= storeDims s)) :=
  reaches_decodeLoop (r := Replay.start (.dimsDecode w) pc) rfl rfl (by rw [start_pc]; omega)
    fun _ ht => finishReplay_dimsDecode ht

/-- The first replay of FRAME_DIMS has met its terminator: the second one runs from `cmdStart(F)` (41_decoder.md R194). -/
theorem reaches_of_dimsWidth_ended {s : State} {r : Replay} (ht : r.task = .dimsWidth) (he : r.ended = true) :
    Reaches (running s r) (conclude .frameDims s
      (decompress s.cfg.hdrRule s.window >>= fun p => dimsCheck r.acc p >>= storeDims s)) := by
  have hstep : step (running s r) = finishReplay r (running s r) := step_running_over (over_of_ended he)
  simp only [finishReplay, ht, he, if_true, running_cfg, running_window] at hstep
  rw [decompress, bind_assoc]
  cases hpc : cmdStart s.cfg.hdrRule s.window with
  | ok pc =>
    rw [hpc] at hstep
    exact .of_step_next hstep (reaches_dimsDecode s r.acc pc)
  | error e =>
    rw [hpc] at hstep
    refine reaches_of_step (hstep.trans ?_)
    cases e <;> rfl

/-- The replay of a decoder operation runs to what the operation does from `cmdStart(F)` on. -/
theorem reaches_opFrom {t : Task} (ht : t = .width ∨ t = .decode ∨ t = .dimsWidth) (s : State) (pc : Nat) :
    Reaches (running s (Replay.start t pc)) (conclude t.op s (opFrom s s.window pc t)) := by
  have hfuel : s.window.length - (Replay.start t pc).pc < s.window.length + 1 := by omega
  obtain rfl | rfl | rfl := ht
  · refine reaches_widthLoop (r := Replay.start .width pc) rfl rfl hfuel fun r hr he => ?_
    exact reaches_of_step ((step_running_over (over_of_ended he)).trans (finishReplay_width hr he))
  · exact reaches_decodeLoop (r := Replay.start .decode pc) rfl rfl hfuel fun r hr => finishReplay_decode hr
  · exact reaches_widthLoop (r := Replay.start .dimsWidth pc) rfl rfl hfuel fun r hr he =>
      reaches_of_dimsWidth_ended hr he

/-! ### The start of a decoder operation (41_decoder.md R190 to R195) -/

/-- Where a decoder operation stands after its start: a replay runs from `cmdStart(F)`, or the operation has ended, or
faulted, as the atomic one does. -/
inductive Begins (t : Task) (s : State) : Prop
  | replays (h : Bool) (pc : Nat)
    (begun : beginReplay t s = .next (running { s with hdr := h } (Replay.start t pc)))
    (atomic : exec t.op s = conclude t.op { s with hdr := h } (opFrom { s with hdr := h } s.window pc t))
  | stops (idle : ∀ s1, beginReplay t s = .next s1 → s1.replay = none) (atomic : exec t.op s = beginReplay t s)

/-- A start that stops with `e` leaves no replay. -/
theorem begins_of_stop {t : Task} {s s' : State} {e : Stop} (hb : beginReplay t s = conclude t.op s' (.error e))
    (hexec : exec t.op s = conclude t.op s' (.error e)) : Begins t s := by
  refine .stops (fun s1 h => ?_) (hexec.trans hb.symm)
  obtain ⟨t', hok, -⟩ | ⟨e', -, rfl⟩ := conclude_next (hb.symm.trans h)
  · cases hok
  · rfl

/-- The checks of a start are those of the atomic operation: the window, the header byte, the header's length. -/
theorem beginReplay_begins (t : Task) (s : State) : Begins t s := by
  have hexec := exec_op t s
  cases hw : s.windowOk with
  | false =>
    exact begins_of_stop (s' := s) (e := .raise .illegalRequest) (by simp [beginReplay, hw])
      (hexec.trans (by simp [decoderOp, hw]))
  | true =>
    cases hh : hdrPresent s.cfg.hdrRule s.window with
    | error e =>
      exact begins_of_stop (s' := s) (e := e) (by simp only [beginReplay, hw, if_true, hh])
        (hexec.trans (by simp only [decoderOp, hw, if_true, hh]))
    | ok h =>
      cases hpc : cmdStart s.cfg.hdrRule s.window with
      | error e =>
        exact begins_of_stop (s' := { s with hdr := h }) (e := e) (by simp only [beginReplay, hw, if_true, hh, hpc])
          (hexec.trans (by simp only [decoderOp, hw, if_true, hh, hpc]; rfl))
      | ok pc =>
        exact .replays h pc (by simp only [beginReplay, hw, if_true, hh, hpc]; rfl)
          (hexec.trans (by simp only [decoderOp, hw, if_true, hh, hpc]; rfl))

/-- Settles O47: a start that leaves a replay leaves it at `cmdStart(F)`, from where the machine runs the loops of the
operation one command a step; every other start has ended the operation. -/
theorem replayRunsToTheOperationsOutcome : Obligations.ReplayRunsToTheOperationsOutcome := by
  intro t s ht _
  cases beginReplay_begins t s with
  | replays h pc begun atomic =>
    refine ⟨fun s1 r h1 _ => ?_, fun hno => absurd rfl (hno _ _ begun)⟩
    obtain rfl := Host.Outcome.next.inj (begun.symm.trans h1)
    rw [atomic]
    exact reaches_opFrom ht { s with hdr := h } pc
  | stops idle atomic =>
    refine ⟨fun s1 r h1 hr => ?_, fun _ => atomic⟩
    rw [idle s1 h1] at hr
    cases hr

end Sys2Proof.Proofs.Operations
end

section
/-! SUPPORT. Proofs for 30_encoding.md: the command byte and the request word (R100 to R106, R116 to R119), the frame of
every operation ("results written", R117), the requests that name no operation (R118) and the host's copy (R121). -/

namespace Sys2Proof.Proofs.Encoding

open Sys2Proof Sys2Proof.Machine Sys2Proof.Proofs.Block

/-! ### The code of an instruction (30_encoding.md R104, R117, R118) -/

/-- Settles O1: per constructor, the law of its code; the operand ranges of LIT, TRN and ILLEGAL_OP carry it. -/
theorem decodeOfEncodeIsTheInstruction : Obligations.DecodeOfEncodeIsTheInstruction := by
  intro i
  cases i with
  | lit n => exact Laws.CodeRoundTrip.lit n
  | endRun => exact Laws.CodeRoundTrip.endRun
  | litMax => exact Laws.CodeRoundTrip.litMax
  | trnMax => exact Laws.CodeRoundTrip.trnMax
  | trn n => exact Laws.CodeRoundTrip.trn n
  | parseOffsets => exact Laws.CodeRoundTrip.parseOffsets
  | frameBytes => exact Laws.CodeRoundTrip.frameBytes
  | buildContainer => exact Laws.CodeRoundTrip.buildContainer
  | frameWidth => exact Laws.CodeRoundTrip.frameWidth
  | decompress => exact Laws.CodeRoundTrip.decompress
  | frameDims => exact Laws.CodeRoundTrip.frameDims
  | compressBlock => exact Laws.CodeRoundTrip.compressBlock
  | compressRow => exact Laws.CodeRoundTrip.compressRow
  | encodeFrame => exact Laws.CodeRoundTrip.encodeFrame
  | illegalOp op => exact Laws.CodeRoundTrip.illegalOp op

/-! ### The classes of command bytes (30_encoding.md R104) -/

theorem decodeCommand_lit {c : Byte} (h1 : 1 ≤ c.toNat) (h2 : c.toNat ≤ 0x7E) : decodeCommand c = .lit c.toNat := by
  have hkind : kindBit c = false := (terminator_literal c (by omega)).1
  have hend : c ≠ 0x00#8 := by rintro rfl; simp at h1
  have hmax : c ≠ 0x7F#8 := by rintro rfl; simp at h2
  simp only [decodeCommand, hkind, hend, hmax, Bool.false_eq_true, if_false]

theorem decodeCommand_trn {c : Byte} (h : 0x81 ≤ c.toNat) : decodeCommand c = .trn (0x100 - c.toNat) := by
  have hkind : kindBit c = true := (terminator_transparent c (by omega)).1
  have hmax : c ≠ 0x80#8 := by rintro rfl; simp at h
  simp only [decodeCommand, hkind, hmax, if_true, if_false]

/-- Settles O3: three classes are single bytes; in the other two the count is `c` or `0x100 - c`, below its maximum. -/
theorem commandByteClasses : Obligations.CommandByteClasses := by
  refine fun c => ⟨fun h => ?_, fun h1 h2 => ?_, fun h => ?_, fun h => ?_, fun h => ?_⟩
  · obtain rfl : c = 0x00#8 := BitVec.eq_of_toNat_eq h
    decide
  · rw [decodeCommand_lit h1 h2, (terminator_literal c (by omega)).2]
    exact ⟨rfl, rfl, decide_eq_true (by simp only [litMaxRun]; omega)⟩
  · obtain rfl : c = 0x7F#8 := BitVec.eq_of_toNat_eq h
    decide
  · obtain rfl : c = 0x80#8 := BitVec.eq_of_toNat_eq h
    decide
  · rw [decodeCommand_trn h, (terminator_transparent c (by omega)).2]
    exact ⟨rfl, rfl, decide_eq_true (by simp only [trnMaxRun]; omega)⟩

/-- A command byte decodes to a well-formed command, whose code is the byte (30_encoding.md R106). -/
theorem decodeCommand_encodes_back (c : Byte) :
    (decodeCommand c).wf = true ∧ (decodeCommand c).isCommand = true ∧ encode (decodeCommand c) = .command c := by
  have hc := c.isLt
  obtain ⟨hend, -, hlitMax, htrnMax, -⟩ := commandByteClasses c
  obtain h | ⟨h1, h2⟩ | h | h | h : c.toNat = 0 ∨ (1 ≤ c.toNat ∧ c.toNat ≤ 0x7E) ∨ c.toNat = 0x7F ∨
      c.toNat = 0x80 ∨ 0x81 ≤ c.toNat := by omega
  · rw [(hend h).1]
    exact ⟨rfl, rfl, congrArg Code.command (BitVec.eq_of_toNat_eq h.symm)⟩
  · rw [decodeCommand_lit h1 h2]
    refine ⟨by simp [Instr.wf, h1, h2], rfl, congrArg Code.command ?_⟩
    rw [BitVec.ofNat_toNat, BitVec.setWidth_eq]
  · rw [(hlitMax h).1]
    exact ⟨rfl, rfl, congrArg Code.command (BitVec.eq_of_toNat_eq h.symm)⟩
  · rw [(htrnMax h).1]
    exact ⟨rfl, rfl, congrArg Code.command (BitVec.eq_of_toNat_eq h.symm)⟩
  · rw [decodeCommand_trn h]
    refine ⟨by simp only [Instr.wf, Bool.and_eq_true, decide_eq_true_eq]; omega, rfl, congrArg Code.command ?_⟩
    apply BitVec.eq_of_toNat_eq
    rw [BitVec.toNat_ofNat]
    omega

/-! ### The request word (30_encoding.md R116 to R118) -/

theorem opField_eq_setWidth (v : Word) : opField v = v.setWidth 4 := (BitVec.setWidth_eq_extractLsb' (by decide)).symm

/-- Masking bits[31:4] leaves OP, zero-extended (10_state.md R32). -/
theorem and_mask_eq (v : Word) : v &&& 0xF#32 = (opField v).setWidth 32 := by
  apply BitVec.eq_of_toNat_eq
  calc (v &&& 0xF#32).toNat
      _ = v.toNat % 16 := Nat.and_two_pow_sub_one_eq_mod v.toNat 4
      _ = v.toNat % 16 % 4294967296 := by omega
      _ = ((opField v).setWidth 32).toNat := by rw [opField_eq_setWidth, BitVec.toNat_setWidth, BitVec.toNat_setWidth]

/-- Every OP code, zero-extended, decodes to a well-formed request that encodes back to it: all sixteen codes. -/
theorem decodeRequest_opCode_encodes_back : ∀ op : BitVec 4,
    (decodeRequest (op.setWidth 32)).wf = true ∧
    encode (decodeRequest (op.setWidth 32)) = .request (op.setWidth 32) := by decide

theorem opField_setWidth (op : BitVec 4) : opField (op.setWidth 32) = op := by
  rw [opField_eq_setWidth, BitVec.setWidth_setWidth_of_le _ (by decide), BitVec.setWidth_eq]

/-- bits[31:4] of a request do not matter (10_state.md R32). -/
theorem decodeRequest_and_mask (v : Word) : decodeRequest (v &&& 0xF#32) = decodeRequest v := by
  simp only [decodeRequest, and_mask_eq, opField_setWidth]

/-- Settles O2: for a byte by its class, for a request word by its OP code. -/
theorem everyCodeDecodesAndEncodesBack : Obligations.EveryCodeDecodesAndEncodesBack := by
  refine ⟨decodeCommand_encodes_back, fun v => ?_⟩
  obtain ⟨hwf, hencode⟩ := decodeRequest_opCode_encodes_back (opField v)
  rw [← and_mask_eq, decodeRequest_and_mask] at hwf hencode
  exact ⟨hwf, decodeRequest_isCommand v, hencode⟩

/-- The seven codes that name no operation decode to ILLEGAL_OP (30_encoding.md R118). -/
theorem decodeRequest_opCode_illegal : ∀ op : BitVec 4, op = 0x0#4 ∨ 0xA#4 ≤ op →
    decodeRequest (op.setWidth 32) = .illegalOp op := by decide

theorem decodeRequest_illegal {v : Word} (h : v.setWidth 4 = 0x0#4 ∨ 0xA#4 ≤ v.setWidth 4) :
    decodeRequest v = .illegalOp (v.setWidth 4) := by
  rw [← decodeRequest_and_mask, and_mask_eq, opField_eq_setWidth]
  exact decodeRequest_opCode_illegal _ h

theorem illegal_opCode_of_setWidth : ∀ op : BitVec 4, op.setWidth 32 = 0#32 ∨ 0xA#32 ≤ op.setWidth 32 →
    op = 0x0#4 ∨ 0xA#4 ≤ op := by decide

/-- Settles O4: a request decodes as its masked word does, which is one of sixteen. -/
theorem requestWordSelectsTheOperation : Obligations.RequestWordSelectsTheOperation := by
  intro v
  have hmask {w : Word} (h : v &&& 0xF#32 = w) : decodeRequest v = decodeRequest w :=
    h ▸ (decodeRequest_and_mask v).symm
  refine ⟨hmask, hmask, hmask, hmask, hmask, hmask, hmask, hmask, hmask, fun h => decodeRequest_illegal ?_⟩
  rw [and_mask_eq, opField_eq_setWidth] at h
  exact illegal_opCode_of_setWidth _ h

/-- Settles O5: the words are closed, so decoding them computes. -/
theorem writtenWordsDecode : Obligations.WrittenWordsDecode := by
  unfold Obligations.WrittenWordsDecode
  decide

/-! ### A request that names no operation (30_encoding.md R118) -/

/-- Error entry without results: between operations there is no replay either, so only ERR and DONE change. -/
theorem execIllegalOp_idle (op : BitVec 4) {s : State} (h : s.replay = none) :
    exec (.illegalOp op) s = .next { s with err := some .illegalRequest, done := true } := by
  calc exec (.illegalOp op) s
      _ = .next { s with err := some .illegalRequest, done := true, replay := none } := rfl
      _ = .next { s with err := some .illegalRequest, done := true } := by rw [← h]

/-- Settles O37: ILLEGAL_OP raises and has no results; the pending CMD write of its code is that request. -/
theorem illegalOpOperation : Obligations.IllegalOpOperation := by
  refine ⟨fun op s hidle => execIllegalOp_idle op hidle, fun s q v hidle hq hop => ?_⟩
  calc step s
      _ = exec (decodeRequest v) (State.startOp { s with hostQueue := q } v) := step_pending hidle hq
      _ = exec (.illegalOp (v.setWidth 4)) (State.startOp { s with hostQueue := q } v) := by
        rw [decodeRequest_illegal hop]
      _ = .next { State.startOp { s with hostQueue := q } v with err := some .illegalRequest, done := true } :=
        execIllegalOp_idle _ hidle
      _ = .next { s with hostQueue := q, cmdOp := v.setWidth 4, err := some .illegalRequest, done := true } := by
        rw [← opField_eq_setWidth]
        rfl

/-! ### The host's copy (30_encoding.md R121) -/

theorem hostCopy_outside {a b d : Nat} {s : State} (h : s.cfg.maxObuf < a + (b - a)) :
    hostCopy a b d s = .fault (.noSuchAddress .obuf) := if_pos h

theorem hostCopy_unwritten {a b d : Nat} {s : State} (h : a + (b - a) ≤ s.cfg.maxObuf)
    (hb : readBytes s.obuf a (b - a) = none) : hostCopy a b d s = .fault (.unwritten .obuf) := by
  simp only [hostCopy, Nat.not_lt.2 h, if_false, hb]

/-- A copy whose bytes have values is the store of them to IBUF. -/
theorem hostCopy_of_readBytes {a b d : Nat} {s : State} {bytes : List Byte} (h : a + (b - a) ≤ s.cfg.maxObuf)
    (hb : readBytes s.obuf a (b - a) = some bytes) : hostCopy a b d s = hostWriteIbuf d bytes s := by
  simp only [hostCopy, Nat.not_lt.2 h, if_false, hb]

/-- Settles O58: the pending copy is the next step; once its bytes are read it is a store to IBUF, whose reads the
memory's laws give. -/
theorem copyMovesOutputToInput : Obligations.CopyMovesOutputToInput := by
  intro s q a b d hidle hq
  have hstep : step s = hostCopy a b d { s with hostQueue := q } := step_pending hidle hq
  refine ⟨fun hout => ?_, fun hin hno => ?_, fun bytes hin hlen hbytes => ?_, fun hempty ha hd => ?_⟩
  · exact hstep.trans (hostCopy_outside hout)
  · exact hstep.trans (hostCopy_unwritten hin (readBytes_eq_none.2 hno))
  · have hstore : step s = hostWriteIbuf d bytes { s with hostQueue := q } :=
      hstep.trans (hostCopy_of_readBytes hin (readBytes_eq_some.2 ⟨hlen, hbytes⟩))
    rw [← hlen]
    exact ⟨fun hout => hstore.trans (hostWriteIbuf_outside hout),
      fun hfits => ⟨_, hstore.trans (hostWriteIbuf_next.2 ⟨hfits, rfl⟩), read_writeAll s.ibuf d bytes⟩⟩
  · have hnone : b - a = 0 := Nat.sub_eq_zero_of_le hempty
    refine hstep.trans (hostCopy_next.2 ⟨?_, [], ?_, ?_, rfl⟩)
    · rwa [hnone]
    · rw [hnone, readBytes]
    · rwa [hnone]

/-! ### How an operation ends: in error entry, or with what its pseudocode stored -/

theorem windowOp_ends {i : Instr} {s t : State} {k : Window → Except Stop State} (h : windowOp i s k = .next t) :
    (∃ e, t = errorEntry i e s) ∨ ∃ t', k s.window = .ok t' ∧ t = succeed t' := by
  obtain ⟨-, ht⟩ | ⟨-, t', hk, ht⟩ | ⟨-, e, -, ht⟩ := windowOp_next h
  · exact .inl ⟨_, ht⟩
  · exact .inr ⟨t', hk, ht⟩
  · exact .inl ⟨e, ht⟩

theorem decoderOp_ends {i : Instr} {s t : State} {k : State → Window → Except Stop State}
    (h : decoderOp i s k = .next t) : ∃ hd, (∃ e, t = errorEntry i e { s with hdr := hd }) ∨
      ∃ t', k { s with hdr := hd } s.window = .ok t' ∧ t = succeed t' := by
  obtain ⟨-, ht⟩ | ⟨-, hd, -, ⟨t', hk, ht⟩ | ⟨e, -, ht⟩⟩ := decoderOp_next h
  · exact ⟨s.hdr, .inl ⟨_, ht⟩⟩
  · exact ⟨hd, .inr ⟨t', hk, ht⟩⟩
  · exact ⟨hd, .inl ⟨e, ht⟩⟩

theorem read_ofList_zero {α : Type} (vs : List α) (a : Nat) : Memory.read (Memory.ofList 0 vs) a = vs[a]? := by
  rw [read_ofList, if_pos (Nat.zero_le a), Nat.sub_zero]

/-- What an operation whose results are OBUF and OUT_LEN has done when it ends from `s` in `t`: its frame, and the bytes of
OBUF when it raised nothing, an output with `P` (30_encoding.md R117, 10_state.md R55). -/
def OutputFrame (P : List Byte → Prop) (s t : State) : Prop :=
  t = { s with obuf := t.obuf, outLen := t.outLen, err := t.err, done := true, replay := none } ∧
  (∀ a, Memory.read t.ibuf a = Memory.read s.ibuf a) ∧
  (t.err = none → ∃ p, P p ∧ t.outLen = .word (BitVec.ofNat 32 p.length) ∧ ∀ a, Memory.read t.obuf a = p[a]?)

theorem outputFrame_succeed {P : List Byte → Prop} {s t' : State} {p : List Byte} (hp : P p)
    (h : storeOutput s p = .ok t') : OutputFrame P s (succeed t') := by
  obtain ⟨-, rfl⟩ := storeOutput_ok h
  exact ⟨rfl, fun _ => rfl, fun _ => ⟨p, hp, rfl, read_ofList_zero p⟩⟩

theorem outputFrame_errorEntry {P : List Byte → Prop} {i : Instr} {e : Err} {s : State}
    (h : errorEntry i e s =
      { s with obuf := [], outLen := .unspecified, err := some e, done := true, replay := none }) :
    OutputFrame P s (errorEntry i e s) := by
  rw [h]
  exact ⟨rfl, fun _ => rfl, fun hno => by cases hno⟩

/-! ### FRAME_WIDTH, DECOMPRESS and FRAME_DIMS (41_decoder.md R192, R193, R195) -/

theorem execFrameWidth_frame {s t : State} (h : execFrameWidth s = .next t) :
    t = { s with width := t.width, hdr := t.hdr, err := t.err, done := true, replay := none } := by
  obtain ⟨hd, ⟨e, rfl⟩ | ⟨t', hk, rfl⟩⟩ := decoderOp_ends h
  · rfl
  · obtain ⟨w, -, hstore⟩ := bind_eq_ok hk
    obtain ⟨-, rfl⟩ := storeWidth_ok hstore
    rfl

/-- DECOMPRESS writes STATUS.HDR, and then its output. -/
theorem execDecompress_frame {s t : State} (h : execDecompress s = .next t) :
    ∃ hd, OutputFrame (decompress s.cfg.hdrRule s.window = .ok ·) { s with hdr := hd } t := by
  obtain ⟨hd, ⟨e, rfl⟩ | ⟨t', hk, rfl⟩⟩ := decoderOp_ends h
  · exact ⟨hd, outputFrame_errorEntry (errorEntry_decompress e _)⟩
  · obtain ⟨p, hp, hstore⟩ := bind_eq_ok hk
    exact ⟨hd, outputFrame_succeed hp hstore⟩

theorem dimsCheck_ok {w : Nat} {p : List Byte} {d : Nat × Nat × List Byte} (h : dimsCheck w p = .ok d) :
    d = (w, p.length / w, p) := by
  unfold dimsCheck at h
  split at h
  · cases h
  · cases h
    rfl

/-- The pixels that FRAME_DIMS stores are those of `decompress` (41_decoder.md R194). -/
theorem frameDims_ok {rule : HdrRule} {F : Window} {d : Nat × Nat × List Byte} (h : frameDims rule F = .ok d) :
    decompress rule F = .ok d.2.2 := by
  obtain ⟨w, -, h⟩ := bind_eq_ok h
  obtain ⟨p, hp, h⟩ := bind_eq_ok h
  rw [hp, dimsCheck_ok h]

theorem execFrameDims_frame {s t : State} (h : execFrameDims s = .next t) :
    t = { s with width := t.width, height := t.height, obuf := t.obuf, outLen := t.outLen, hdr := t.hdr,
                 err := t.err, done := true, replay := none } ∧
    (t.err = none → ∃ p, decompress s.cfg.hdrRule s.window = .ok p ∧
      t.outLen = .word (BitVec.ofNat 32 p.length) ∧ ∀ a, Memory.read t.obuf a = p[a]?) := by
  obtain ⟨hd, ⟨e, rfl⟩ | ⟨t', hk, rfl⟩⟩ := decoderOp_ends h
  · exact ⟨rfl, fun hno => by cases hno⟩
  · obtain ⟨d, hdims, hstore⟩ := bind_eq_ok hk
    obtain ⟨-, rfl⟩ := storeDims_ok hstore
    exact ⟨rfl, fun _ => ⟨d.2.2, frameDims_ok hdims, rfl, read_ofList_zero d.2.2⟩⟩

/-- Settles O17: each operation ends in error entry, which writes its results alone, or with its store after HDR. -/
theorem decoderOperationsFrame : Obligations.DecoderOperationsFrame := by
  refine fun s t => ⟨fun h => ?_, fun h => ?_, fun h => ?_⟩
  · have hframe := execFrameWidth_frame h
    exact ⟨hframe, fun a => by rw [hframe]; exact ⟨rfl, rfl⟩⟩
  · obtain ⟨hd, hframe, hibuf, hout⟩ := execDecompress_frame h
    obtain rfl : t.hdr = hd := congrArg State.hdr hframe
    exact ⟨hframe, hibuf, hout⟩
  · obtain ⟨hframe, hout⟩ := execFrameDims_frame h
    exact ⟨hframe, fun a => by rw [hframe], hout⟩

/-! ### COMPRESS_BLOCK, COMPRESS_ROW and ENCODE_FRAME (42_encoder.md R239 to R241) -/

theorem windowOp_outputFrame {P : List Byte → Prop} {i : Instr} {s t : State} {k : Window → Except Stop State}
    (herr : ∀ e, errorEntry i e s =
      { s with obuf := [], outLen := .unspecified, err := some e, done := true, replay := none })
    (hk : ∀ t', k s.window = .ok t' → ∃ p, P p ∧ storeOutput s p = .ok t') (h : windowOp i s k = .next t) :
    OutputFrame P s t := by
  obtain ⟨e, rfl⟩ | ⟨t', hok, rfl⟩ := windowOp_ends h
  · exact outputFrame_errorEntry (herr e)
  · obtain ⟨p, hp, hstore⟩ := hk t' hok
    exact outputFrame_succeed hp hstore

/-- `p` is what `f` gives for the window, all of whose bytes have values. -/
def Encodes (f : List Byte → Except Stop (List Byte)) (s : State) (p : List Byte) : Prop :=
  ∃ B, s.window = B.map some ∧ f B = .ok p

/-- The pseudocode the encoder's operations share: `f` of the window's bytes is stored. -/
theorem encodes_of_stores {f : List Byte → Except Stop (List Byte)} {s t' : State}
    (h : (specified s.window >>= fun B => f B >>= storeOutput s) = .ok t') :
    ∃ p, Encodes f s p ∧ storeOutput s p = .ok t' := by
  obtain ⟨B, hB, h⟩ := bind_eq_ok h
  obtain ⟨p, hp, hstore⟩ := bind_eq_ok h
  exact ⟨p, ⟨B, specified_ok hB, hp⟩, hstore⟩

theorem execCompressBlock_frame {s t : State} (h : execCompressBlock s = .next t) :
    OutputFrame (Encodes compressBlock s) s t :=
  windowOp_outputFrame (errorEntry_compressBlock · s) (fun _ => encodes_of_stores) h

theorem execCompressRow_frame {s t : State} (h : execCompressRow s = .next t) :
    OutputFrame (Encodes compressRow s) s t :=
  windowOp_outputFrame (errorEntry_compressRow · s) (fun _ => encodes_of_stores) h

theorem execEncodeFrame_frame {s t : State} (h : execEncodeFrame s = .next t) :
    OutputFrame (Encodes (encodeFrame · s.gridW.toNat s.gridH.toNat) s) s t := by
  refine windowOp_outputFrame (errorEntry_encodeFrame · s) (fun t' hk => ?_) h
  split at hk
  · cases hk
  · exact encodes_of_stores hk

/-- The frame of an encoder operation, with what is known of its output `p` for the window's bytes `B`. -/
theorem OutputFrame.of_encodes {f : List Byte → Except Stop (List Byte)} {Q : List Byte → List Byte → Prop}
    {s t : State} (h : OutputFrame (Encodes f s) s t) (hQ : ∀ B p, f B = .ok p → Q B p) :
    t = { s with obuf := t.obuf, outLen := t.outLen, err := t.err, done := true, replay := none } ∧
    (∀ a, Memory.read t.ibuf a = Memory.read s.ibuf a) ∧
    (t.err = none → ∃ B p, s.window = B.map some ∧ Q B p ∧
      t.outLen = .word (BitVec.ofNat 32 p.length) ∧ ∀ a, Memory.read t.obuf a = p[a]?) := by
  obtain ⟨hframe, hibuf, hout⟩ := h
  refine ⟨hframe, hibuf, fun hno => ?_⟩
  obtain ⟨p, ⟨B, hB, hp⟩, hstored⟩ := hout hno
  exact ⟨B, p, hB, hQ B p hp, hstored⟩

/-- Settles O36: each of the three stores its own function of the window's bytes, or enters an error. -/
theorem encoderOperationsFrame : Obligations.EncoderOperationsFrame := by
  rintro i s t (rfl | rfl | rfl) h
  · exact (execCompressBlock_frame h).of_encodes fun _ _ hp => .inl ⟨rfl, hp⟩
  · exact (execCompressRow_frame h).of_encodes fun _ _ hp => .inr (.inl ⟨rfl, hp⟩)
  · exact (execEncodeFrame_frame h).of_encodes fun _ _ hp => .inr (.inr ⟨rfl, hp⟩)

/-! ### PARSE_OFFSETS, FRAME_BYTES and BUILD_CONTAINER (40_indexer.md R142, R145, R148) -/

theorem execParseOffsets_frame {s t : State} (h : execParseOffsets s = .next t) :
    t = { s with frameCount := t.frameCount, offt := t.offt, offtLen := t.offtLen, contBase := t.contBase,
                 contLen := t.contLen, err := t.err, done := true, replay := none } := by
  obtain ⟨e, rfl⟩ | ⟨t', hk, rfl⟩ := windowOp_ends h
  · rfl
  · obtain ⟨⟨n, offs⟩, -, hk⟩ := bind_eq_ok hk
    dsimp only at hk
    split at hk
    · cases hk
    · cases hk
      rfl

theorem execFrameBytes_frame {s t : State} (h : execFrameBytes s = .next t) :
    t = { s with sliceBase := t.sliceBase, sliceLen := t.sliceLen, err := t.err, done := true, replay := none } := by
  obtain ⟨t', hk, rfl⟩ | ⟨e, -, rfl⟩ := conclude_next h
  · obtain ⟨⟨a, n⟩, -, hk⟩ := bind_eq_ok hk
    obtain ⟨base, -, hk⟩ := bind_eq_ok hk
    cases hk
    rfl
  · rfl

theorem map_eq_ok {ε α β : Type} {x : Except ε α} {f : α → β} {b : β} (h : x.map f = .ok b) :
    ∃ a, x = .ok a ∧ f a = b := by
  cases x with
  | ok a => exact ⟨a, rfl, Except.ok.inj h⟩
  | error e => cases h

theorem regValue_get_ok {r : RegName} {x : RegValue} {v : Word} (h : x.get r = .ok v) : x = .word v := by
  cases x with
  | word w => exact congrArg RegValue.word (Except.ok.inj h)
  | unspecified => cases h

/-- The lengths read from FLEN are the numbers of its words. -/
theorem readLengths_ok {m : Memory Word} {k n : Nat} {lens : List Nat} (h : readLengths m k n = .ok lens) :
    lens.length = n ∧ ∀ j l, lens[j]? = some l → Memory.read m (k + j) = some (BitVec.ofNat 32 l) := by
  induction n generalizing k lens with
  | zero =>
    cases h
    exact ⟨rfl, fun j l hl => by simp at hl⟩
  | succ n ih =>
    unfold readLengths at h
    split at h
    · cases h
    · rename_i v hv
      obtain ⟨ls, hls, rfl⟩ := map_eq_ok h
      obtain ⟨hlen, hread⟩ := ih hls
      refine ⟨congrArg Nat.succ hlen, fun j l hl => ?_⟩
      cases j with
      | zero =>
        obtain rfl : v.toNat = l := by simpa using hl
        rw [Nat.add_zero, hv, BitVec.ofNat_toNat, BitVec.setWidth_eq]
      | succ j =>
        rw [← hread j l (by simpa using hl)]
        congr 1
        omega

theorem readSlice_ok {F : Window} {p l : Nat} {f : List Byte} (h : readSlice F p (p + l) = .ok f) :
    (F.drop p).take l = f.map some := by
  rw [← specified_ok h, List.drop_take, Nat.add_sub_cancel_left]

/-- Frames cut inside a window have the lengths given, and make up its bytes from `p` on (40_indexer.md R148). -/
theorem cutFrames_ok {F : Window} {p : Nat} {lens : List Nat} {frames : List (List Byte)}
    (hfits : p + lens.sum ≤ F.length) (h : cutFrames F p lens = .ok frames) :
    frames.map List.length = lens ∧ (F.drop p).take lens.sum = frames.flatten.map some := by
  induction lens generalizing p frames with
  | nil =>
    cases h
    exact ⟨rfl, rfl⟩
  | cons l ls ih =>
    rw [List.sum_cons] at hfits ⊢
    obtain ⟨f, hf, h⟩ := bind_eq_ok h
    obtain ⟨fs, hfs, h⟩ := bind_eq_ok h
    cases h
    have hslice := readSlice_ok hf
    obtain ⟨hlens, hflat⟩ := ih (by omega) hfs
    have hlen : f.length = l := by
      calc f.length
          _ = ((F.drop p).take l).length := by rw [hslice, List.length_map]
          _ = l := by rw [List.length_take, List.length_drop]; omega
    refine ⟨by rw [List.map_cons, hlen, hlens], ?_⟩
    rw [List.take_add, hslice, List.drop_drop, hflat, List.flatten_cons, List.map_append]

/-- The frames of a BUILD_CONTAINER: FRAME_COUNT of them, of the lengths in FLEN, together the window. -/
def FramesOf (s : State) (frames : List (List Byte)) : Prop :=
  s.frameCount = .word (BitVec.ofNat 32 frames.length) ∧
  (∀ k f, frames[k]? = some f → Memory.read s.flen k = some (BitVec.ofNat 32 f.length)) ∧
  s.window = frames.flatten.map some

theorem framesOf_cutFrames {s : State} {n : Word} {lens : List Nat} {frames : List (List Byte)}
    (hn : s.frameCount = .word n) (hlens : readLengths s.flen 0 n.toNat = .ok lens) (hsum : lens.sum = s.inLen.toNat)
    (hframes : cutFrames s.window 0 lens = .ok frames) : FramesOf s frames := by
  obtain ⟨hcount, hread⟩ := readLengths_ok hlens
  have hwindow : s.window.length = lens.sum := (window_length s).trans hsum.symm
  obtain ⟨hlengths, hflat⟩ := cutFrames_ok (by omega) hframes
  refine ⟨?_, fun k f hf => ?_, ?_⟩
  · rw [hn, ← List.length_map (f := List.length), hlengths, hcount, BitVec.ofNat_toNat, BitVec.setWidth_eq]
  · have hl : lens[k]? = some f.length := by rw [← hlengths, List.getElem?_map, hf, Option.map_some]
    simpa using hread k f.length hl
  · rw [← hflat, List.drop_zero, ← hwindow, List.take_length]

theorem execBuildContainer_frame {s t : State} (h : execBuildContainer s = .next t) :
    OutputFrame (fun p => ∃ frames, FramesOf s frames ∧ p = buildContainer frames) s t := by
  refine windowOp_outputFrame (errorEntry_buildContainer · s) (fun t' hk => ?_) h
  obtain ⟨n, hn, hk⟩ := bind_eq_ok hk
  split at hk
  · cases hk
  · obtain ⟨lens, hlens, hk⟩ := bind_eq_ok hk
    split at hk
    · cases hk
    · rename_i hsum
      obtain ⟨frames, hframes, hk⟩ := bind_eq_ok hk
      split at hk
      · cases hk
      · have hof := framesOf_cutFrames (regValue_get_ok hn) hlens (not_not.1 hsum) hframes
        exact ⟨_, ⟨frames, hof, rfl⟩, hk⟩

/-- Settles O23: each operation ends in error entry, which writes its results alone, or with its store; the container is
built of the frames cut from the window. -/
theorem indexerOperationsFrame : Obligations.IndexerOperationsFrame := by
  refine fun s t => ⟨fun h => ?_, fun h => ?_, fun h => ?_⟩
  · have hframe := execParseOffsets_frame h
    exact ⟨hframe, fun a => by rw [hframe]; exact ⟨rfl, rfl⟩⟩
  · have hframe := execFrameBytes_frame h
    exact ⟨hframe, fun a => by rw [hframe]; exact ⟨rfl, rfl⟩⟩
  · obtain ⟨hframe, hibuf, hout⟩ := execBuildContainer_frame h
    refine ⟨hframe, hibuf, fun hno => ?_⟩
    obtain ⟨_, ⟨frames, ⟨hcount, hflen, hwindow⟩, rfl⟩, houtLen, hobuf⟩ := hout hno
    exact ⟨frames, hcount, hflen, hwindow, houtLen, hobuf⟩

end Sys2Proof.Proofs.Encoding
end

section
/-! SUPPORT. Proofs for 40_indexer.md: parsing a container (R141, R142), the slice of a frame (R144 to R146),
building a container (R147, R148) and the round trip of the two (R150). -/

namespace Sys2Proof.Proofs.Indexer

open Sys2Proof Sys2Proof.Machine Sys2Proof.Proofs.Scope Sys2Proof.Proofs.Block

/-! ### Sequences of words in a window (40_indexer.md R141) -/

theorem readWords_cons {F : Window} {k n : Nat} {w : Word} {ws : List Word} (hw : readWord F k = .ok w)
    (hws : readWords F (k + 4) n = .ok ws) : readWords F k (n + 1) = .ok (w :: ws) := by
  simp only [readWords, hw, hws, bind, Except.bind, pure, Except.pure]

/-- Words that are read one by one, each 4 bytes behind the one before, are read as a sequence. -/
theorem readWords_of_readWord {F : Window} {p : Nat} {ws : List Word}
    (h : ∀ k w, ws[k]? = some w → readWord F (p + 4 * k) = .ok w) : readWords F p ws.length = .ok ws := by
  induction ws generalizing p with
  | nil => rfl
  | cons w ws ih =>
    refine readWords_cons (h 0 w rfl) (ih fun k v hv => ?_)
    rw [Nat.add_assoc, Nat.add_comm 4, ← Nat.mul_succ]
    exact h (k + 1) v hv

/-- The bytes of a sequence of words read back as the words at every byte offset. -/
theorem readWords_append_bytesLE32 (ws : List Word) (pre post : Window) :
    readWords (pre ++ (ws.flatMap bytesLE32).map some ++ post) pre.length ws.length = .ok ws := by
  induction ws generalizing pre with
  | nil => rfl
  | cons w ws ih =>
    have hrest := ih (pre ++ (bytesLE32 w).map some)
    have hfirst := readWord_append_bytesLE32 w pre ((ws.flatMap bytesLE32).map some ++ post)
    simp only [List.length_append, List.length_map, bytesLE32_length, List.append_assoc] at hrest hfirst
    simp only [List.flatMap_cons, List.map_append, List.append_assoc]
    exact readWords_cons hfirst hrest

/-! ### Parsing a container (40_indexer.md R141) -/

theorem parseOffsets_no_count {C : Window} (h : C.length < 4) : parseOffsets C = raise .malformedContainer :=
  if_pos h

theorem parseOffsets_table_cut {C : Window} {n : Word} (h4 : 4 ≤ C.length) (hn : readWord C 0 = .ok n)
    (h : C.length < 4 * (n.toNat + 2)) : parseOffsets C = raise .malformedContainer := by
  simp only [parseOffsets, Nat.not_lt.2 h4, if_false, hn, bind, Except.bind, h, if_true]

/-- The count word and the N + 1 offsets behind it are all that is read of a container. -/
theorem parseOffsets_of_reads {C : Window} {n : Word} {offs : List Word} (hn : readWord C 0 = .ok n)
    (h : 4 * (n.toNat + 2) ≤ C.length) (hoffs : readWords C 4 (n.toNat + 1) = .ok offs) :
    parseOffsets C = .ok (n, offs) := by
  have h4 : ¬ C.length < 4 := by omega
  simp only [parseOffsets, h4, if_false, hn, bind, Except.bind, Nat.not_lt.2 h, hoffs, pure, Except.pure]

/-! ### PARSE_OFFSETS (40_indexer.md R142) -/

/-- An operation whose window does not fit in IBUF ends in IllegalRequest (10_state.md R33). -/
theorem windowOp_of_exceeds {i : Instr} {s : State} {k : Window → Except Stop State}
    (h : s.cfg.maxIbuf < s.inBase.toNat + s.inLen.toNat) :
    windowOp i s k = .next (errorEntry i .illegalRequest s) :=
  if_neg fun hw => Nat.not_le.2 h (of_decide_eq_true hw)

theorem execParseOffsets_exceeds {s : State} (h : s.cfg.maxIbuf < s.inBase.toNat + s.inLen.toNat) :
    exec .parseOffsets s = .next (errorEntry .parseOffsets .illegalRequest s) := by
  rw [exec, execParseOffsets, windowOp_of_exceeds h]

theorem execParseOffsets_raise {s : State} {e : Err} (hw : s.inBase.toNat + s.inLen.toNat ≤ s.cfg.maxIbuf)
    (h : parseOffsets s.window = raise e) : exec .parseOffsets s = .next (errorEntry .parseOffsets e s) := by
  rw [exec, execParseOffsets, windowOp_of_fits hw, h]
  exact conclude_raise _ _ _

theorem execParseOffsets_over {s : State} {n : Word} {offs : List Word}
    (hw : s.inBase.toNat + s.inLen.toNat ≤ s.cfg.maxIbuf) (h : parseOffsets s.window = .ok (n, offs))
    (hn : s.cfg.maxFrames < n.toNat) :
    exec .parseOffsets s = .next (errorEntry .parseOffsets .capacityExceeded s) := by
  rw [exec, execParseOffsets, windowOp_of_fits hw, h]
  simp only [bind, Except.bind, hn, if_true, conclude_raise]

theorem execParseOffsets_fits {s : State} {n : Word} {offs : List Word}
    (hw : s.inBase.toNat + s.inLen.toNat ≤ s.cfg.maxIbuf) (h : parseOffsets s.window = .ok (n, offs))
    (hn : n.toNat ≤ s.cfg.maxFrames) : exec .parseOffsets s = .next (succeed { s with
      offt := Memory.ofList 0 offs, offtLen := BitVec.ofNat 32 (n.toNat + 1), frameCount := .word n
      contBase := .word s.inBase, contLen := .word s.inLen }) := by
  rw [exec, execParseOffsets, windowOp_of_fits hw, h]
  simp only [bind, Except.bind, Nat.not_lt.2 hn, if_false, pure, Except.pure, conclude_ok]

/-- Settles O18: the window check, the two length checks and the capacity check, in the order of the pseudocode. -/
theorem parseOffsetsOperation : Obligations.ParseOffsetsOperation := by
  refine ⟨by decide, fun s => ⟨execParseOffsets_exceeds, fun hw h4 => ?_, fun n hw h4 hn => ⟨fun hcut => ?_, ?_⟩⟩⟩
  · exact execParseOffsets_raise hw (parseOffsets_no_count (by rwa [window_length]))
  · exact execParseOffsets_raise hw
      (parseOffsets_table_cut (by rwa [window_length]) hn (by rwa [window_length]))
  · intro offs hlen hoffs hread
    have hparse : parseOffsets s.window = .ok (n, offs) :=
      parseOffsets_of_reads hn (by rwa [window_length]) (hoffs ▸ readWords_of_readWord hread)
    exact ⟨execParseOffsets_over hw hparse, execParseOffsets_fits hw hparse⟩

/-! ### The slice of a frame (40_indexer.md R144) -/

theorem frameSlice_out_of_range {offs : List (Option Word)} {L : RegValue} {i : Nat} (h : offs.length ≤ i + 1) :
    frameSlice offs L i = raise .indexOutOfRange := if_pos h

theorem readOffset_ok {offs : List (Option Word)} {k : Nat} {w : Word} :
    readOffset offs k = .ok w ↔ offs[k]? = some (some w) := by
  unfold readOffset
  split
  · rename_i v hv
    simp [hv]
  · rename_i hno
    simp only [stopFault, reduceCtorEq, false_iff]
    exact hno w

/-- The checks on an index whose two offsets and container length have values. -/
theorem frameSlice_of_words {offs : List (Option Word)} {i : Nat} {a b : Word} (l : Word)
    (ha : offs[i]? = some (some a)) (hb : offs[i + 1]? = some (some b)) :
    frameSlice offs (.word l) i =
      if b.toNat < a.toNat ∨ l.toNat < b.toNat then raise .malformedContainer
      else .ok (a.toNat, b.toNat - a.toNat) := by
  have hin : ¬ offs.length ≤ i + 1 := Nat.not_le.2 (List.getElem?_eq_some_iff.1 hb).1
  simp only [frameSlice, hin, if_false, readOffset_ok.2 ha, readOffset_ok.2 hb, RegValue.get, bind, Except.bind,
    Bool.or_eq_true, decide_eq_true_eq, pure, Except.pure]

/-- A slice that is returned ends inside the container, and its index is one of a frame. -/
theorem frameSlice_ok {offs : List (Option Word)} {L : RegValue} {i a n : Nat} (h : frameSlice offs L i = .ok (a, n)) :
    i + 1 < offs.length ∧ ∃ l, L = .word l ∧ a + n ≤ l.toNat := by
  unfold frameSlice at h
  split at h
  · cases h
  · obtain ⟨a', -, h⟩ := bind_eq_ok h
    obtain ⟨b', -, h⟩ := bind_eq_ok h
    obtain ⟨l, hl, h⟩ := bind_eq_ok h
    split at h
    · cases h
    · rename_i hin hbad
      cases h
      simp only [Bool.or_eq_true, decide_eq_true_eq] at hbad
      exact ⟨by omega, l, Encoding.regValue_get_ok hl, by omega⟩

/-! ### FRAME_BYTES (40_indexer.md R145) -/

@[simp] theorem offsets_length (s : State) : s.offsets.length = s.offtLen.toNat := by simp [State.offsets]

theorem offsets_getElem? (s : State) {k : Nat} (h : k < s.offtLen.toNat) :
    s.offsets[k]? = some (Memory.read s.offt k) := by
  simp [State.offsets, List.getElem?_range h]

theorem execFrameBytes_raise {s : State} {e : Err} (h : frameSlice s.offsets s.contLen s.idx.toNat = raise e) :
    exec .frameBytes s = .next (errorEntry .frameBytes e s) := by
  rw [exec, execFrameBytes, h]
  exact conclude_raise _ _ _

theorem execFrameBytes_of_slice {s : State} {a n : Nat} {c : Word}
    (h : frameSlice s.offsets s.contLen s.idx.toNat = .ok (a, n)) (hc : s.contBase = .word c) :
    exec .frameBytes s = .next (succeed { s with
      sliceBase := .word (BitVec.ofNat 32 (c.toNat + a)), sliceLen := .word (BitVec.ofNat 32 n) }) := by
  rw [exec, execFrameBytes, h, hc]
  rfl

/-- A FRAME_BYTES without error has stored the slice of frame IDX. -/
theorem execFrameBytes_ok {s t : State} (h : exec .frameBytes s = .next t) (hno : t.err = none) :
    ∃ a n c, frameSlice s.offsets s.contLen s.idx.toNat = .ok (a, n) ∧ s.contBase = .word c ∧
      t.sliceBase = .word (BitVec.ofNat 32 (c.toNat + a)) ∧ t.sliceLen = .word (BitVec.ofNat 32 n) := by
  obtain ⟨t', hk, rfl⟩ | ⟨e, -, rfl⟩ := conclude_next h
  · obtain ⟨⟨a, n⟩, hslice, hk⟩ := bind_eq_ok hk
    obtain ⟨c, hc, hk⟩ := bind_eq_ok hk
    cases hk
    exact ⟨a, n, c, hslice, Encoding.regValue_get_ok hc, rfl, rfl⟩
  · cases hno

/-- Settles O19: `frameSlice` on the offset table, then the sum narrowed to 32 bits. -/
theorem frameBytesOperation : Obligations.FrameBytesOperation := by
  refine ⟨by decide, fun s => ⟨fun hout => ?_, fun a b l hin ha hb hl => ?_⟩⟩
  · exact execFrameBytes_raise (frameSlice_out_of_range (by rwa [offsets_length]))
  · have hslice := frameSlice_of_words l ((offsets_getElem? s (by omega)).trans (congrArg some ha))
      ((offsets_getElem? s hin).trans (congrArg some hb))
    rw [← hl] at hslice
    refine ⟨fun hbad => execFrameBytes_raise (hslice.trans (if_pos hbad)), fun c hab hbl hc => ?_⟩
    have hbase : BitVec.ofNat 32 (c.toNat + a.toNat) = c + a := BitVec.eq_of_toNat_eq (by simp)
    have hlen : BitVec.ofNat 32 (b.toNat - a.toNat) = b - a := by
      rw [← BitVec.toNat_sub_of_le hab, BitVec.ofNat_toNat, BitVec.setWidth_eq]
    rw [← hbase, ← hlen]
    exact execFrameBytes_of_slice (hslice.trans (if_neg (by omega))) hc

/-- Under the invariant a parsed container, one with an offset, lies inside IBUF (40_indexer.md R145). -/
theorem containerInside_iff {s : State} {c l : Word} (hn : 0 < s.offtLen.toNat) (hc : s.contBase = .word c)
    (hl : s.contLen = .word l) : s.containerInside = true ↔ c.toNat + l.toNat ≤ s.cfg.maxIbuf := by
  have hne : s.offtLen ≠ 0#32 := fun h => by simp [h] at hn
  simp [State.containerInside, hne, hc, hl]

/-- Settles O20: the slice ends inside the container, whose place the invariant gives, so the 32-bit sum is exact. -/
theorem sliceLiesInTheContainer : Obligations.SliceLiesInTheContainer := by
  intro s t hs h hno
  obtain ⟨a, n, c, hslice, hc, hbase, hlen⟩ := execFrameBytes_ok h hno
  obtain ⟨hi, l, hl, hfits⟩ := frameSlice_ok hslice
  rw [offsets_length] at hi
  have hin : c.toNat + l.toNat ≤ s.cfg.maxIbuf := (containerInside_iff (by omega) hc hl).1 hs.container
  have hcfg := hs.cfgOk
  simp only [Config.ok, u32Max, Bool.and_eq_true, decide_eq_true_eq] at hcfg
  refine ⟨_, _, c, l, hbase, hlen, hc, hl, ?_, ?_, hin⟩
  · rw [BitVec.toNat_ofNat, Nat.mod_eq_of_lt (by omega)]
    omega
  · rw [BitVec.toNat_ofNat, BitVec.toNat_ofNat, Nat.mod_eq_of_lt (by omega), Nat.mod_eq_of_lt (by omega)]
    omega

/-! ### Building a container (40_indexer.md R147) -/

/-- The offsets of a container as words: where each of the frames starts when the first one starts at `off`, and the
total length. -/
def frameOffsets (off : Nat) : List (List Byte) → List Word
  | [] => [BitVec.ofNat 32 off]
  | f :: fs => BitVec.ofNat 32 off :: frameOffsets (off + f.length) fs

@[simp] theorem frameOffsets_length (off : Nat) (frames : List (List Byte)) :
    (frameOffsets off frames).length = frames.length + 1 := by
  induction frames generalizing off with
  | nil => rfl
  | cons f fs ih => simp [frameOffsets, ih]

/-- Entry `k` is the sum of the lengths of the frames before frame `k`, the whole length for `k = N`. -/
theorem frameOffsets_getElem? (off : Nat) {frames : List (List Byte)} {k : Nat} (h : k ≤ frames.length) :
    (frameOffsets off frames)[k]? = some (BitVec.ofNat 32 (off + ((frames.take k).map List.length).sum)) := by
  induction frames generalizing off k with
  | nil =>
    obtain rfl : k = 0 := by simpa using h
    rfl
  | cons f fs ih =>
    cases k with
    | zero => rfl
    | succ k => simpa [frameOffsets, Nat.add_assoc] using ih (off + f.length) (k := k) (by simpa using h)

theorem offsetWords_eq_flatMap (off : Nat) (frames : List (List Byte)) :
    offsetWords off frames = (frameOffsets off frames).flatMap bytesLE32 := by
  induction frames generalizing off with
  | nil => rfl
  | cons f fs ih => simp [offsetWords, frameOffsets, ih]

/-- A container is its count word, its offsets and its frames. -/
theorem buildContainer_eq (frames : List (List Byte)) : buildContainer frames =
    bytesLE32 (BitVec.ofNat 32 frames.length) ++
      (frameOffsets (4 * (frames.length + 2)) frames).flatMap bytesLE32 ++ frames.flatten := by
  rw [buildContainer, offsetWords_eq_flatMap]

theorem flatMap_bytesLE32_length (ws : List Word) : (ws.flatMap bytesLE32).length = 4 * ws.length := by
  simp [List.length_flatMap, Nat.mul_comm]

/-- The count word and the N + 1 offsets take 4 (N + 2) bytes. -/
theorem containerHeader_length (frames : List (List Byte)) :
    (bytesLE32 (BitVec.ofNat 32 frames.length) ++
      (frameOffsets (4 * (frames.length + 2)) frames).flatMap bytesLE32).length = 4 * (frames.length + 2) := by
  rw [List.length_append, bytesLE32_length, flatMap_bytesLE32_length, frameOffsets_length]
  omega

theorem buildContainer_length (frames : List (List Byte)) :
    (buildContainer frames).length = 4 * (frames.length + 2) + (frames.map List.length).sum := by
  rw [buildContainer_eq, List.length_append, containerHeader_length, List.length_flatten]

/-! ### The index round trip (40_indexer.md R150) -/

theorem parseOffsets_buildContainer {frames : List (List Byte)} (h : frames.length < 4294967296) :
    parseOffsets ((buildContainer frames).map some) =
      .ok (BitVec.ofNat 32 frames.length, frameOffsets (4 * (frames.length + 2)) frames) := by
  have hn : (BitVec.ofNat 32 frames.length).toNat = frames.length := by
    rw [BitVec.toNat_ofNat, Nat.mod_eq_of_lt h]
  refine parseOffsets_of_reads ?_ ?_ ?_
  · rw [buildContainer_eq, List.append_assoc, List.map_append]
    exact readWord_append_bytesLE32 _ [] _
  · rw [hn, List.length_map, buildContainer_length]
    exact Nat.le_add_right _ _
  · rw [hn, buildContainer_eq, List.map_append, List.map_append,
      ← frameOffsets_length (4 * (frames.length + 2)) frames]
    exact readWords_append_bytesLE32 _ ((bytesLE32 _).map some) _

/-- The sum of the lengths before frame `k + 1` is that before frame `k` and the length of frame `k`. -/
theorem sum_take_succ_of_getElem? {frames : List (List Byte)} {k : Nat} {f : List Byte} (h : frames[k]? = some f) :
    ((frames.take (k + 1)).map List.length).sum = ((frames.take k).map List.length).sum + f.length := by
  simp [List.take_add_one, h]

theorem sum_take_le (frames : List (List Byte)) (k : Nat) :
    ((frames.take k).map List.length).sum ≤ (frames.map List.length).sum := by
  rw [List.map_take]
  exact (List.take_sublist k _).sum_le_sum (by simp)

/-- The concatenation of the frames holds frame `k` behind the bytes of the frames before it. -/
theorem flatten_drop_take {frames : List (List Byte)} {k : Nat} {f : List Byte} (h : frames[k]? = some f) :
    (frames.flatten.drop ((frames.take k).map List.length).sum).take f.length = f := by
  obtain ⟨hk, rfl⟩ := List.getElem?_eq_some_iff.1 h
  have hsplit : frames.flatten = (frames.take k).flatten ++ (frames[k] ++ (frames.drop (k + 1)).flatten) := by
    rw [← List.flatten_cons, ← List.drop_eq_getElem_cons hk, ← List.flatten_append, List.take_append_drop]
  rw [hsplit, ← List.length_flatten, List.drop_left, List.take_left]

theorem buildContainer_drop_take {frames : List (List Byte)} {k : Nat} {f : List Byte} (h : frames[k]? = some f) :
    ((buildContainer frames).drop (4 * (frames.length + 2) + ((frames.take k).map List.length).sum)).take f.length =
      f := by
  rw [buildContainer_eq, ← List.drop_drop, List.drop_left' (containerHeader_length frames)]
  exact flatten_drop_take h

/-- The offsets of a built container select each of its frames (40_indexer.md R144, R147). -/
theorem frameSlice_frameOffsets {frames : List (List Byte)} {off T k : Nat} {f : List Byte}
    (hT : off + (frames.map List.length).sum ≤ T) (hfits : T < 4294967296) (h : frames[k]? = some f) :
    frameSlice ((frameOffsets off frames).map some) (.word (BitVec.ofNat 32 T)) k =
      .ok (off + ((frames.take k).map List.length).sum, f.length) := by
  have hk : k < frames.length := (List.getElem?_eq_some_iff.1 h).1
  have hentry (j : Nat) (hj : j ≤ frames.length) : ((frameOffsets off frames).map some)[j]? =
      some (some (BitVec.ofNat 32 (off + ((frames.take j).map List.length).sum))) := by
    rw [List.getElem?_map, frameOffsets_getElem? off hj, Option.map_some]
  have hsucc := sum_take_succ_of_getElem? h
  have hle := sum_take_le frames (k + 1)
  have hoff {m : Nat} (hm : m ≤ T) : (BitVec.ofNat 32 m).toNat = m := by
    rw [BitVec.toNat_ofNat, Nat.mod_eq_of_lt (by omega)]
  rw [frameSlice_of_words _ (hentry k hk.le) (hentry (k + 1) hk), hoff (by omega), hoff (by omega), hoff le_rfl,
    if_neg (by omega), hsucc]
  congr 2
  omega

/-- Settles O22: the words of the header read back as the offsets, and consecutive offsets enclose each frame. -/
theorem containerIndexRoundTrip : Obligations.ContainerIndexRoundTrip := by
  intro frames hfits
  have hlen := buildContainer_length frames
  refine ⟨hlen, frameOffsets (4 * (frames.length + 2)) frames, parseOffsets_buildContainer (by omega),
    frameOffsets_length _ _, fun k f hf => ⟨?_, buildContainer_drop_take hf⟩, fun k hk => ?_⟩
  · exact frameSlice_frameOffsets hlen.ge (by omega) hf
  · exact frameSlice_out_of_range (by simpa using hk)

/-! ### BUILD_CONTAINER (40_indexer.md R148) -/

theorem readLengths_of_read {m : Memory Word} {p : Nat} {lens : List Nat}
    (h : ∀ k l, lens[k]? = some l → ∃ v, Memory.read m (p + k) = some v ∧ v.toNat = l) :
    readLengths m p lens.length = .ok lens := by
  induction lens generalizing p with
  | nil => rfl
  | cons l ls ih =>
    obtain ⟨v, hv, rfl⟩ := h 0 l rfl
    have hrest : readLengths m (p + 1) ls.length = .ok ls := ih fun k l hl => by
      rw [Nat.add_assoc, Nat.add_comm 1]
      exact h (k + 1) l hl
    rw [Nat.add_zero] at hv
    simp only [List.length_cons, readLengths, hv, hrest, Except.map]

/-- Frames are cut out of their concatenation. -/
theorem cutFrames_append (pre : List Byte) (frames : List (List Byte)) :
    cutFrames ((pre ++ frames.flatten).map some) pre.length (frames.map List.length) = .ok frames := by
  induction frames generalizing pre with
  | nil => rfl
  | cons f fs ih =>
    have hslice : readSlice ((pre ++ (f ++ fs.flatten)).map some) pre.length (pre.length + f.length) = .ok f := by
      rw [readSlice_map_some, List.drop_take, List.drop_left, Nat.add_sub_cancel_left, List.take_left]
    have hrest := ih (pre ++ f)
    rw [List.append_assoc, List.length_append] at hrest
    simp only [List.flatten_cons, List.map_cons, cutFrames, hslice, hrest, bind, Except.bind, pure, Except.pure]

theorem execBuildContainer_exceeds {s : State} (h : s.cfg.maxIbuf < s.inBase.toNat + s.inLen.toNat) :
    exec .buildContainer s = .next (errorEntry .buildContainer .illegalRequest s) := by
  rw [exec, execBuildContainer, windowOp_of_exceeds h]

/-- The check of FRAME_COUNT against MAX_FRAMES precedes every read of FLEN. -/
theorem execBuildContainer_count_over {s : State} {n : Word} (hw : s.inBase.toNat + s.inLen.toNat ≤ s.cfg.maxIbuf)
    (hn : s.frameCount = .word n) (h : s.cfg.maxFrames < n.toNat) :
    exec .buildContainer s = .next (errorEntry .buildContainer .illegalRequest s) := by
  rw [exec, execBuildContainer, windowOp_of_fits hw, hn]
  simp only [RegValue.get, bind, Except.bind, h, if_true, conclude_raise]

section Lengths

variable {s : State} {n : Word} {lens : List Nat} (hw : s.inBase.toNat + s.inLen.toNat ≤ s.cfg.maxIbuf)
  (hn : s.frameCount = .word n) (hmax : n.toNat ≤ s.cfg.maxFrames) (hlens : readLengths s.flen 0 n.toNat = .ok lens)
include hw hn hmax hlens

theorem execBuildContainer_sum_ne (h : lens.sum ≠ s.inLen.toNat) :
    exec .buildContainer s = .next (errorEntry .buildContainer .illegalRequest s) := by
  rw [exec, execBuildContainer, windowOp_of_fits hw, hn]
  simp only [RegValue.get, bind, Except.bind, Nat.not_lt.2 hmax, if_false, hlens, ne_eq, h, not_false_eq_true,
    if_true, conclude_raise]

/-- Once the frames are cut, the two capacity checks and the store remain. -/
theorem execBuildContainer_of_frames {frames : List (List Byte)} (hsum : lens.sum = s.inLen.toNat)
    (hframes : cutFrames s.window 0 lens = .ok frames) :
    exec .buildContainer s = conclude .buildContainer s
      (if u32Max < 4 * (n.toNat + 2) + lens.sum then raise .capacityExceeded
        else storeOutput s (buildContainer frames)) := by
  rw [exec, execBuildContainer, windowOp_of_fits hw, hn]
  simp only [RegValue.get, bind, Except.bind, Nat.not_lt.2 hmax, if_false, hlens, ne_eq, hsum, not_true_eq_false,
    hframes]

end Lengths

/-- Settles O21: the checks in the order of the pseudocode; a window that is the frames' concatenation is cut into
them, and the container's length is the sum both capacity checks compare. -/
theorem buildContainerOperation : Obligations.BuildContainerOperation := by
  refine ⟨by decide, fun s => ⟨execBuildContainer_exceeds, fun n hw hn => ⟨execBuildContainer_count_over hw hn, ?_⟩⟩⟩
  intro lens hmax hcount hflen
  have hlens : readLengths s.flen 0 n.toNat = .ok lens :=
    hcount ▸ readLengths_of_read (by simpa only [Nat.zero_add] using hflen)
  refine ⟨execBuildContainer_sum_ne hw hn hmax hlens, fun frames hframes hwindow => ?_⟩
  have hsum : lens.sum = s.inLen.toNat := by
    rw [← hframes, ← List.length_flatten, ← window_length, hwindow, List.length_map]
  have hcut : cutFrames s.window 0 lens = .ok frames := by
    rw [hwindow, ← hframes]
    exact cutFrames_append [] frames
  have htotal : (buildContainer frames).length = 4 * (n.toNat + 2) + lens.sum := by
    rw [buildContainer_length, hframes, ← hcount, ← hframes, List.length_map]
  have hexec := execBuildContainer_of_frames hw hn hmax hlens hsum hcut
  refine ⟨fun hover => hexec.trans ?_, fun hu32 hobuf => hexec.trans ?_⟩
  · split
    · rfl
    · rename_i hu32
      rw [storeOutput_over (htotal ▸ hover.resolve_left hu32)]
      rfl
  · rw [if_neg (Nat.not_lt.2 hu32), storeOutput_fits (htotal ▸ hobuf), htotal]
    rfl

end Sys2Proof.Proofs.Indexer
end

section
/-! SUPPORT. Proofs for 41_decoder.md: where the commands of a frame begin (R181, R182), one command (R183 to R189), the
two replays (R190, R191, R196), the streams the assembler writes (30_encoding.md R119, R120), and the decoder's
operations (R192 to R195). -/

namespace Sys2Proof.Proofs.Decoder

open Sys2Proof Sys2Proof.Machine Sys2Proof.Proofs.Scope Sys2Proof.Proofs.Block

/-! ### Where the commands of a frame begin (41_decoder.md R181, R182) -/

section CmdStart

variable {rule : HdrRule} {F : Window}

theorem cmdStart_headerless (h : hdrPresent rule F = .ok false) : cmdStart rule F = .ok 0 := by
  rw [cmdStart, h]
  rfl

theorem cmdStart_header (h : hdrPresent rule F = .ok true) (hlen : 10 ≤ F.length) : cmdStart rule F = .ok 10 := by
  rw [cmdStart, h]
  exact if_neg (Nat.not_lt.2 hlen)

theorem cmdStart_header_cut (h : hdrPresent rule F = .ok true) (hlen : F.length < 10) :
    cmdStart rule F = raise .unexpectedEndOfFrame := by
  rw [cmdStart, h]
  exact if_pos hlen

/-- Settles O10: the header test reads the first byte alone, and the header's length is checked only behind it. -/
theorem headerTestAndStreamStart : Obligations.HeaderTestAndStreamStart :=
  ⟨fun _ => rfl, fun _ _ => rfl, fun _ _ => rfl,
    fun _ _ => ⟨cmdStart_headerless, cmdStart_header, cmdStart_header_cut⟩⟩

/-- A start is at 0 in a headerless frame, or at 10 behind a whole header. -/
theorem cmdStart_ok {pc : Nat} (h : cmdStart rule F = .ok pc) :
    (hdrPresent rule F = .ok false ∧ pc = 0) ∨ (hdrPresent rule F = .ok true ∧ pc = 10 ∧ 10 ≤ F.length) := by
  obtain ⟨hd, hhdr, -⟩ := bind_eq_ok h
  cases hd with
  | false => exact .inl ⟨hhdr, Except.ok.inj (h.symm.trans (cmdStart_headerless hhdr))⟩
  | true =>
    obtain hlen | hlen := Nat.lt_or_ge F.length 10
    · cases h.symm.trans (cmdStart_header_cut hhdr hlen)
    · exact .inr ⟨hhdr, Except.ok.inj (h.symm.trans (cmdStart_header hhdr hlen)), hlen⟩

/-- The header test does not see what follows a frame that is not empty. -/
theorem hdrPresent_append (hF : F ≠ []) (G : Window) : hdrPresent rule (F ++ G) = hdrPresent rule F := by
  obtain ⟨b, F, rfl⟩ := List.exists_cons_of_ne_nil hF
  rfl

/-- A frame cut short behind its start keeps the start; cut inside its header it is UnexpectedEndOfFrame. -/
theorem cmdStart_take {pc j : Nat} (h : cmdStart rule F = .ok pc) (hj : 0 < j) :
    cmdStart rule (F.take j) = if j < pc then raise .unexpectedEndOfFrame else .ok pc := by
  have hhdr : hdrPresent rule (F.take j) = hdrPresent rule F := by
    obtain ⟨j, rfl⟩ := Nat.exists_eq_add_one.2 hj
    cases F <;> rfl
  obtain ⟨hno, rfl⟩ | ⟨hyes, rfl, hlen⟩ := cmdStart_ok h
  · exact cmdStart_headerless (hhdr.trans hno)
  · split
    · exact cmdStart_header_cut (hhdr.trans hyes) (by rw [List.length_take]; omega)
    · exact cmdStart_header (hhdr.trans hyes) (by rw [List.length_take]; omega)

/-- `h` is a whole header, or is empty and the frame `body` is headerless. -/
def HeaderThen (rule : HdrRule) (h body : List Byte) : Prop :=
  (h = [] ∧ hdrPresent rule (body.map some) = .ok false) ∨ (h.length = 10 ∧ hdrPresent rule (h.map some) = .ok true)

theorem HeaderThen.cmdStart_eq {h body : List Byte} (hh : HeaderThen rule h body) :
    cmdStart rule ((h ++ body).map some) = .ok h.length := by
  obtain ⟨rfl, hno⟩ | ⟨hlen, hyes⟩ := hh
  · exact cmdStart_headerless hno
  · have hne : h.map some ≠ [] := List.ne_nil_of_length_pos (by rw [List.length_map]; omega)
    rw [List.map_append, hlen]
    refine cmdStart_header ((hdrPresent_append hne _).trans hyes) ?_
    rw [List.length_append, List.length_map]
    omega

theorem HeaderThen.cmdStart_append {h body tail : List Byte} (hh : HeaderThen rule h (body ++ tail)) :
    cmdStart rule ((h ++ body ++ tail).map some) = .ok h.length := by
  rw [List.append_assoc]
  exact hh.cmdStart_eq

theorem HeaderThen.append {h body : List Byte} (hh : HeaderThen rule h body) (hne : body ≠ []) (tail : List Byte) :
    HeaderThen rule h (body ++ tail) := by
  obtain ⟨rfl, hno⟩ | hyes := hh
  · have hne' : body.map some ≠ [] := by simpa using hne
    exact .inl ⟨rfl, by rw [List.map_append, hdrPresent_append hne', hno]⟩
  · exact .inr hyes

end CmdStart

/-! ### One command (41_decoder.md R183, R189) -/

/-- A command that is executed is a whole literal run inside the frame, or a transparency run. -/
theorem execAt_cases {F : Window} {pc : Nat} {c : CmdResult} (h : execAt F pc = .ok c) :
    ∃ b, F[pc]? = some (some b) ∧
      ((b.toNat < 128 ∧ litRun b.toNat F pc = .ok c) ∨ (128 ≤ b.toNat ∧ trnRun (0x100 - b.toNat) F pc = .ok c)) := by
  obtain ⟨b, hb, -⟩ := bind_eq_ok h
  rw [readByte_ok] at hb
  obtain hk | hk := Nat.lt_or_ge b.toNat 128
  · exact ⟨b, hb, .inl ⟨hk, (execAt_literal hb hk).symm.trans h⟩⟩
  · exact ⟨b, hb, .inr ⟨hk, (execAt_transparent hb hk).symm.trans h⟩⟩

/-- The count of a command is the number of its pixels. -/
theorem execAt_n {F : Window} {pc : Nat} {c : CmdResult} (h : execAt F pc = .ok c) : c.n = c.pixels.length := by
  obtain ⟨b, -, ⟨-, hlit⟩ | ⟨-, htrn⟩⟩ := execAt_cases h
  · obtain ⟨hlen, px, hpx, rfl⟩ := litRun_ok hlit
    have hslice := congrArg List.length (Encoding.readSlice_ok hpx)
    rw [List.length_map, List.length_take, List.length_drop] at hslice
    dsimp only
    omega
  · cases htrn
    exact List.length_replicate.symm

section Take

variable {F : Window} {pc : Nat} {c : CmdResult}

/-- A command does not see what follows it (41_decoder.md R197). -/
theorem execAt_take {k : Nat} (h : execAt F pc = .ok c) (hk : c.next ≤ k) : execAt (F.take k) pc = .ok c := by
  have hpc := execAt_next h
  obtain ⟨b, hb, hrun⟩ := execAt_cases h
  have hb' : (F.take k)[pc]? = some (some b) := by rw [List.getElem?_take_of_lt (by omega), hb]
  obtain ⟨hlt, hlit⟩ | ⟨hge, htrn⟩ := hrun
  · obtain ⟨hlen, px, hpx, rfl⟩ := litRun_ok hlit
    dsimp only at hk
    have hlen' : ¬ (F.take k).length < pc + 1 + b.toNat := by rw [List.length_take]; omega
    have hpx' : readSlice (F.take k) (pc + 1) (pc + 1 + b.toNat) = .ok px := by
      rw [readSlice, List.take_take, Nat.min_eq_left hk]
      exact hpx
    rw [execAt_literal hb' hlt, litRun, if_neg hlen', hpx']
    rfl
  · rw [execAt_transparent hb' hge]
    exact htrn

/-- A frame cut inside a command is UnexpectedEndOfFrame there: the command is a literal run. -/
theorem execAt_take_cut {j : Nat} (h : execAt F pc = .ok c) (hpc : pc < j) (hj : j < c.next) :
    execAt (F.take j) pc = raise .unexpectedEndOfFrame := by
  obtain ⟨b, hb, ⟨hlt, hlit⟩ | ⟨-, htrn⟩⟩ := execAt_cases h
  · have hb' : (F.take j)[pc]? = some (some b) := by rw [List.getElem?_take_of_lt hpc, hb]
    obtain ⟨-, px, -, rfl⟩ := litRun_ok hlit
    dsimp only at hj
    rw [execAt_literal hb' hlt]
    exact litRun_short (by rw [List.length_take]; omega)
  · cases htrn
    dsimp only at hj
    omega

end Take

/-! ### Commands one after another -/

/-- The commands of `F` from index `pc` up to `stop`, one after another: their terminator bits and their pixels. -/
inductive Replays (F : Window) : Nat → List Bool → List Byte → Nat → Prop
  | nil (pc : Nat) : Replays F pc [] [] pc
  | cons {pc stop : Nat} {c : CmdResult} {t : Bool} {ts : List Bool} {px : List Byte} (command : execAt F pc = .ok c)
    (term : c.term = t) (rest : Replays F c.next ts px stop) : Replays F pc (t :: ts) (c.pixels ++ px) stop

theorem replays_single {F : Window} {pc : Nat} {c : CmdResult} (h : execAt F pc = .ok c) :
    Replays F pc [c.term] c.pixels c.next := by
  simpa using Replays.cons h rfl (.nil c.next)

section Replays

variable {F : Window} {pc stop : Nat} {ts : List Bool} {px : List Byte}

theorem Replays.append {stop' : Nat} {us : List Bool} {py : List Byte} (h : Replays F pc ts px stop)
    (h' : Replays F stop us py stop') : Replays F pc (ts ++ us) (px ++ py) stop' := by
  induction h with
  | nil pc => exact h'
  | cons command term rest ih =>
    rw [List.append_assoc]
    exact .cons command term (ih h')

theorem Replays.split {us : List Bool} {p : List Byte} (h : Replays F pc (ts ++ us) p stop) :
    ∃ px q py, Replays F pc ts px q ∧ Replays F q us py stop ∧ p = px ++ py := by
  induction ts generalizing pc p with
  | nil => exact ⟨[], pc, p, .nil pc, h, rfl⟩
  | cons t ts ih =>
    cases h with
    | cons command term rest =>
      obtain ⟨px, q, py, hts, hus, rfl⟩ := ih rest
      exact ⟨_, q, py, .cons command term hts, hus, (List.append_assoc _ _ _).symm⟩

/-- Every command advances `pc` (41_decoder.md R189). -/
theorem Replays.add_length_le (h : Replays F pc ts px stop) : pc + ts.length ≤ stop := by
  induction h with
  | nil pc => exact Nat.le_refl pc
  | cons command term rest ih =>
    have hnext := (execAt_next command).1
    rw [List.length_cons]
    omega

/-- No command passes the end of the frame (41_decoder.md R189). -/
theorem Replays.stop_le (h : Replays F pc ts px stop) (hpc : pc ≤ F.length) : stop ≤ F.length := by
  induction h with
  | nil pc => exact hpc
  | cons command term rest ih => exact ih (execAt_next command).2

/-- Commands do not see what follows them. -/
theorem Replays.take {k : Nat} (h : Replays F pc ts px stop) (hk : stop ≤ k) : Replays (F.take k) pc ts px stop := by
  induction h with
  | nil pc => exact .nil pc
  | cons command term rest ih =>
    have hnext := rest.add_length_le
    exact .cons (execAt_take command (by omega)) term (ih hk)

/-! ### The two replays over commands one after another (41_decoder.md R190, R191) -/

theorem decodeLoop_end (h : F.length ≤ pc) (fuel : Nat) (out : List Byte) :
    decodeLoop F (fuel + 1) pc out = .ok out := if_pos h

theorem decodeLoop_command {c : CmdResult} (h : execAt F pc = .ok c) (fuel : Nat) (out : List Byte) :
    decodeLoop F (fuel + 1) pc out = decodeLoop F fuel c.next (out ++ c.pixels) := by
  have hpc : ¬ F.length ≤ pc := by have := execAt_next h; omega
  rw [decodeLoop, if_neg hpc, h]
  rfl

theorem decodeLoop_error {e : Stop} (hpc : pc < F.length) (h : execAt F pc = .error e) (fuel : Nat) (out : List Byte) :
    decodeLoop F (fuel + 1) pc out = .error e := by
  rw [decodeLoop, if_neg (Nat.not_le.2 hpc), h]
  rfl

/-- Full decode takes up the pixels of the commands it meets. -/
theorem decodeLoop_replays (h : Replays F pc ts px stop) (fuel : Nat) (out : List Byte) :
    decodeLoop F (ts.length + fuel) pc out = decodeLoop F fuel stop (out ++ px) := by
  induction h generalizing out with
  | nil pc => rw [List.length_nil, Nat.zero_add, List.append_nil]
  | cons command term rest ih =>
    rw [List.length_cons, Nat.add_right_comm, decodeLoop_command command, ih, List.append_assoc]

theorem widthLoop_end (h : F.length ≤ pc) (fuel acc : Nat) :
    widthLoop F fuel pc acc = raise .unexpectedEndOfFrame := by
  cases fuel with
  | zero => rfl
  | succ fuel => exact if_pos h

theorem widthLoop_command {c : CmdResult} (h : execAt F pc = .ok c) (fuel acc : Nat) :
    widthLoop F (fuel + 1) pc acc = if c.term then .ok (acc + c.n) else widthLoop F fuel c.next (acc + c.n) := by
  have hpc : ¬ F.length ≤ pc := by have := execAt_next h; omega
  rw [widthLoop, if_neg hpc, h]
  rfl

theorem widthLoop_error {e : Stop} (hpc : pc < F.length) (h : execAt F pc = .error e) (fuel acc : Nat) :
    widthLoop F (fuel + 1) pc acc = .error e := by
  rw [widthLoop, if_neg (Nat.not_le.2 hpc), h]
  rfl

/-- Width inference counts the pixels of the maximal runs it meets. -/
theorem widthLoop_maximal (h : Replays F pc ts px stop) (hmax : ∀ t ∈ ts, t = false) (fuel acc : Nat) :
    widthLoop F (ts.length + fuel) pc acc = widthLoop F fuel stop (acc + px.length) := by
  induction h generalizing acc with
  | nil pc => rw [List.length_nil, Nat.zero_add, List.length_nil, Nat.add_zero]
  | cons command term rest ih =>
    obtain ⟨ht, hts⟩ := List.forall_mem_cons.1 hmax
    rw [List.length_cons, Nat.add_right_comm, widthLoop_command command, term, ht, if_neg Bool.false_ne_true, ih hts,
      execAt_n command, List.length_append, Nat.add_assoc]

/-- Width inference ends with the pixels of a terminator. -/
theorem widthLoop_terminator (h : Replays F pc [true] px stop) (fuel acc : Nat) :
    widthLoop F (fuel + 1) pc acc = .ok (acc + px.length) := by
  cases h with
  | cons command term rest =>
    cases rest with
    | nil => rw [widthLoop_command command, term, if_pos rfl, execAt_n command, List.append_nil]

/-- A width that is found is that of maximal runs and one terminator. -/
theorem widthLoop_ok {fuel acc w : Nat} (h : widthLoop F fuel pc acc = .ok w) :
    ∃ ts px q py k, Replays F pc ts px q ∧ (∀ t ∈ ts, t = false) ∧ Replays F q [true] py k ∧
      w = acc + (px ++ py).length := by
  induction fuel generalizing pc acc with
  | zero => cases h
  | succ fuel ih =>
    unfold widthLoop at h
    split at h
    · cases h
    · obtain ⟨c, command, h⟩ := bind_eq_ok h
      have hn := execAt_n command
      split at h
      · rename_i hterm
        cases h
        exact ⟨[], [], pc, c.pixels, c.next, .nil pc, by simp, hterm ▸ replays_single command, by simp [hn]⟩
      · rename_i hterm
        obtain ⟨ts, px, q, py, k, hruns, hmax, hrow, rfl⟩ := ih h
        exact ⟨_, _, q, py, k, .cons command (eq_false_of_ne_true hterm) hruns, List.forall_mem_cons.2 ⟨rfl, hmax⟩,
          hrow, by simp [hn, Nat.add_assoc]⟩

/-- Full decode keeps the pixels it has. -/
theorem decodeLoop_prefix {fuel : Nat} {out p : List Byte} (h : decodeLoop F fuel pc out = .ok p) : out <+: p := by
  induction fuel generalizing pc out with
  | zero =>
    cases h
    exact List.prefix_rfl
  | succ fuel ih =>
    unfold decodeLoop at h
    split at h
    · cases h
      exact List.prefix_rfl
    · obtain ⟨c, -, h⟩ := bind_eq_ok h
      exact (List.prefix_append out c.pixels).trans (ih h)

/-! ### `decompress(F)` and `frameWidth(F)` over commands one after another -/

/-- The fuel of a replay covers every command of the frame, and one round more (70_reset_and_hazards.md R315). -/
theorem Replays.fuel_eq (h : Replays F pc ts px stop) (hstop : stop ≤ F.length) :
    ∃ fuel, F.length + 1 = ts.length + (fuel + 1) := by
  have hle := h.add_length_le
  exact ⟨F.length - ts.length, by omega⟩

variable {rule : HdrRule}

/-- Full decode of a frame from behind its first commands on. -/
theorem decompress_replays (hs : cmdStart rule F = .ok pc) (h : Replays F pc ts px stop) (hstop : stop ≤ F.length) :
    ∃ fuel, decompress rule F = decodeLoop F (fuel + 1) stop px := by
  obtain ⟨fuel, hfuel⟩ := h.fuel_eq hstop
  refine ⟨fuel, ?_⟩
  rw [decompress, hs]
  calc decodeLoop F (F.length + 1) pc []
      _ = decodeLoop F (ts.length + (fuel + 1)) pc [] := by rw [hfuel]
      _ = decodeLoop F (fuel + 1) stop px := decodeLoop_replays h _ _

theorem decompress_whole (hs : cmdStart rule F = .ok pc) (h : Replays F pc ts px stop) (hstop : stop = F.length) :
    decompress rule F = .ok px := by
  obtain ⟨fuel, hdec⟩ := decompress_replays hs h hstop.le
  exact hdec.trans (decodeLoop_end hstop.ge _ _)

/-- Width inference of a frame from behind its first maximal runs on. -/
theorem frameWidth_maximal (hs : cmdStart rule F = .ok pc) (h : Replays F pc ts px stop) (hmax : ∀ t ∈ ts, t = false)
    (hstop : stop ≤ F.length) : ∃ fuel, frameWidth rule F = widthLoop F (fuel + 1) stop px.length := by
  obtain ⟨fuel, hfuel⟩ := h.fuel_eq hstop
  refine ⟨fuel, ?_⟩
  rw [frameWidth, hs]
  calc widthLoop F (F.length + 1) pc 0
      _ = widthLoop F (ts.length + (fuel + 1)) pc 0 := by rw [hfuel]
      _ = widthLoop F (fuel + 1) stop px.length := by rw [widthLoop_maximal h hmax, Nat.zero_add]

theorem frameWidth_row {k : Nat} {py : List Byte} (hs : cmdStart rule F = .ok pc) (h : Replays F pc ts px stop)
    (hmax : ∀ t ∈ ts, t = false) (hrow : Replays F stop [true] py k) (hk : k ≤ F.length) :
    frameWidth rule F = .ok (px ++ py).length := by
  have hle := hrow.add_length_le
  obtain ⟨fuel, hwidth⟩ := frameWidth_maximal hs h hmax (by omega)
  rw [hwidth, widthLoop_terminator hrow, List.length_append]

/-! ### The first row (41_decoder.md R196) -/

/-- A frame cut short of the end of its first terminator has no width. -/
theorem widthLoop_take {j k : Nat} {py : List Byte} (h : Replays F pc ts px stop) (hmax : ∀ t ∈ ts, t = false)
    (hrow : Replays F stop [true] py k) (hj : j < k) (fuel acc : Nat) :
    widthLoop (F.take j) fuel pc acc = raise .unexpectedEndOfFrame := by
  induction fuel generalizing pc ts px acc with
  | zero => rfl
  | succ fuel ih =>
    obtain hpc | hend := Nat.lt_or_ge pc (F.take j).length
    · have hpcj : pc < j := hpc.trans_le (List.length_take_le j F)
      cases h with
      | nil =>
        cases hrow with
        | cons command term rest =>
          cases rest with
          | nil => exact widthLoop_error hpc (execAt_take_cut command hpcj hj) fuel acc
      | @cons _ _ c t ts px command term rest =>
        obtain ⟨rfl, hts⟩ := List.forall_mem_cons.1 hmax
        obtain hcut | hin := Nat.lt_or_ge j c.next
        · exact widthLoop_error hpc (execAt_take_cut command hpcj hcut) fuel acc
        · rw [widthLoop_command (execAt_take command hin), term, if_neg Bool.false_ne_true]
          exact ih rest hts _
    · exact widthLoop_end hend _ acc

theorem frameWidth_nil (rule : HdrRule) : frameWidth rule [] = raise .unexpectedEndOfFrame := rfl

theorem frameWidth_take {j k : Nat} {py : List Byte} (hs : cmdStart rule F = .ok pc) (h : Replays F pc ts px stop)
    (hmax : ∀ t ∈ ts, t = false) (hrow : Replays F stop [true] py k) (hj : j < k) :
    frameWidth rule (F.take j) = raise .unexpectedEndOfFrame := by
  obtain rfl | hpos := Nat.eq_zero_or_pos j
  · exact frameWidth_nil rule
  · rw [frameWidth, cmdStart_take hs hpos]
    split
    · rfl
    · exact widthLoop_take h hmax hrow hj _ 0

end Replays

/-- Settles O13: `k` is where the terminator that width inference stops at ends; the commands up to it run alike in the
frame cut there, and are all it has. -/
theorem firstRowPixelsAreThePrefix : Obligations.FirstRowPixelsAreThePrefix := by
  intro rule F w p hw hp
  obtain ⟨pc, hs, hloop⟩ := bind_eq_ok hw
  obtain ⟨ts, px, q, py, k, hruns, hmax, hrow, rfl⟩ := widthLoop_ok hloop
  have hall := hruns.append hrow
  have hk : k ≤ F.length := hall.stop_le (cmdStart_le hs)
  have hpck : pc < k := by
    have := hall.add_length_le
    rw [List.length_append, List.length_singleton] at this
    omega
  have hlen : (F.take k).length = k := by rw [List.length_take, Nat.min_eq_left hk]
  have hs' : cmdStart rule (F.take k) = .ok pc := by rw [cmdStart_take hs (by omega), if_neg (by omega)]
  have hprefix : px ++ py <+: p := by
    obtain ⟨fuel, hdec⟩ := decompress_replays hs hall hk
    exact decodeLoop_prefix (hdec.symm.trans hp)
  rw [Nat.zero_add, ← List.prefix_iff_eq_take.1 hprefix]
  refine ⟨hprefix.length_le, k, hk, ?_, ?_, fun j hj => frameWidth_take hs hruns hmax hrow hj⟩
  · have hq := hrow.add_length_le
    exact frameWidth_row hs' (hruns.take (by omega)) hmax (hrow.take (Nat.le_refl k)) hlen.ge
  · exact decompress_whole hs' (hall.take (Nat.le_refl k)) hlen.symm

/-! ### The bytes of whole commands (30_encoding.md R100 to R105) -/

theorem litRun_whole {F : Window} {pc n : Nat} {px : List Byte} (hlen : pc + 1 + n ≤ F.length)
    (hpx : readSlice F (pc + 1) (pc + 1 + n) = .ok px) :
    litRun n F pc = .ok { n := n, pixels := px, next := pc + 1 + n, term := decide (n < litMaxRun) } := by
  rw [litRun, if_neg (Nat.not_lt.2 hlen), hpx]
  rfl

theorem readSlice_append_map_some (pre post : Window) (bs : List Byte) :
    readSlice (pre ++ bs.map some ++ post) pre.length (pre.length + bs.length) = .ok bs := by
  have hlen : (pre ++ bs.map some).length = pre.length + bs.length := by rw [List.length_append, List.length_map]
  rw [readSlice, List.take_left' hlen, List.drop_left, specified_map_some]

/-- `bytes` are whole commands with the terminator bits `ts` and the pixels `px`, wherever they stand. -/
def Commands (bytes : List Byte) (ts : List Bool) (px : List Byte) : Prop :=
  ∀ pre post : Window, Replays (pre ++ bytes.map some ++ post) pre.length ts px (pre.length + bytes.length)

theorem commands_nil : Commands [] [] [] := fun pre _ => .nil pre.length

theorem Commands.append {x y : List Byte} {ts us : List Bool} {px py : List Byte} (hx : Commands x ts px)
    (hy : Commands y us py) : Commands (x ++ y) (ts ++ us) (px ++ py) := by
  intro pre post
  have hfirst := hx pre (y.map some ++ post)
  have hrest := hy (pre ++ x.map some) post
  rw [List.length_append, List.length_map] at hrest
  rw [List.map_append, ← List.append_assoc, List.length_append, ← Nat.add_assoc]
  exact .append (by simpa only [List.append_assoc] using hfirst) hrest

theorem Commands.replays {bytes px : List Byte} {ts : List Bool} (hc : Commands bytes ts px) (h tail : List Byte) :
    Replays ((h ++ bytes ++ tail).map some) h.length ts px (h.length + bytes.length) := by
  simpa using hc (h.map some) (tail.map some)

theorem Commands.length_le {bytes px : List Byte} {ts : List Bool} (hc : Commands bytes ts px) :
    ts.length ≤ bytes.length := Nat.le_of_add_le_add_left (hc.replays [] []).add_length_le

/-- A literal command byte and its payload (30_encoding.md R101). -/
theorem commands_literal {c : Byte} {px : List Byte} (hc : c.toNat < 128) (hpx : px.length = c.toNat) :
    Commands (c :: px) [decide (px.length < 127)] px := by
  intro pre post
  have hbyte := readByte_ok.1 (readByte_append_map_some pre post (bs := c :: px) (j := 0) rfl)
  have hslice := readSlice_append_map_some (pre ++ [some c]) post px
  rw [List.length_append, List.length_singleton, List.append_assoc pre, List.singleton_append] at hslice
  have hlen : pre.length + 1 + px.length ≤ (pre ++ (c :: px).map some ++ post).length := by
    simp only [List.length_append, List.length_map, List.length_cons]
    omega
  have hexec := (execAt_literal hbyte hc).trans (litRun_whole (hpx ▸ hlen) (hpx ▸ hslice))
  rw [hpx, List.length_cons, hpx, Nat.add_comm c.toNat, ← Nat.add_assoc]
  exact replays_single hexec

/-- A transparent command byte (30_encoding.md R102). -/
theorem commands_transparent {c : Byte} (hc : 128 ≤ c.toNat) :
    Commands [c] [decide (0x100 - c.toNat < 128)] (List.replicate (0x100 - c.toNat) sentinel) := by
  intro pre post
  have hbyte := readByte_ok.1 (readByte_append_map_some pre post (bs := [c]) (j := 0) rfl)
  exact replays_single (execAt_transparent hbyte hc)

/-- A literal command whose payload the end of the frame cuts short (41_decoder.md R183). -/
theorem execAt_cut (h bytes : List Byte) {c : Byte} {px : List Byte} (hc : c.toNat < 128) (hpx : px.length < c.toNat) :
    execAt ((h ++ bytes ++ c :: px).map some) (h.length + bytes.length) = raise .unexpectedEndOfFrame := by
  have hbyte : ((h ++ bytes ++ c :: px).map some)[h.length + bytes.length]? = some (some c) := by
    rw [← List.length_append, List.getElem?_map, List.getElem?_append_right (Nat.le_refl _), Nat.sub_self]
    rfl
  rw [execAt_literal hbyte hc]
  refine litRun_short ?_
  simp only [List.length_map, List.length_append, List.length_cons]
  omega

/-! ### The lines of a command stream (30_encoding.md R119, R120) -/

theorem commands_lit {bytes : List Byte} (h : bytes.length ≤ 127) :
    Commands (BitVec.ofNat 8 bytes.length :: bytes) [decide (bytes.length < 127)] bytes := by
  have hc : (BitVec.ofNat 8 bytes.length).toNat = bytes.length := by
    rw [BitVec.toNat_ofNat, Nat.mod_eq_of_lt (by omega)]
  exact commands_literal (by omega) hc.symm

theorem commands_trn {n : Nat} (h1 : 1 ≤ n) (h2 : n ≤ 128) :
    Commands [BitVec.ofNat 8 (0x100 - n)] [decide (n < 128)] (List.replicate n sentinel) := by
  have hc : 0x100 - (BitVec.ofNat 8 (0x100 - n)).toNat = n := by
    rw [BitVec.toNat_ofNat, Nat.mod_eq_of_lt (by omega)]
    omega
  have htrn := commands_transparent (c := BitVec.ofNat 8 (0x100 - n)) (by omega)
  rwa [hc] at htrn

/-- A literal block is maximal runs and at most one more literal run (42_encoder.md R234). -/
theorem commands_litLoop {fuel : Nat} {B : List Byte} (h : B.length < fuel) :
    ∃ ts, Commands (litLoop fuel B) ts B := by
  induction fuel generalizing B with
  | zero => omega
  | succ fuel ih =>
    unfold litLoop
    split
    · rename_i hmax
      have hlen : (B.take litMaxRun).length = 127 := List.length_take_of_le hmax
      have hrun := commands_lit hlen.le
      rw [hlen] at hrun
      have hrest : (B.drop litMaxRun).length < fuel := by
        simp only [litMaxRun, List.length_drop] at hmax ⊢
        omega
      obtain ⟨ts, hts⟩ := ih hrest
      have hall := hrun.append hts
      rw [List.take_append_drop] at hall
      exact ⟨_, hall⟩
    · rename_i hmax
      simp only [litMaxRun] at hmax
      split
      · exact ⟨_, commands_lit (by omega)⟩
      · obtain rfl : B = [] := List.eq_nil_of_length_eq_zero (by omega)
        exact ⟨_, commands_nil⟩

/-- A transparent block is maximal runs and at most one more transparency run (42_encoder.md R233). -/
theorem commands_sentLoop {fuel m : Nat} (h : m < fuel) :
    ∃ ts, Commands (sentLoop fuel m) ts (List.replicate m sentinel) := by
  induction fuel generalizing m with
  | zero => omega
  | succ fuel ih =>
    unfold sentLoop
    split
    · rename_i hmax
      simp only [trnMaxRun] at hmax
      obtain ⟨ts, hts⟩ := ih (m := m - trnMaxRun) (by simp only [trnMaxRun]; omega)
      have hall := (commands_trn (n := 128) (by decide) (by decide)).append hts
      rw [List.replicate_append_replicate, show 128 + (m - trnMaxRun) = m from Nat.add_sub_cancel' hmax] at hall
      exact ⟨_, hall⟩
    · rename_i hmax
      simp only [trnMaxRun] at hmax
      split
      · rename_i hpos
        exact ⟨_, commands_trn hpos (by omega)⟩
      · obtain rfl : m = 0 := by omega
        exact ⟨_, commands_nil⟩

/-- A line of one command has that command's terminator bit (30_encoding.md R103). -/
theorem commands_of_single {l : AsmLine} {x : List Byte} (hl : l.isMaximal = true ∨ l.isTerminator = true)
    (h : l.assemble = some x) : Commands x [l.isTerminator] l.pixels := by
  cases l with
  | lit bytes =>
    obtain ⟨hlen, ⟨⟩⟩ := Option.ite_none_right_eq_some.1 h
    have hrun := commands_lit (bytes := bytes) (by omega)
    rwa [decide_eq_true (by omega)] at hrun
  | litMax bytes =>
    obtain ⟨hlen, ⟨⟩⟩ := Option.ite_none_right_eq_some.1 h
    have hrun := commands_lit hlen.le
    rwa [hlen] at hrun
  | trn n =>
    obtain ⟨⟨h1, h2⟩, ⟨⟩⟩ := Option.ite_none_right_eq_some.1 h
    have hrun := commands_trn h1 (by omega)
    rwa [decide_eq_true (by omega)] at hrun
  | trnMax =>
    cases h
    exact commands_trn (n := 128) (by decide) (by decide)
  | endRun =>
    cases h
    exact commands_lit (bytes := []) (by decide)
  | hdr bytes => simp [AsmLine.isMaximal, AsmLine.isTerminator] at hl
  | raw bytes => simp [AsmLine.isMaximal, AsmLine.isTerminator] at hl
  | runLit pixels => simp [AsmLine.isMaximal, AsmLine.isTerminator] at hl
  | runTrn m => simp [AsmLine.isMaximal, AsmLine.isTerminator] at hl

theorem commands_of_line {l : AsmLine} {x : List Byte} (hl : l.isRuns = true) (h : l.assemble = some x) :
    ∃ ts, Commands x ts l.pixels := by
  cases l with
  | lit bytes => exact ⟨_, commands_of_single (.inr rfl) h⟩
  | litMax bytes => exact ⟨_, commands_of_single (.inl rfl) h⟩
  | trn n => exact ⟨_, commands_of_single (.inr rfl) h⟩
  | trnMax => exact ⟨_, commands_of_single (.inl rfl) h⟩
  | endRun => exact ⟨_, commands_of_single (.inr rfl) h⟩
  | runLit pixels =>
    obtain ⟨-, ⟨⟩⟩ := Option.ite_none_right_eq_some.1 h
    exact commands_litLoop (Nat.lt_succ_self _)
  | runTrn m =>
    cases h
    exact commands_sentLoop (Nat.lt_succ_self _)
  | hdr bytes => cases hl
  | raw bytes => cases hl

/-! ### Command streams (30_encoding.md R119) -/

/-- The lines behind the first one assemble as a stream of their own. -/
theorem assemble_of_assembleRest {ls : List AsmLine} {y : List Byte} (h : assemble.assembleRest ls = some y) :
    assemble ls = some y := by
  cases ls with
  | nil => exact h
  | cons l ls =>
    cases l with
    | hdr bytes => cases h
    | _ => exact h

theorem assemble_cons {l : AsmLine} {ls : List AsmLine} {bytes : List Byte} (h : assemble (l :: ls) = some bytes) :
    ∃ x y, l.assemble = some x ∧ assemble ls = some y ∧ bytes = x ++ y := by
  cases hx : l.assemble with
  | none => simp [assemble, hx] at h
  | some x =>
    cases hy : assemble.assembleRest ls with
    | none => simp [assemble, hx, hy] at h
    | some y => exact ⟨x, y, rfl, assemble_of_assembleRest hy, by simpa [assemble, hx, hy] using h.symm⟩

/-- A stream of whole commands, with or without ones that terminate. -/
theorem commands_of_assemble {lines : List AsmLine} {bytes : List Byte} (hruns : ∀ l ∈ lines, l.isRuns = true)
    (h : assemble lines = some bytes) : ∃ ts, Commands bytes ts (lines.flatMap AsmLine.pixels) := by
  induction lines generalizing bytes with
  | nil =>
    cases h
    exact ⟨[], commands_nil⟩
  | cons l ls ih =>
    obtain ⟨hl, hls⟩ := List.forall_mem_cons.1 hruns
    obtain ⟨x, y, hx, hy, rfl⟩ := assemble_cons h
    obtain ⟨ts, hts⟩ := commands_of_line hl hx
    obtain ⟨us, hus⟩ := ih hls hy
    exact ⟨ts ++ us, hts.append hus⟩

/-- A stream of one-command lines has their terminator bits. -/
theorem commands_of_assemble_single {lines : List AsmLine} {bytes : List Byte}
    (hlines : ∀ l ∈ lines, l.isMaximal = true ∨ l.isTerminator = true) (h : assemble lines = some bytes) :
    Commands bytes (lines.map AsmLine.isTerminator) (lines.flatMap AsmLine.pixels) := by
  induction lines generalizing bytes with
  | nil =>
    cases h
    exact commands_nil
  | cons l ls ih =>
    obtain ⟨hl, hls⟩ := List.forall_mem_cons.1 hlines
    obtain ⟨x, y, hx, hy, rfl⟩ := assemble_cons h
    exact (commands_of_single hl hx).append (ih hls hy)

/-! ### Both replays of a command stream (41_decoder.md R190, R191) -/

section Streams

variable {rule : HdrRule} {h bytes px : List Byte} {ts : List Bool}

theorem decompress_commands (hh : HeaderThen rule h bytes) (hc : Commands bytes ts px) :
    decompress rule ((h ++ bytes).map some) = .ok px := by
  have hrun := hc.replays h []
  rw [List.append_nil] at hrun
  exact decompress_whole hh.cmdStart_eq hrun (by rw [List.length_map, List.length_append])

theorem frameWidth_commands_row {tail : List Byte} (hh : HeaderThen rule h bytes)
    (hc : Commands bytes (ts ++ [true]) px) (hmax : ∀ t ∈ ts, t = false) :
    frameWidth rule ((h ++ bytes ++ tail).map some) = .ok px.length := by
  have hne : bytes ≠ [] := by
    have hlen := hc.length_le
    rw [List.length_append, List.length_singleton] at hlen
    exact List.ne_nil_of_length_pos (by omega)
  have hs := (hh.append hne tail).cmdStart_append
  obtain ⟨_, q, _, hruns, hrow, rfl⟩ := (hc.replays h tail).split
  refine frameWidth_row hs hruns hmax hrow ?_
  simp only [List.length_map, List.length_append]
  omega

theorem frameWidth_commands_unterminated (hh : HeaderThen rule h bytes) (hc : Commands bytes ts px)
    (hmax : ∀ t ∈ ts, t = false) : frameWidth rule ((h ++ bytes).map some) = raise .unexpectedEndOfFrame := by
  have hrun := hc.replays h []
  have hlen : ((h ++ bytes).map some).length = h.length + bytes.length := by
    rw [List.length_map, List.length_append]
  rw [List.append_nil] at hrun
  obtain ⟨fuel, hwidth⟩ := frameWidth_maximal hh.cmdStart_eq hrun hmax hlen.ge
  exact hwidth.trans (widthLoop_end hlen.le _ _)

section Cut

variable {c : Byte} {payload : List Byte} (hlit : c.toNat < 128) (hcut : payload.length < c.toNat)
  (hh : HeaderThen rule h (bytes ++ c :: payload)) (hc : Commands bytes ts px)
include hlit hcut hh hc

theorem decompress_commands_cut :
    decompress rule ((h ++ bytes ++ c :: payload).map some) = raise .unexpectedEndOfFrame := by
  have hstop : h.length + bytes.length < ((h ++ bytes ++ c :: payload).map some).length := by simp
  obtain ⟨fuel, hdec⟩ := decompress_replays hh.cmdStart_append (hc.replays h _) hstop.le
  exact hdec.trans (decodeLoop_error hstop (execAt_cut h bytes hlit hcut) _ _)

theorem frameWidth_commands_cut (hmax : ∀ t ∈ ts, t = false) :
    frameWidth rule ((h ++ bytes ++ c :: payload).map some) = raise .unexpectedEndOfFrame := by
  have hstop : h.length + bytes.length < ((h ++ bytes ++ c :: payload).map some).length := by simp
  obtain ⟨fuel, hwidth⟩ := frameWidth_maximal hh.cmdStart_append (hc.replays h _) hmax hstop.le
  exact hwidth.trans (widthLoop_error hstop (execAt_cut h bytes hlit hcut) _ _)

end Cut

end Streams

/-- Settles O11: the assembled bytes are whole commands, whatever their terminator bits. -/
theorem fullDecodeOfACommandList : Obligations.FullDecodeOfACommandList := by
  intro rule h bytes lines hruns hbytes
  obtain ⟨ts, hc⟩ := commands_of_assemble hruns hbytes
  exact ⟨fun hh => decompress_commands hh hc, fun c px hlit hcut hh => decompress_commands_cut hlit hcut hh hc⟩

theorem isTerminator_of_isMaximal {l : AsmLine} (h : l.isMaximal = true) : l.isTerminator = false := by
  cases l with
  | litMax bytes => rfl
  | trnMax => rfl
  | _ => cases h

/-- Settles O12: the lines are single commands, all but the last maximal. -/
theorem widthOfACommandList : Obligations.WidthOfACommandList := by
  intro rule h bytes tail runs hmax
  have hbits : ∀ t ∈ runs.map AsmLine.isTerminator, t = false := by
    rw [List.forall_mem_map]
    exact fun l hl => isTerminator_of_isMaximal (hmax l hl)
  have hruns (hbytes : assemble runs = some bytes) :
      Commands bytes (runs.map AsmLine.isTerminator) (runs.flatMap AsmLine.pixels) :=
    commands_of_assemble_single (fun l hl => .inl (hmax l hl)) hbytes
  refine ⟨fun l hl hbytes hh => ?_, fun hbytes hh => frameWidth_commands_unterminated hh (hruns hbytes) hbits,
    fun c px hlit hcut hbytes hh => frameWidth_commands_cut hlit hcut hh (hruns hbytes) hbits⟩
  have hlines : ∀ l' ∈ runs ++ [l], l'.isMaximal = true ∨ l'.isTerminator = true :=
    List.forall_mem_append.2 ⟨fun l' hl' => .inl (hmax l' hl'), List.forall_mem_singleton.2 (.inr hl)⟩
  have hc := commands_of_assemble_single hlines hbytes
  rw [List.map_append, List.map_singleton, hl] at hc
  exact frameWidth_commands_row hh hc hbits

/-! ### One command inside a replay (41_decoder.md R183 to R188) -/

theorem commandStep_ok {run : Window → Nat → Except Stop CmdResult} {s : State} {r : Replay} {c : CmdResult}
    (hr : s.replay = some r) (h : run s.window r.pc = .ok c) :
    commandStep run s = .next { s with replay := some (r.advance c) } := by
  simp only [commandStep, hr, h]

theorem commandStep_raise {run : Window → Nat → Except Stop CmdResult} {s : State} {r : Replay} {e : Err}
    (hr : s.replay = some r) (h : run s.window r.pc = raise e) :
    commandStep run s = .next (errorEntry r.task.op e s) := by
  simp only [commandStep, hr, h, raise]

/-- Specified bytes at `a` and above are a slice. -/
theorem readSlice_of_getElem? {F : Window} {a : Nat} {bs : List Byte} (hlen : a + bs.length ≤ F.length)
    (h : ∀ k b, bs[k]? = some b → F[a + k]? = some (some b)) : readSlice F a (a + bs.length) = .ok bs := by
  have hslice : (F.take (a + bs.length)).drop a = bs.map some := by
    refine List.ext_getElem (by simp; omega) fun k hk hk' => ?_
    rw [List.length_map] at hk'
    have hget := h k bs[k] (List.getElem?_eq_getElem hk')
    rw [List.getElem_drop, List.getElem_take, List.getElem_map]
    exact (List.getElem?_eq_some_iff.1 hget).2
  rw [readSlice, hslice, specified_map_some]

/-- Settles O7: the three instructions are literal runs; a run advances the replay or raises in its operation. -/
theorem literalRunInAReplay : Obligations.LiteralRunInAReplay := by
  intro i n hi s r hr
  have hexec : exec i s = commandStep (litRun n) s := by
    obtain ⟨rfl, -⟩ | ⟨rfl, rfl⟩ | ⟨rfl, rfl⟩ := hi <;> rfl
  rw [hexec]
  refine ⟨fun hcut => ?_, fun px hlen hin hpx => ?_⟩
  · rw [commandStep_raise hr (litRun_short hcut)]
    cases r.task <;> rfl
  · subst hlen
    rw [commandStep_ok hr (litRun_whole hin (readSlice_of_getElem? hin hpx))]
    obtain ⟨task, pc, acc, ended, out⟩ := r
    cases task <;> rfl

/-- Settles O8: both instructions are transparency runs, which never raise. -/
theorem transparencyRunInAReplay : Obligations.TransparencyRunInAReplay := by
  intro i n hi s r hr
  have hexec : exec i s = commandStep (trnRun n) s := by
    obtain ⟨rfl, -⟩ | ⟨rfl, rfl⟩ := hi <;> rfl
  rw [hexec, commandStep_ok hr rfl]
  obtain ⟨task, pc, acc, ended, out⟩ := r
  cases task <;> rfl

/-- Settles O48: a byte at `pc` shows that the replay is not over. -/
theorem stepRunsTheCommandAtPc : Obligations.StepRunsTheCommandAtPc := by
  intro s r c hr hended hc
  have hover := Operations.over_eq_false hended (List.getElem?_eq_some_iff.1 hc).1
  simp only [step, hr, replayStep, hover, Bool.false_eq_true, if_false, readByte_ok.2 hc]

/-! ### The errors of the decoder's functions (41_decoder.md R190, R191) -/

/-- A sequence that raises has raised at its first part or at its second. -/
theorem bind_eq_raise {α β : Type} {x : Except Stop α} {f : α → Except Stop β} {e : Err}
    (h : x >>= f = .error (.raise e)) : x = .error (.raise e) ∨ ∃ a, x = .ok a ∧ f a = .error (.raise e) := by
  cases x with
  | ok a => exact .inr ⟨a, rfl, h⟩
  | error e' => exact .inl (congrArg Except.error (Except.error.inj h))

theorem ok_bind {α β : Type} (a : α) (f : α → Except Stop β) : (Except.ok a >>= f) = f a := rfl

theorem readByte_not_raise {F : Window} {k : Nat} {e : Err} : readByte F k ≠ .error (.raise e) := by
  unfold readByte
  split <;> simp [stopFault]

theorem specified_not_raise {F : Window} {e : Err} : specified F ≠ .error (.raise e) := by
  induction F with
  | nil => simp [specified]
  | cons b F ih =>
    cases b with
    | none => simp [specified, stopFault]
    | some b =>
      rw [specified]
      cases hF : specified F with
      | ok bs => simp [Except.map]
      | error e' => simpa [Except.map, hF] using ih

/-- The one error of a command is a payload cut short. -/
theorem execAt_raise {F : Window} {pc : Nat} {e : Err} (h : execAt F pc = .error (.raise e)) :
    e = .unexpectedEndOfFrame := by
  obtain hb | ⟨c, -, h⟩ := bind_eq_raise h
  · exact absurd hb readByte_not_raise
  · split at h
    · cases h
    · split at h
      · cases h
        rfl
      · obtain hpx | ⟨px, -, h⟩ := bind_eq_raise h
        · exact absurd hpx specified_not_raise
        · cases h

theorem cmdStart_raise {rule : HdrRule} {F : Window} {e : Err} (h : cmdStart rule F = .error (.raise e)) :
    e = .unexpectedEndOfFrame := by
  obtain hb | ⟨hd, -, h⟩ := bind_eq_raise h
  · exact absurd hb hdrPresent_not_raise
  · split at h
    · split at h
      · cases h
        rfl
      · cases h
    · cases h

theorem widthLoop_raise {F : Window} {fuel pc acc : Nat} {e : Err}
    (h : widthLoop F fuel pc acc = .error (.raise e)) : e = .unexpectedEndOfFrame := by
  induction fuel generalizing pc acc with
  | zero =>
    cases h
    rfl
  | succ fuel ih =>
    unfold widthLoop at h
    split at h
    · cases h
      rfl
    · obtain hcmd | ⟨c, -, h⟩ := bind_eq_raise h
      · exact execAt_raise hcmd
      · split at h
        · cases h
        · exact ih h

theorem decodeLoop_raise {F : Window} {fuel pc : Nat} {out : List Byte} {e : Err}
    (h : decodeLoop F fuel pc out = .error (.raise e)) : e = .unexpectedEndOfFrame := by
  induction fuel generalizing pc out with
  | zero => cases h
  | succ fuel ih =>
    unfold decodeLoop at h
    split at h
    · cases h
    · obtain hcmd | ⟨c, -, h⟩ := bind_eq_raise h
      · exact execAt_raise hcmd
      · exact ih h

/-- Width inference raises no other error than UnexpectedEndOfFrame. -/
theorem frameWidth_raise {rule : HdrRule} {F : Window} {e : Err} (h : frameWidth rule F = .error (.raise e)) :
    e = .unexpectedEndOfFrame := by
  obtain hs | ⟨pc, -, h⟩ := bind_eq_raise h
  · exact cmdStart_raise hs
  · exact widthLoop_raise h

/-- Full decode raises no other error than UnexpectedEndOfFrame. -/
theorem decompress_raise {rule : HdrRule} {F : Window} {e : Err} (h : decompress rule F = .error (.raise e)) :
    e = .unexpectedEndOfFrame := by
  obtain hs | ⟨pc, -, h⟩ := bind_eq_raise h
  · exact cmdStart_raise hs
  · exact decodeLoop_raise h

/-! ### The decoder's operations (41_decoder.md R192 to R195) -/

theorem decoderOp_of_exceeds {i : Instr} {s : State} {k : State → Window → Except Stop State}
    (h : s.cfg.maxIbuf < s.inBase.toNat + s.inLen.toNat) :
    decoderOp i s k = .next (errorEntry i .illegalRequest s) :=
  if_neg fun hw => Nat.not_le.2 h (of_decide_eq_true hw)

/-- `s` with STATUS.HDR written. -/
def withHdr (s : State) (h : Bool) : State := { s with hdr := h }

/-- Behind the window check an operation writes STATUS.HDR and runs its own pseudocode. -/
theorem decoderOp_of_fits {i : Instr} {s : State} {k : State → Window → Except Stop State} {h : Bool}
    (hw : s.inBase.toNat + s.inLen.toNat ≤ s.cfg.maxIbuf) (hh : hdrPresent s.cfg.hdrRule s.window = .ok h) :
    decoderOp i s k = conclude i (withHdr s h) (k (withHdr s h) s.window) := by
  have hok : s.windowOk = true := decide_eq_true hw
  rw [decoderOp, if_pos hok, hh]
  rfl

theorem storeWidth_over {s : State} {w : Nat} (h : u32Max < w) : storeWidth s w = raise .capacityExceeded := if_pos h

/-- Settles O14: the width, its capacity check, or the one error of width inference. -/
theorem frameWidthOperation : Obligations.FrameWidthOperation := by
  refine ⟨by decide, fun s => ⟨fun hout => ?_, fun h hw hh => ?_⟩⟩
  · rw [exec, execFrameWidth, decoderOp_of_exceeds hout, errorEntry_frameWidth]
  have hexec : exec .frameWidth s = conclude .frameWidth (withHdr s h)
      (frameWidth s.cfg.hdrRule s.window >>= storeWidth (withHdr s h)) := by
    rw [exec, execFrameWidth, decoderOp_of_fits hw hh]
    rfl
  refine ⟨fun w hwidth hfits => ?_, fun w hwidth hover => ?_, fun e herr => ?_⟩
  · rw [hexec, hwidth, ok_bind, storeWidth_fits hfits]
    rfl
  · rw [hexec, hwidth, ok_bind, storeWidth_over hover]
    rfl
  · obtain rfl := frameWidth_raise herr
    exact ⟨rfl, by rw [hexec, herr]; rfl⟩

/-- Settles O15: the pixels, their capacity check, or the one error of full decode. -/
theorem decompressOperation : Obligations.DecompressOperation := by
  refine ⟨by decide, fun s => ⟨fun hout => ?_, fun h hw hh => ?_⟩⟩
  · rw [exec, execDecompress, decoderOp_of_exceeds hout, errorEntry_decompress]
  have hexec : exec .decompress s = conclude .decompress (withHdr s h)
      (decompress s.cfg.hdrRule s.window >>= storeOutput (withHdr s h)) := by
    rw [exec, execDecompress, decoderOp_of_fits hw hh]
    rfl
  refine ⟨fun p hp hfits => ?_, fun p hp hover => ?_, fun e herr => ?_⟩
  · rw [hexec, hp, ok_bind, storeOutput_fits (s := withHdr s h) hfits]
    rfl
  · rw [hexec, hp, ok_bind, storeOutput_over (s := withHdr s h) hover]
    rfl
  · obtain rfl := decompress_raise herr
    exact ⟨rfl, by rw [hexec, herr]; rfl⟩

theorem dimsCheck_mismatch {w : Nat} {p : List Byte} (h : w = 0 ∨ p.length % w ≠ 0) :
    dimsCheck w p = raise .dimensionMismatch := if_pos (by simpa using h)

theorem dimsCheck_divides {w : Nat} {p : List Byte} (hw : 0 < w) (h : p.length % w = 0) :
    dimsCheck w p = .ok (w, p.length / w, p) := if_neg (by simpa [h] using hw.ne')

/-- Settles O16: both replays in order, then the division check, then the store with its capacity check. -/
theorem frameDimsOperation : Obligations.FrameDimsOperation := by
  refine ⟨by decide, fun s => ⟨fun hout => ?_, fun h hw hh => ?_⟩⟩
  · rw [exec, execFrameDims, decoderOp_of_exceeds hout, errorEntry_frameDims]
  have hexec : exec .frameDims s = conclude .frameDims (withHdr s h)
      (frameDims s.cfg.hdrRule s.window >>= storeDims (withHdr s h)) := by
    rw [exec, execFrameDims, decoderOp_of_fits hw hh]
    rfl
  have hdims {w p} (hwidth : frameWidth s.cfg.hdrRule s.window = .ok w)
      (hp : decompress s.cfg.hdrRule s.window = .ok p) : frameDims s.cfg.hdrRule s.window = dimsCheck w p := by
    rw [frameDims, hwidth, ok_bind, hp, ok_bind]
  refine ⟨fun w p q hwidth hp hpos hq hfits => ?_, fun w p hwidth hp hbad => ?_,
    fun w p hwidth hp hpos hdiv hover => ?_, fun herr => ?_⟩
  · have hdiv : p.length % w = 0 := by rw [hq, Nat.mul_mod_right]
    have hheight : p.length / w = q := by rw [hq, Nat.mul_div_cancel_left q hpos]
    rw [hexec, hdims hwidth hp, dimsCheck_divides hpos hdiv, hheight, ok_bind, storeDims,
      storeOutput_fits (s := withHdr s h) hfits]
    rfl
  · rw [hexec, hdims hwidth hp, dimsCheck_mismatch hbad]
    rfl
  · rw [hexec, hdims hwidth hp, dimsCheck_divides hpos hdiv, ok_bind, storeDims,
      storeOutput_over (s := withHdr s h) hover]
    rfl
  · obtain hnone | ⟨⟨w, hwidth⟩, hnone⟩ := herr
    · rw [hexec, frameDims, hnone]
      rfl
    · rw [hexec, frameDims, hwidth, ok_bind, hnone]
      rfl

end Sys2Proof.Proofs.Decoder
end

section
/-! SUPPORT. Proofs for 42_encoder.md: the blocks of a row (R230), the commands of a block (R232 to R235), a row and a
frame (R236 to R238), what the encoder's output gives the decoder (R245 to R247), its sizes (R243) and the encoder's
operations (R239 to R241). -/

namespace Sys2Proof.Proofs.Encoder

open Sys2Proof Sys2Proof.Machine Sys2Proof.Proofs.Scope Sys2Proof.Proofs.Block Sys2Proof.Proofs.Encoding
  Sys2Proof.Proofs.Indexer Sys2Proof.Proofs.Decoder

/-! ### The blocks of a row (42_encoder.md R230) -/

theorem isSent_iff (p : Byte) : isSent p = true ↔ p = 0xFF#8 := beq_iff_eq

theorem isSent_eq_false_iff (p : Byte) : isSent p = false ↔ p ≠ 0xFF#8 := beq_eq_false_iff_ne

/-- A non-empty block of one kind: all sentinel pixels (`v = true`), or none. -/
def OfKind (v : Bool) (b : List Byte) : Prop := b ≠ [] ∧ ∀ p ∈ b, isSent p = v

section Kinds

variable {v : Bool} {b : List Byte}

theorem ofKind_singleton (p : Byte) : OfKind (isSent p) [p] :=
  ⟨List.cons_ne_nil _ _, List.forall_mem_singleton.2 rfl⟩

theorem OfKind.cons {p : Byte} (h : OfKind v b) (hp : isSent p = v) : OfKind v (p :: b) :=
  ⟨List.cons_ne_nil _ _, List.forall_mem_cons.2 ⟨hp, h.2⟩⟩

theorem OfKind.head {p : Byte} (h : OfKind v (p :: b)) : isSent p = v := (List.forall_mem_cons.1 h.2).1

theorem OfKind.length_pos (h : OfKind v b) : 0 < b.length := List.length_pos_of_ne_nil h.1

theorem OfKind.all_isSent (h : OfKind v b) : b.all isSent = v := by
  obtain ⟨p, b, rfl⟩ := List.exists_cons_of_ne_nil h.1
  cases v with
  | true => exact List.all_eq_true.2 h.2
  | false => exact List.all_eq_false.2 ⟨p, List.mem_cons_self, by simp [h.head]⟩

theorem OfKind.all_not_isSent (h : OfKind false b) : b.all (fun p => !isSent p) = true :=
  List.all_eq_true.2 fun p hp => by rw [h.2 p hp]; rfl

theorem OfKind.maximalRun_eq (h : OfKind v b) : maximalRun b = if v then 128 else 127 := by
  obtain ⟨p, b, rfl⟩ := List.exists_cons_of_ne_nil h.1
  rw [← h.head]
  rfl

theorem OfKind.eq_replicate (h : OfKind true b) : b = List.replicate b.length sentinel :=
  List.eq_replicate_of_mem fun p hp => (isSent_iff p).1 (h.2 p hp)

end Kinds

/-- Blocks whose kinds alternate, the first one of kind `v`. -/
inductive Alternate : Bool → List (List Byte) → Prop
  | nil (v : Bool) : Alternate v []
  | cons {v : Bool} {b : List Byte} {bs : List (List Byte)} (block : OfKind v b) (rest : Alternate (!v) bs) :
    Alternate v (b :: bs)

/-- A pixel joins the first block of its own kind and is a block of its own in front of one of the other kind. -/
theorem alternate_consBlock {v : Bool} {bs : List (List Byte)} (p : Byte) (h : Alternate v bs) :
    Alternate (isSent p) (consBlock p bs) := by
  cases h with
  | nil => exact .cons (ofKind_singleton p) (.nil _)
  | @cons _ b bs block rest =>
    obtain ⟨q, b, rfl⟩ := List.exists_cons_of_ne_nil block.1
    obtain rfl := block.head
    rw [consBlock]
    split
    · rename_i hsame
      rw [hsame]
      exact .cons (block.cons hsame) rest
    · rename_i hother
      have hv : isSent q = !isSent p := Bool.eq_not.2 (Ne.symm hother)
      exact .cons (ofKind_singleton p) (hv ▸ .cons block rest)

theorem flatten_consBlock (p : Byte) (bs : List (List Byte)) : (consBlock p bs).flatten = p :: bs.flatten := by
  unfold consBlock
  split
  · split <;> rfl
  · rfl

theorem alternate_partition (R : List Byte) : ∃ v, Alternate v (partition R) := by
  induction R with
  | nil => exact ⟨true, .nil true⟩
  | cons p R ih =>
    obtain ⟨v, hv⟩ := ih
    exact ⟨isSent p, alternate_consBlock p hv⟩

theorem flatten_partition (R : List Byte) : (partition R).flatten = R := by
  induction R with
  | nil => rfl
  | cons p R ih => rw [partition, flatten_consBlock, ih]

theorem Alternate.ofKind {v : Bool} {bs : List (List Byte)} (h : Alternate v bs) : ∀ b ∈ bs, ∃ u, OfKind u b := by
  induction h with
  | nil => exact fun _ hb => (List.not_mem_nil hb).elim
  | cons block _ ih => exact List.forall_mem_cons.2 ⟨⟨_, block⟩, ih⟩

theorem Alternate.adjacent {v : Bool} {bs : List (List Byte)} (h : Alternate v bs) {k : Nat} {b c : List Byte}
    (hb : bs[k]? = some b) (hc : bs[k + 1]? = some c) : b.all isSent ≠ c.all isSent := by
  induction h generalizing k with
  | nil => cases hb
  | cons block rest ih =>
    cases k with
    | succ k => exact ih hb hc
    | zero =>
      cases hb
      cases rest with
      | nil => cases hc
      | cons block' =>
        cases hc
        rw [block.all_isSent, block'.all_isSent]
        exact Bool.not_ne_self _ |>.symm

theorem partition_ofKind (R : List Byte) : ∀ b ∈ partition R, ∃ v, OfKind v b :=
  let ⟨_, h⟩ := alternate_partition R
  h.ofKind

/-- Settles O24: the blocks alternate in kind and their concatenation is the row. -/
theorem partitionIsTheMaximalRuns : Obligations.PartitionIsTheMaximalRuns := by
  refine ⟨isSent_iff, rfl, fun R => ⟨flatten_partition R, fun b hb => ?_, fun k b c hb hc => ?_⟩⟩
  · obtain ⟨v, hv⟩ := partition_ofKind R b hb
    cases v with
    | true => exact ⟨hv.1, .inl hv.all_isSent⟩
    | false => exact ⟨hv.1, .inr hv.all_not_isSent⟩
  · obtain ⟨v, hv⟩ := alternate_partition R
    exact hv.adjacent hb hc

/-! ### The code of a block (42_encoder.md R232 to R235) -/

theorem sentLoop_eq {fuel m : Nat} (h : m < fuel) : sentLoop fuel m =
    List.replicate (m / 128) 0x80#8 ++ (if m % 128 = 0 then [] else [BitVec.ofNat 8 (0x100 - m % 128)]) := by
  induction fuel generalizing m with
  | zero => omega
  | succ fuel ih =>
    rw [sentLoop, trnMaxRun]
    split
    · rename_i hmax
      rw [ih (by omega), Nat.div_eq_sub_div (by decide) hmax, List.replicate_succ, ← Nat.mod_eq_sub_mod hmax]
      rfl
    · rename_i hmax
      rw [Nat.div_eq_of_lt (by omega), Nat.mod_eq_of_lt (by omega)]
      split
      · rename_i hpos
        rw [if_neg hpos.ne']
        rfl
      · rename_i hpos
        rw [if_pos (by omega)]
        rfl

/-- Settles O25: each round of the loop takes 128 pixels, and the last one the remainder. -/
theorem sentinelBlockCommands : Obligations.SentinelBlockCommands := fun m => sentLoop_eq (Nat.lt_succ_self m)

/-- More rounds of fuel than pixels change nothing. -/
theorem litLoop_fuel {fuel fuel' : Nat} {B : List Byte} (h : B.length < fuel) (h' : B.length < fuel') :
    litLoop fuel B = litLoop fuel' B := by
  induction fuel generalizing fuel' B with
  | zero => omega
  | succ fuel ih =>
    obtain ⟨fuel', rfl⟩ := Nat.exists_eq_add_one.2 (Nat.zero_lt_of_lt h')
    have hrest (hmax : litMaxRun ≤ B.length) :
        litLoop fuel (B.drop litMaxRun) = litLoop fuel' (B.drop litMaxRun) := by
      rw [litMaxRun] at hmax
      exact ih (by rw [List.length_drop, litMaxRun]; omega) (by rw [List.length_drop, litMaxRun]; omega)
    rw [litLoop, litLoop]
    split
    · rename_i hmax
      rw [hrest hmax]
    · rfl

theorem litBlock_append {C : List Byte} (hC : C.length = 127) (B : List Byte) :
    litBlock (C ++ B) = 0x7F#8 :: (C ++ litBlock B) := by
  have hmax : 127 ≤ (C ++ B).length := by rw [List.length_append]; omega
  have hrest : litLoop (C ++ B).length B = litBlock B :=
    litLoop_fuel (by rw [List.length_append]; omega) (Nat.lt_succ_self _)
  rw [litBlock, litLoop, litMaxRun, if_pos hmax, List.take_left' hC, List.drop_left' hC, hrest]

theorem litBlock_short {B : List Byte} (hpos : 0 < B.length) (h : B.length < 127) :
    litBlock B = BitVec.ofNat 8 B.length :: B := by
  rw [litBlock, litLoop, litMaxRun, if_neg (Nat.not_le.2 h), if_pos hpos]

/-- Settles O26: the recursion of the loop on the pixels still to encode, and its base cases. -/
theorem literalBlockCommands : Obligations.LiteralBlockCommands :=
  ⟨fun _ B hC => litBlock_append hC B, fun _ => litBlock_short, rfl⟩

/-- The recursion of `litBlock` as an induction: 127 pixels more in front, down to fewer than 127. -/
theorem litBlock_induction {P : List Byte → Prop} (short : ∀ B, B.length < 127 → P B)
    (more : ∀ C B, C.length = 127 → P B → P (C ++ B)) (B : List Byte) : P B :=
  if h : B.length < 127 then short B h
  else
    have hrest := litBlock_induction short more (B.drop 127)
    B.take_append_drop 127 ▸ more _ _ (List.length_take_of_le (Nat.not_lt.1 h)) hrest
termination_by B.length
decreasing_by rw [List.length_drop]; omega

/-- The code of a block of one kind. -/
def blockCode (b : List Byte) : List Byte := if b.all isSent then sentBlock b.length else litBlock b

theorem OfKind.blockCode_sent {b : List Byte} (h : OfKind true b) : blockCode b = sentBlock b.length :=
  if_pos h.all_isSent

theorem OfKind.blockCode_lit {b : List Byte} (h : OfKind false b) : blockCode b = litBlock b :=
  if_neg (by rw [h.all_isSent]; decide)

theorem OfKind.compressBlock_eq {v : Bool} {b : List Byte} (h : OfKind v b) : compressBlock b = .ok (blockCode b) := by
  rw [compressBlock, if_neg h.length_pos.ne', h.all_isSent]
  cases v with
  | true => rw [if_pos rfl, h.blockCode_sent]
  | false => rw [if_neg Bool.false_ne_true, if_pos h.all_not_isSent, h.blockCode_lit]

/-- A block that holds both kinds of pixels is not compressed. -/
theorem compressBlock_mixed {B : List Byte} (hsent : ∃ p ∈ B, p = 0xFF#8) (hlit : ∃ p ∈ B, p ≠ 0xFF#8) :
    compressBlock B = raise .illegalRequest := by
  obtain ⟨p, hp, hps⟩ := hsent
  obtain ⟨q, hq, hql⟩ := hlit
  have hs : ¬ B.all isSent = true := fun h => hql ((isSent_iff q).1 (List.all_eq_true.1 h q hq))
  have hl : ¬ B.all (fun p => !isSent p) = true := fun h => by
    have := List.all_eq_true.1 h p hp
    rw [(isSent_iff p).2 hps] at this
    exact Bool.false_ne_true this
  rw [compressBlock, if_neg (List.length_pos_of_mem hp).ne', if_neg hs, if_neg hl]

/-! ### The code of a row (42_encoder.md R236, R237) -/

theorem compressBlocks_eq {bs : List (List Byte)} (h : ∀ b ∈ bs, ∃ v, OfKind v b) :
    compressBlocks bs = .ok (bs.flatMap blockCode) := by
  induction bs with
  | nil => rfl
  | cons b bs ih =>
    obtain ⟨⟨v, hb⟩, hbs⟩ := List.forall_mem_cons.1 h
    rw [compressBlocks, hb.compressBlock_eq, ih hbs]
    rfl

/-- The code of a row: its blocks' codes in order, then the row-end terminator where it is due. -/
def rowCode (R : List Byte) : List Byte := (partition R).flatMap blockCode ++ rowEnd (partition R)

theorem compressRow_eq (R : List Byte) : compressRow R = .ok (rowCode R) := by
  rw [compressRow, compressBlocks_eq (partition_ofKind R)]
  rfl

/-- Settles O27: the blocks of one kind and the mixed ones; `partition` gives none of the latter. -/
theorem blockCompressionCases : Obligations.BlockCompressionCases := by
  refine ⟨rfl, fun B hne hsent => ?_, fun B hne hlit => ?_, fun B => compressBlock_mixed,
    fun R => ⟨_, compressRow_eq R⟩⟩
  · have hB : OfKind true B := ⟨hne, fun p hp => (isSent_iff p).2 (hsent p hp)⟩
    rw [hB.compressBlock_eq, hB.blockCode_sent]
  · have hB : OfKind false B := ⟨hne, fun p hp => (isSent_eq_false_iff p).2 (hlit p hp)⟩
    rw [hB.compressBlock_eq, hB.blockCode_lit]

/-! ### Streams of single commands (30_encoding.md R119, R103) -/

/-- A line of one command. -/
def IsSingle (l : AsmLine) : Prop := l.isMaximal = true ∨ l.isTerminator = true

/-- `bytes` are the commands of lines of one command each, with the terminator bits `ts` and the pixels `px`. -/
def Writes (bytes : List Byte) (ts : List Bool) (px : List Byte) : Prop :=
  ∃ lines : List AsmLine, (∀ l ∈ lines, IsSingle l) ∧ assemble lines = some bytes ∧
    lines.map AsmLine.isTerminator = ts ∧ lines.flatMap AsmLine.pixels = px

/-- Behind a first line there may stand any single command, for none is a header. -/
theorem assembleRest_eq {lines : List AsmLine} (h : ∀ l ∈ lines, IsSingle l) :
    assemble.assembleRest lines = assemble lines := by
  cases lines with
  | nil => rfl
  | cons l lines =>
    cases l with
    | hdr bytes => exact absurd (h _ List.mem_cons_self) (by simp [IsSingle, AsmLine.isMaximal, AsmLine.isTerminator])
    | _ => rfl

theorem assemble_append {ls ms : List AsmLine} {x y : List Byte} (hms : ∀ l ∈ ms, IsSingle l)
    (hls : ∀ l ∈ ls, IsSingle l) (hx : assemble ls = some x) (hy : assemble ms = some y) :
    assemble (ls ++ ms) = some (x ++ y) := by
  induction ls generalizing x with
  | nil =>
    cases hx
    exact hy
  | cons l ls ih =>
    obtain ⟨-, hls⟩ := List.forall_mem_cons.1 hls
    obtain ⟨a, b, ha, hb, rfl⟩ := assemble_cons hx
    have hrest := (assembleRest_eq (List.forall_mem_append.2 ⟨hls, hms⟩)).trans (ih hls hb)
    rw [List.cons_append, assemble, ha, hrest, List.append_assoc]

theorem writes_nil : Writes [] [] [] := ⟨[], fun _ h => (List.not_mem_nil h).elim, rfl, rfl, rfl⟩

section Writes

variable {x y : List Byte} {ts us : List Bool} {px py : List Byte}

theorem Writes.append (hx : Writes x ts px) (hy : Writes y us py) : Writes (x ++ y) (ts ++ us) (px ++ py) := by
  obtain ⟨ls, hls, hx, rfl, rfl⟩ := hx
  obtain ⟨ms, hms, hy, rfl, rfl⟩ := hy
  exact ⟨ls ++ ms, List.forall_mem_append.2 ⟨hls, hms⟩, assemble_append hms hls hx hy, List.map_append,
    List.flatMap_append⟩

theorem Writes.commands (h : Writes x ts px) : Commands x ts px := by
  obtain ⟨lines, hlines, hx, rfl, rfl⟩ := h
  exact commands_of_assemble_single hlines hx

/-- A stream that ends in a terminator has a line of its own for it. -/
theorem Writes.exists_last (h : Writes x (ts ++ [true]) px) :
    ∃ (lines : List AsmLine) (l : AsmLine), (∀ k ∈ lines, IsSingle k) ∧ l.isTerminator = true ∧
      assemble (lines ++ [l]) = some x ∧ (lines ++ [l]).flatMap AsmLine.pixels = px := by
  obtain ⟨all, hall, hx, hbits, hpx⟩ := h
  obtain ⟨lines, last, rfl, -, hlast⟩ := List.map_eq_append_iff.1 hbits
  obtain ⟨l, rfl, hl⟩ := List.map_eq_singleton_iff.1 hlast
  exact ⟨lines, l, (List.forall_mem_append.1 hall).1, hl, hx, hpx⟩

end Writes

theorem writes_line {l : AsmLine} {x : List Byte} (hl : IsSingle l) (h : l.assemble = some x) :
    Writes x [l.isTerminator] l.pixels := by
  refine ⟨[l], List.forall_mem_singleton.2 hl, ?_, rfl, List.flatMap_singleton ..⟩
  simp [assemble, assemble.assembleRest, h]

theorem writes_lit {B : List Byte} (h : B.length < 127) : Writes (BitVec.ofNat 8 B.length :: B) [true] B :=
  writes_line (l := .lit B) (.inr rfl) (if_pos (Nat.le_of_lt_succ h))

theorem writes_litMax {B : List Byte} (h : B.length = 127) : Writes (0x7F#8 :: B) [false] B :=
  writes_line (l := .litMax B) (.inl rfl) (if_pos h)

theorem writes_trn {n : Nat} (h1 : 1 ≤ n) (h2 : n ≤ 127) :
    Writes [BitVec.ofNat 8 (0x100 - n)] [true] (List.replicate n sentinel) :=
  writes_line (l := .trn n) (.inr rfl) (if_pos ⟨h1, h2⟩)

theorem writes_trnMax : Writes [0x80#8] [false] (List.replicate 128 sentinel) :=
  writes_line (l := .trnMax) (.inl rfl) rfl

theorem writes_endRun : Writes [0x00#8] [true] [] := writes_line (l := .endRun) (.inr rfl) rfl

/-! ### The commands of a block (42_encoder.md R233 to R235) -/

/-- The terminator bit of the command for a block's remainder `r`, if there is one (42_encoder.md R235). -/
def remainderBit (r : Nat) : List Bool := if r = 0 then [] else [true]

theorem writes_trnMax_replicate (k : Nat) :
    Writes (List.replicate k 0x80#8) (List.replicate k false) (List.replicate (128 * k) sentinel) := by
  induction k with
  | zero => exact writes_nil
  | succ k ih =>
    rw [Nat.mul_succ, Nat.add_comm (128 * k), List.replicate_add 128]
    exact writes_trnMax.append ih

theorem writes_sentBlock (m : Nat) :
    Writes (sentBlock m) (List.replicate (m / 128) false ++ remainderBit (m % 128)) (List.replicate m sentinel) := by
  have hrest : Writes (if m % 128 = 0 then [] else [BitVec.ofNat 8 (0x100 - m % 128)]) (remainderBit (m % 128))
      (List.replicate (m % 128) sentinel) := by
    unfold remainderBit
    split
    · rename_i hzero
      rw [hzero]
      exact writes_nil
    · exact writes_trn (by omega) (by omega)
  have hall := (writes_trnMax_replicate (m / 128)).append hrest
  rwa [← sentinelBlockCommands, List.replicate_append_replicate, Nat.div_add_mod] at hall

theorem writes_litBlock (B : List Byte) :
    Writes (litBlock B) (List.replicate (B.length / 127) false ++ remainderBit (B.length % 127)) B := by
  induction B using litBlock_induction with
  | short B h =>
    rw [Nat.div_eq_of_lt h, Nat.mod_eq_of_lt h, List.replicate_zero, List.nil_append, remainderBit]
    split
    · rename_i hzero
      obtain rfl := List.eq_nil_of_length_eq_zero hzero
      exact writes_nil
    · rename_i hpos
      rw [litBlock_short (Nat.pos_of_ne_zero hpos) h]
      exact writes_lit h
  | more C B hC ih =>
    rw [litBlock_append hC, List.length_append, hC, Nat.add_mod_left, Nat.add_div_left _ (by decide),
      List.replicate_succ]
    exact (writes_litMax hC).append ih

/-- A block's code is its maximal runs and a terminator for the remainder, if there is one. -/
theorem writes_blockCode {v : Bool} {b : List Byte} (h : OfKind v b) :
    Writes (blockCode b)
      (List.replicate (b.length / maximalRun b) false ++ remainderBit (b.length % maximalRun b)) b := by
  rw [h.maximalRun_eq]
  cases v with
  | true =>
    have hsent := writes_sentBlock b.length
    rw [← h.eq_replicate] at hsent
    rw [h.blockCode_sent]
    exact hsent
  | false =>
    rw [h.blockCode_lit]
    exact writes_litBlock b

/-! ### The commands of a row (42_encoder.md R236, R237) -/

/-- A block that is a multiple of its maximal run has no remainder, so no terminator (42_encoder.md R235). -/
def IsWhole (b : List Byte) : Prop := b.length % maximalRun b = 0

/-- The blocks' commands; they are all maximal where the blocks are all whole. -/
theorem writes_blocks {bs : List (List Byte)} (h : ∀ b ∈ bs, ∃ v, OfKind v b) :
    ∃ ts, Writes (bs.flatMap blockCode) ts bs.flatten ∧ ((∀ b ∈ bs, IsWhole b) → ∀ t ∈ ts, t = false) := by
  induction bs with
  | nil => exact ⟨[], writes_nil, fun _ _ ht => (List.not_mem_nil ht).elim⟩
  | cons b bs ih =>
    obtain ⟨⟨v, hb⟩, hbs⟩ := List.forall_mem_cons.1 h
    obtain ⟨ts, hts, hmax⟩ := ih hbs
    refine ⟨_, (writes_blockCode hb).append hts, fun hwhole => ?_⟩
    obtain ⟨hb0, hbs0⟩ := List.forall_mem_cons.1 hwhole
    rw [IsWhole] at hb0
    rw [hb0, remainderBit, if_pos rfl, List.append_nil]
    exact List.forall_mem_append.2 ⟨fun t => List.eq_of_mem_replicate, hmax hbs0⟩

theorem rowEnd_append_singleton (bs : List (List Byte)) (b : List Byte) :
    rowEnd (bs ++ [b]) = if b.length % maximalRun b = 0 then [0x00#8] else [] := by
  rw [rowEnd, List.getLast?_concat]

/-- A block with a remainder ends in a terminator (42_encoder.md R235). -/
theorem writes_blockCode_terminated {v : Bool} {b : List Byte} (h : OfKind v b) (hrest : ¬ IsWhole b) :
    Writes (blockCode b) (List.replicate (b.length / maximalRun b) false ++ [true]) b := by
  have hb := writes_blockCode h
  rw [IsWhole] at hrest
  rwa [remainderBit, if_neg hrest] at hb

/-- END after a whole last block makes up for the terminator it lacks (42_encoder.md R236). -/
theorem writes_lastBlock {v : Bool} {b : List Byte} (h : OfKind v b) (bs : List (List Byte)) :
    Writes (blockCode b ++ rowEnd (bs ++ [b])) (List.replicate (b.length / maximalRun b) false ++ [true]) b := by
  rw [rowEnd_append_singleton]
  split
  · rename_i hwhole
    have hend := (writes_blockCode h).append writes_endRun
    rwa [remainderBit, if_pos hwhole, List.append_nil, List.append_nil] at hend
  · rename_i hrest
    rw [List.append_nil]
    exact writes_blockCode_terminated h hrest

/-- The commands of the blocks `pre` and of a block `b` behind them whose own commands `x` end in their one terminator:
it is the first one where the blocks `pre` are whole. -/
theorem writes_through {pre : List (List Byte)} {x b : List Byte} {n : Nat} (hpre : ∀ c ∈ pre, ∃ v, OfKind v c)
    (hx : Writes x (List.replicate n false ++ [true]) b) :
    ∃ ts, Writes (pre.flatMap blockCode ++ x) (ts ++ [true]) (pre.flatten ++ b) ∧
      ((∀ c ∈ pre, IsWhole c) → ∀ t ∈ ts, t = false) := by
  obtain ⟨ts, hts, hmax⟩ := writes_blocks hpre
  have hall := hts.append hx
  rw [← List.append_assoc] at hall
  exact ⟨_, hall, fun hwhole => List.forall_mem_append.2 ⟨hmax hwhole, fun t => List.eq_of_mem_replicate⟩⟩

section Row

variable {R b : List Byte} {pre : List (List Byte)}

theorem rowCode_last (hR : partition R = pre ++ [b]) :
    ∃ ts, Writes (rowCode R) (ts ++ [true]) R ∧ ((∀ c ∈ pre, IsWhole c) → ∀ t ∈ ts, t = false) := by
  obtain ⟨hpre, hb⟩ := List.forall_mem_append.1 (hR ▸ partition_ofKind R)
  obtain ⟨v, hv⟩ := List.forall_mem_singleton.1 hb
  have hpx : pre.flatten ++ b = R := by rw [← flatten_partition R, hR, List.flatten_concat]
  have hcode : rowCode R = pre.flatMap blockCode ++ (blockCode b ++ rowEnd (pre ++ [b])) := by
    rw [rowCode, hR, List.flatMap_append, List.flatMap_singleton, List.append_assoc]
  have hrow := writes_through hpre (writes_lastBlock hv pre)
  rwa [hpx, ← hcode] at hrow

theorem rowCode_inner {post : List (List Byte)} (hR : partition R = pre ++ b :: post) (hrest : ¬ IsWhole b) :
    ∃ x y ts, rowCode R = x ++ y ∧ Writes x (ts ++ [true]) (pre.flatten ++ b) ∧
      ((∀ c ∈ pre, IsWhole c) → ∀ t ∈ ts, t = false) := by
  obtain ⟨hpre, hb⟩ := List.forall_mem_append.1 (hR ▸ partition_ofKind R)
  obtain ⟨⟨v, hv⟩, -⟩ := List.forall_mem_cons.1 hb
  obtain ⟨ts, hts, hmax⟩ := writes_through hpre (writes_blockCode_terminated hv hrest)
  refine ⟨_, post.flatMap blockCode ++ rowEnd (partition R), ts, ?_, hts, hmax⟩
  have hflat : (partition R).flatMap blockCode = pre.flatMap blockCode ++ (blockCode b ++ post.flatMap blockCode) := by
    rw [hR, List.flatMap_append, List.flatMap_cons]
  rw [rowCode, hflat]
  simp only [List.append_assoc]

end Row

theorem partition_eq_nil_iff {R : List Byte} : partition R = [] ↔ R = [] :=
  ⟨fun h => by rw [← flatten_partition R, h, List.flatten_nil], fun h => h ▸ rfl⟩

/-- A row that is not empty has a last block. -/
theorem exists_partition_concat {R : List Byte} (h : R ≠ []) : ∃ pre b, partition R = pre ++ [b] := by
  obtain ⟨pre, b, hR⟩ := (List.eq_nil_or_concat (partition R)).resolve_left (mt partition_eq_nil_iff.1 h)
  exact ⟨pre, b, hR.trans List.concat_eq_append⟩

/-- Settles O28: each block ends in a terminator unless it is whole, and END follows a whole last block. -/
theorem rowEndsWithATerminator : Obligations.RowEndsWithATerminator := by
  refine ⟨rfl, fun R blocks b hR => ?_, fun R out hne hout => ?_⟩
  · obtain ⟨hblocks, hb⟩ := List.forall_mem_append.1 (hR ▸ partition_ofKind R)
    obtain ⟨v, hv⟩ := List.forall_mem_singleton.1 hb
    refine ⟨_, _, compressBlocks_eq hblocks, hv.compressBlock_eq, ?_⟩
    rw [compressRow_eq, rowCode, hR, rowEnd_append_singleton, hv.maximalRun_eq, hv.all_isSent, List.flatMap_append,
      List.flatMap_singleton]
  · obtain ⟨pre, b, hR⟩ := exists_partition_concat hne
    obtain ⟨ts, hrow, -⟩ := rowCode_last hR
    obtain rfl := Except.ok.inj ((compressRow_eq R).symm.trans hout)
    exact hrow.exists_last

/-! ### The sizes of the outputs (42_encoder.md R243) -/

theorem sentBlock_length (m : Nat) : (sentBlock m).length = (m + 127) / 128 := by
  rw [sentinelBlockCommands, List.length_append, List.length_replicate]
  split
  · rw [List.length_nil]
    omega
  · rw [List.length_singleton]
    omega

theorem litBlock_length (B : List Byte) : (litBlock B).length = B.length + (B.length + 126) / 127 := by
  induction B using litBlock_induction with
  | short B h =>
    obtain hzero | hpos := B.length.eq_zero_or_pos
    · obtain rfl := List.eq_nil_of_length_eq_zero hzero
      rfl
    · rw [litBlock_short hpos h, List.length_cons]
      omega
  | more C B hC ih =>
    rw [litBlock_append hC, List.length_cons, List.length_append, List.length_append, ih]
    omega

theorem OfKind.blockCode_length_le {v : Bool} {b : List Byte} (h : OfKind v b) :
    (blockCode b).length ≤ 2 * b.length := by
  have hpos := h.length_pos
  cases v with
  | true =>
    rw [h.blockCode_sent, sentBlock_length]
    omega
  | false =>
    rw [h.blockCode_lit, litBlock_length]
    omega

theorem blocks_length_le {bs : List (List Byte)} (h : ∀ b ∈ bs, ∃ v, OfKind v b) :
    (bs.flatMap blockCode).length ≤ 2 * bs.flatten.length := by
  induction bs with
  | nil => exact Nat.zero_le _
  | cons b bs ih =>
    obtain ⟨⟨v, hb⟩, hbs⟩ := List.forall_mem_cons.1 h
    have hfirst := hb.blockCode_length_le
    have hrest := ih hbs
    rw [List.flatMap_cons, List.flatten_cons, List.length_append, List.length_append]
    omega

theorem rowEnd_length_le (bs : List (List Byte)) : (rowEnd bs).length ≤ 1 := by
  unfold rowEnd
  split
  · exact Nat.zero_le _
  · split <;> simp

/-- Settles O29: a block takes at most two bytes a pixel, and END is one byte. -/
theorem encoderOutputSizes : Obligations.EncoderOutputSizes := by
  refine ⟨fun m _ => sentBlock_length m, fun B _ => litBlock_length B, fun R out hout => ?_⟩
  obtain rfl := Except.ok.inj ((compressRow_eq R).symm.trans hout)
  have hblocks := blocks_length_le (partition_ofKind R)
  have hend := rowEnd_length_le (partition R)
  rw [flatten_partition] at hblocks
  rw [rowCode, List.length_append]
  omega

/-! ### A frame (42_encoder.md R231, R238) -/

/-- The code of a grid's rows 0 to `h - 1`. -/
def frameCode (G : List Byte) (w h : Nat) : List Byte := (List.range h).flatMap fun r => rowCode (gridRow G w r)

theorem encodeRows_eq (G : List Byte) (w r h : Nat) :
    encodeRows G w r h = .ok ((List.range' r h).flatMap fun k => rowCode (gridRow G w k)) := by
  induction h generalizing r with
  | zero => rfl
  | succ h ih =>
    rw [encodeRows, compressRow_eq, ih]
    rfl

theorem frameCode_empty (w h : Nat) : frameCode [] w h = [] := by
  have hrow (r : Nat) : gridRow [] w r = [] := by rw [gridRow, List.take_nil, List.drop_nil]
  exact List.flatMap_eq_nil_iff.2 fun r _ => by rw [hrow]; rfl

theorem encodeFrame_eq (G : List Byte) (w h : Nat) : encodeFrame G w h = .ok (frameCode G w h) := by
  unfold encodeFrame
  split
  · rename_i hzero
    rw [List.eq_nil_of_length_eq_zero hzero, frameCode_empty]
  · rw [encodeRows_eq, frameCode, List.range_eq_range']

theorem frameCode_succ (G : List Byte) (w h : Nat) :
    ∃ rest, frameCode G w (h + 1) = rowCode (G.take w) ++ rest := by
  have hfirst : gridRow G w 0 = G.take w := by
    rw [gridRow, Nat.zero_add, Nat.one_mul, Nat.zero_mul, List.drop_zero]
  exact ⟨_, by rw [frameCode, List.range_succ_eq_map, List.flatMap_cons, hfirst]⟩

theorem firstRow_length {G : List Byte} {w h : Nat} (hG : G.length = w * h) (hh : 0 < h) : (G.take w).length = w :=
  List.length_take_of_le (hG ▸ Nat.le_mul_of_pos_right w hh)

/-- The rows of a grid in order are its pixels. -/
theorem flatMap_gridRow (G : List Byte) (w h : Nat) : (List.range h).flatMap (gridRow G w) = G.take (h * w) := by
  induction h with
  | zero => rw [Nat.zero_mul, List.take_zero]; rfl
  | succ h ih =>
    have hle : h * w ≤ (h + 1) * w := Nat.mul_le_mul_right w h.le_succ
    have hrows : G.take (h * w) = (G.take ((h + 1) * w)).take (h * w) := by
      rw [List.take_take, Nat.min_eq_left hle]
    rw [List.range_succ, List.flatMap_append, List.flatMap_singleton, ih, gridRow, hrows, List.take_append_drop]

theorem commands_rowCode (R : List Byte) : ∃ ts, Commands (rowCode R) ts R := by
  obtain rfl | hne := eq_or_ne R []
  · exact ⟨[], commands_nil⟩
  · obtain ⟨pre, b, hR⟩ := exists_partition_concat hne
    obtain ⟨ts, hrow, -⟩ := rowCode_last hR
    exact ⟨_, hrow.commands⟩

theorem commands_flatMap {f g : Nat → List Byte} (h : ∀ r, ∃ ts, Commands (f r) ts (g r)) (rs : List Nat) :
    ∃ ts, Commands (rs.flatMap f) ts (rs.flatMap g) := by
  induction rs with
  | nil => exact ⟨[], commands_nil⟩
  | cons r rs ih =>
    obtain ⟨ts, hts⟩ := h r
    obtain ⟨us, hus⟩ := ih
    exact ⟨ts ++ us, hts.append hus⟩

theorem commands_frameCode {G : List Byte} {w h : Nat} (hG : G.length = w * h) :
    ∃ ts, Commands (frameCode G w h) ts G := by
  have hframe := commands_flatMap (fun r => commands_rowCode (gridRow G w r)) (List.range h)
  rwa [flatMap_gridRow, Nat.mul_comm, ← hG, List.take_length] at hframe

/-! ### What the encoder's output gives the decoder (42_encoder.md R245 to R247) -/

/-- Settles O30: every row's code is whole commands that give the row, and the rows in order are the grid. -/
theorem pixelRoundTrip : Obligations.PixelRoundTrip := by
  intro rule G w h hG
  obtain ⟨ts, hc⟩ := commands_frameCode hG
  exact ⟨_, encodeFrame_eq G w h, fun hno => decompress_commands (h := []) (.inl ⟨rfl, hno⟩) hc⟩

section Width

variable {rule : HdrRule} {x y px : List Byte} {ts : List Bool}

/-- Width inference counts the pixels up to the first terminator. -/
theorem frameWidth_first_terminator (hx : Writes x (ts ++ [true]) px) (hmax : ∀ t ∈ ts, t = false)
    (hno : hdrPresent rule ((x ++ y).map some) = .ok false) :
    frameWidth rule ((x ++ y).map some) = .ok px.length := by
  have hlen := hx.commands.length_le
  rw [List.length_append, List.length_singleton] at hlen
  have hne : x.map some ≠ [] := List.ne_nil_of_length_pos (by rw [List.length_map]; omega)
  rw [List.map_append, hdrPresent_append hne] at hno
  exact frameWidth_commands_row (h := []) (.inl ⟨rfl, hno⟩) hx.commands hmax

end Width

section FirstRow

variable {rule : HdrRule} {R rest b : List Byte} {pre : List (List Byte)}
  (hno : hdrPresent rule ((rowCode R ++ rest).map some) = .ok false) (hpre : ∀ c ∈ pre, IsWhole c)
include hno hpre

theorem frameWidth_whole_row (hR : partition R = pre ++ [b]) :
    frameWidth rule ((rowCode R ++ rest).map some) = .ok R.length := by
  obtain ⟨ts, hrow, hmax⟩ := rowCode_last hR
  exact frameWidth_first_terminator hrow (hmax hpre) hno

theorem frameWidth_inner_block {post : List (List Byte)} (hR : partition R = pre ++ b :: post) (hrest : ¬ IsWhole b) :
    frameWidth rule ((rowCode R ++ rest).map some) = .ok ((pre.map List.length).sum + b.length) := by
  obtain ⟨x, y, ts, hcode, hx, hmax⟩ := rowCode_inner hR hrest
  rw [hcode, List.append_assoc] at hno ⊢
  rw [frameWidth_first_terminator hx (hmax hpre) hno, List.length_append, List.length_flatten]

end FirstRow

/-- The pixels through an inner block are fewer than the row's, for the blocks behind it are not empty. -/
theorem pixels_through_lt {R b : List Byte} {pre post : List (List Byte)} (hR : partition R = pre ++ b :: post)
    (hpost : post ≠ []) : (pre.map List.length).sum + b.length < R.length := by
  obtain ⟨c, post, rfl⟩ := List.exists_cons_of_ne_nil hpost
  obtain ⟨v, hc⟩ := partition_ofKind R c (by simp [hR])
  have hpos := hc.length_pos
  rw [← congrArg List.length (flatten_partition R), hR, List.length_flatten]
  simp only [List.map_append, List.map_cons, List.sum_append, List.sum_cons]
  omega

/-- The first element of a list that fails a test, with those before it. -/
theorem exists_first_not {α : Type} {P : α → Prop} {xs : List α} (h : ¬ ∀ x ∈ xs, P x) :
    ∃ pre x post, xs = pre ++ x :: post ∧ (∀ y ∈ pre, P y) ∧ ¬ P x := by
  classical
  have hfails : (xs.find? (fun x => !decide (P x))).isSome = true := by simpa [List.find?_isSome] using h
  obtain ⟨x, hfind⟩ := Option.isSome_iff_exists.1 hfails
  obtain ⟨hx, pre, post, hxs, hpre⟩ := List.find?_eq_some_iff_append.1 hfind
  exact ⟨pre, x, post, hxs, by simpa using hpre, by simpa using hx⟩

/-- Settles O31: the first terminator of row 0 ends its first block with a remainder, or its last block. -/
theorem widthRoundTrip : Obligations.WidthRoundTrip := by
  intro rule G w h out hw hh hG hout hno
  obtain ⟨h, rfl⟩ := Nat.exists_eq_add_one.2 hh
  obtain ⟨rest, hcode⟩ := frameCode_succ G w h
  obtain rfl := Except.ok.inj ((encodeFrame_eq G w (h + 1)).symm.trans hout)
  rw [hcode] at hno ⊢
  have hlen := firstRow_length hG hh
  have hne : G.take w ≠ [] := List.ne_nil_of_length_pos (by omega)
  have hinner pre b post (hR : partition (G.take w) = pre ++ b :: post) (hpost : post ≠ [])
      (hpre : ∀ c ∈ pre, IsWhole c) (hrest : ¬ IsWhole b) :=
    And.intro (frameWidth_inner_block hno hpre hR hrest) (hlen ▸ pixels_through_lt hR hpost)
  refine ⟨⟨fun hwidth => ?_, fun hwhole => ?_⟩, hinner⟩
  · by_contra hnot
    obtain ⟨pre, b, post, hdrop, hpre, hrest⟩ := exists_first_not hnot
    obtain ⟨init, last, hR⟩ := exists_partition_concat hne
    have hsplit : partition (G.take w) = pre ++ b :: (post ++ [last]) := by
      rw [hR, List.dropLast_concat] at hdrop
      rw [hR, hdrop, List.append_assoc, List.cons_append]
    obtain ⟨hwidth', hlt⟩ := hinner pre b (post ++ [last]) hsplit (by simp) hpre hrest
    have := Except.ok.inj (hwidth.symm.trans hwidth')
    omega
  · obtain ⟨init, last, hR⟩ := exists_partition_concat hne
    rw [hR, List.dropLast_concat] at hwhole
    rw [frameWidth_whole_row hno hwhole hR, hlen]

/-! ### Header misreading (42_encoder.md R247) -/

theorem OfKind.blockCode_sent_head {b : List Byte} (h : OfKind true b) :
    ∃ c rest, blockCode b = c :: rest ∧ 128 ≤ c.toNat := by
  have hpos := h.length_pos
  rw [h.blockCode_sent, sentinelBlockCommands]
  obtain hzero | hmore := (b.length / 128).eq_zero_or_pos
  · rw [hzero, if_neg (by omega)]
    refine ⟨_, [], rfl, ?_⟩
    rw [BitVec.toNat_ofNat]
    omega
  · obtain ⟨k, hk⟩ := Nat.exists_eq_add_one.2 hmore
    rw [hk]
    exact ⟨0x80#8, _, rfl, by decide⟩

theorem OfKind.blockCode_lit_head {b : List Byte} (h : OfKind false b) :
    ∃ c rest, blockCode b = c :: rest ∧ c.toNat = min b.length 127 := by
  rw [h.blockCode_lit]
  obtain hlt | hge := Nat.lt_or_ge b.length 127
  · refine ⟨_, b, litBlock_short h.length_pos hlt, ?_⟩
    rw [BitVec.toNat_ofNat]
    omega
  · have hrun := litBlock_append (List.length_take_of_le hge) (b.drop 127)
    rw [List.take_append_drop] at hrun
    exact ⟨_, _, hrun, (Nat.min_eq_right hge).symm⟩

section FirstBlock

variable {R b : List Byte} {bs : List (List Byte)} {v : Bool} (hR : partition R = b :: bs) (hb : OfKind v b)
include hR hb

theorem starts_with_literal_block_iff (P : Nat → Prop) :
    (∃ b bs, partition R = b :: bs ∧ (∀ p ∈ b, p ≠ 0xFF#8) ∧ P b.length) ↔ v = false ∧ P b.length := by
  rw [hR]
  constructor
  · rintro ⟨b', bs', heq, hlit, hP⟩
    obtain ⟨rfl, rfl⟩ := List.cons.inj heq
    obtain ⟨p, b, rfl⟩ := List.exists_cons_of_ne_nil hb.1
    rw [← hb.head, isSent_eq_false_iff]
    exact ⟨hlit p List.mem_cons_self, hP⟩
  · rintro ⟨rfl, hP⟩
    exact ⟨b, bs, rfl, fun p hp => (isSent_eq_false_iff p).1 (hb.2 p hp), hP⟩

theorem starts_with_sentinel_iff (rest : List Byte) : (R ++ rest).head? = some 0xFF#8 ↔ v = true := by
  obtain ⟨p, b, rfl⟩ := List.exists_cons_of_ne_nil hb.1
  rw [← flatten_partition R, hR, ← hb.head, isSent_iff, List.flatten_cons, List.cons_append, List.cons_append,
    List.head?_cons, Option.some_inj]

end FirstBlock

/-- The first byte of a row's code is its first block's first command. -/
theorem rowCode_head {R b : List Byte} {bs : List (List Byte)} {v : Bool} (hR : partition R = b :: bs)
    (hb : OfKind v b) :
    ∃ c rest, rowCode R = c :: rest ∧ ((v = true ∧ 128 ≤ c.toNat) ∨ (v = false ∧ c.toNat = min b.length 127)) := by
  rw [rowCode, hR, List.flatMap_cons]
  cases v with
  | true =>
    obtain ⟨c, rest, hcode, hc⟩ := hb.blockCode_sent_head
    exact ⟨c, _, by rw [hcode]; rfl, .inl ⟨rfl, hc⟩⟩
  | false =>
    obtain ⟨c, rest, hcode, hc⟩ := hb.blockCode_lit_head
    exact ⟨c, _, by rw [hcode]; rfl, .inr ⟨rfl, hc⟩⟩

theorem headerless_gt_iff (c : Byte) (F : List Byte) :
    hdrPresent .gt ((c :: F).map some) = .ok false ↔ c.toNat ≤ 16 := by
  obtain ⟨-, hgt, -⟩ := headerTestAndStreamStart
  rw [List.map_cons, hgt, Except.ok.injEq, decide_eq_false_iff_not, Nat.not_lt]

theorem headerless_le_iff (c : Byte) (F : List Byte) :
    hdrPresent .le ((c :: F).map some) = .ok false ↔ 17 ≤ c.toNat := by
  obtain ⟨-, -, hle, -⟩ := headerTestAndStreamStart
  rw [List.map_cons, hle, Except.ok.injEq, decide_eq_false_iff_not, Nat.not_le]
  rfl

/-- Settles O32: the first byte is a transparency command, or a literal one that counts the block's pixels up to 127. -/
theorem headerMisreading : Obligations.HeaderMisreading := by
  intro G w h out hG hout
  obtain rfl := Except.ok.inj ((encodeFrame_eq G w h).symm.trans hout)
  by_cases hzero : w * h = 0
  · obtain rfl := List.eq_nil_of_length_eq_zero (hG.trans hzero)
    rw [frameCode_empty]
    exact ⟨iff_of_true rfl (.inl hzero), iff_of_true rfl (.inl hzero)⟩
  · obtain ⟨hw, hh⟩ := Nat.mul_ne_zero_iff.1 hzero
    obtain ⟨h, rfl⟩ := Nat.exists_eq_succ_of_ne_zero hh
    have hlen := firstRow_length hG (Nat.pos_of_ne_zero hh)
    have hne : G.take w ≠ [] := List.ne_nil_of_length_pos (by omega)
    obtain ⟨b, bs, hR⟩ := List.exists_cons_of_ne_nil (mt partition_eq_nil_iff.1 hne)
    obtain ⟨v, hb⟩ := partition_ofKind (G.take w) b (by simp [hR])
    obtain ⟨rest, hcode⟩ := frameCode_succ G w h
    obtain ⟨c, rest', hrow, hc⟩ := rowCode_head hR hb
    have hpos := hb.length_pos
    have hsent := starts_with_sentinel_iff hR hb (G.drop w)
    rw [List.take_append_drop] at hsent
    rw [hcode, hrow, List.cons_append, headerless_gt_iff, headerless_le_iff, or_iff_right hzero, or_iff_right hzero,
      hsent, starts_with_literal_block_iff hR hb (fun n => 1 ≤ n ∧ n ≤ 16),
      starts_with_literal_block_iff hR hb (fun n => 17 ≤ n)]
    obtain ⟨rfl, hc⟩ | ⟨rfl, hc⟩ := hc
    · simp only [Bool.true_eq_false, false_and, true_or, iff_false, iff_true]
      omega
    · simp only [Bool.false_eq_true, true_and, false_or]
      omega

/-! ### The encoder's operations (42_encoder.md R239 to R241) -/

/-- The pseudocode the three operations share, on a window whose bytes are `B`. -/
theorem specified_bind {F : Window} {B : List Byte} (hF : F = B.map some) (k : List Byte → Except Stop State) :
    (specified F >>= k) = k B := by
  rw [hF, specified_map_some, ok_bind]

section Outcomes

variable {i : Instr} {s : State} {x : Except Stop (List Byte)} {out : List Byte} (hx : x = .ok out)
include hx

theorem conclude_stored (i : Instr) (hfits : out.length ≤ s.cfg.maxObuf) :
    conclude i s (x >>= storeOutput s) = .next { s with
      obuf := Memory.ofList 0 out, outLen := .word (BitVec.ofNat 32 out.length), err := none, done := true
      replay := none } := by
  rw [hx, ok_bind, storeOutput_fits hfits]
  rfl

theorem conclude_over (i : Instr) (hover : s.cfg.maxObuf < out.length) :
    conclude i s (x >>= storeOutput s) = .next (errorEntry i .capacityExceeded s) := by
  rw [hx, ok_bind, storeOutput_over hover]
  rfl

end Outcomes

section Windows

variable {s : State} {B : List Byte}

theorem exec_compressBlock (hw : s.inBase.toNat + s.inLen.toNat ≤ s.cfg.maxIbuf) (hwindow : s.window = B.map some) :
    exec .compressBlock s = conclude .compressBlock s (compressBlock B >>= storeOutput s) := by
  rw [exec, execCompressBlock, windowOp_of_fits hw, specified_bind hwindow]

theorem exec_compressRow (hw : s.inBase.toNat + s.inLen.toNat ≤ s.cfg.maxIbuf) (hwindow : s.window = B.map some) :
    exec .compressRow s = conclude .compressRow s (compressRow B >>= storeOutput s) := by
  rw [exec, execCompressRow, windowOp_of_fits hw, specified_bind hwindow]

theorem exec_encodeFrame (hw : s.inBase.toNat + s.inLen.toNat ≤ s.cfg.maxIbuf)
    (hsize : s.gridW.toNat * s.gridH.toNat = s.inLen.toNat) (hwindow : s.window = B.map some) :
    exec .encodeFrame s =
      conclude .encodeFrame s (encodeFrame B s.gridW.toNat s.gridH.toNat >>= storeOutput s) := by
  rw [exec, execEncodeFrame, windowOp_of_fits hw, if_neg (not_not.2 hsize), specified_bind hwindow]

end Windows

/-- Settles O33: the code of the block, its capacity check, or the refusal of a mixed block. -/
theorem compressBlockOperation : Obligations.CompressBlockOperation := by
  refine ⟨by decide, fun s => ⟨fun hout => ?_, fun B hw hwindow => ?_⟩⟩
  · rw [exec, execCompressBlock, windowOp_of_exceeds hout, errorEntry_compressBlock]
  rw [exec_compressBlock hw hwindow]
  refine ⟨fun out hout => conclude_stored hout _, fun out hout => conclude_over hout _, fun hsent hlit => ?_⟩
  rw [compressBlock_mixed hsent hlit]
  rfl

/-- Settles O34: a row always has a code, so only its capacity check is left. -/
theorem compressRowOperation : Obligations.CompressRowOperation := by
  refine ⟨by decide, fun s => ⟨fun hout => ?_, fun R hw hwindow => ?_⟩⟩
  · rw [exec, execCompressRow, windowOp_of_exceeds hout, errorEntry_compressRow]
  rw [exec_compressRow hw hwindow]
  exact ⟨_, compressRow_eq R, conclude_stored (compressRow_eq R) _, conclude_over (compressRow_eq R) _⟩

/-- The size check of ENCODE_FRAME follows the window check and ends in the same error. -/
theorem exec_encodeFrame_illegal {s : State}
    (h : s.cfg.maxIbuf < s.inBase.toNat + s.inLen.toNat ∨ s.gridW.toNat * s.gridH.toNat ≠ s.inLen.toNat) :
    exec .encodeFrame s = .next (errorEntry .encodeFrame .illegalRequest s) := by
  rw [exec, execEncodeFrame]
  obtain hout | hw := Nat.lt_or_ge s.cfg.maxIbuf (s.inBase.toNat + s.inLen.toNat)
  · exact windowOp_of_exceeds hout
  · rw [windowOp_of_fits hw, if_pos (h.resolve_left (Nat.not_lt.2 hw)), conclude_raise]

/-- Settles O35: the window check and the size check, then the code of the grid and its capacity check. -/
theorem encodeFrameOperation : Obligations.EncodeFrameOperation := by
  refine ⟨by decide, fun s => ⟨fun h => ?_, fun G hw hsize hwindow => ?_⟩⟩
  · rw [exec_encodeFrame_illegal h, errorEntry_encodeFrame]
  rw [exec_encodeFrame hw hsize hwindow]
  have hcode := encodeFrame_eq G s.gridW.toNat s.gridH.toNat
  exact ⟨_, hcode, conclude_stored hcode _, conclude_over hcode _⟩

end Sys2Proof.Proofs.Encoder
end

section
/-! SUPPORT. Proofs for 60_exceptions.md: which operation raises which error (R271 to R277), error entry (R281, R282), that
the same request repeats its error (R283), and the start and the end of an operation (R291, R292). -/

namespace Sys2Proof.Proofs.Exceptions

open Sys2Proof Sys2Proof.Machine Sys2Proof.Proofs.Scope Sys2Proof.Proofs.Block Sys2Proof.Proofs.Encoding
  Sys2Proof.Proofs.Indexer Sys2Proof.Proofs.Decoder Sys2Proof.Proofs.Encoder

/-! ### How an operation ends in an error (60_exceptions.md R280, R281) -/

section Failing

variable {i : Instr} {s t : State} {e : Err}

/-- STATUS.ERR holds an error only if the pseudocode has raised it. -/
theorem conclude_err {r : Except Stop State} (h : conclude i s r = .next t) (he : t.err = some e) :
    t = errorEntry i e s ∧ r = .error (.raise e) := by
  obtain ⟨t', -, rfl⟩ | ⟨e', hr, rfl⟩ := conclude_next h
  · cases he
  · obtain rfl : e' = e := Option.some.inj he
    exact ⟨rfl, hr⟩

/-- A window-reading operation fails by the window check, or by its own pseudocode on a window that fits. -/
theorem windowOp_err {k : Window → Except Stop State} (h : windowOp i s k = .next t) (he : t.err = some e) :
    t = errorEntry i e s ∧
      (s.cfg.maxIbuf < s.inBase.toNat + s.inLen.toNat ∧ e = .illegalRequest ∨
        s.inBase.toNat + s.inLen.toNat ≤ s.cfg.maxIbuf ∧ k s.window = .error (.raise e)) := by
  obtain hout | hw := Nat.lt_or_ge s.cfg.maxIbuf (s.inBase.toNat + s.inLen.toNat)
  · rw [windowOp_of_exceeds hout] at h
    cases h
    cases he
    exact ⟨rfl, .inl ⟨hout, rfl⟩⟩
  · rw [windowOp_of_fits hw] at h
    obtain ⟨ht, hr⟩ := conclude_err h he
    exact ⟨ht, .inr ⟨hw, hr⟩⟩

/-- A decoder operation fails by the window check, or after it has written STATUS.HDR. -/
theorem decoderOp_err {k : State → Window → Except Stop State} (h : decoderOp i s k = .next t)
    (he : t.err = some e) :
    s.cfg.maxIbuf < s.inBase.toNat + s.inLen.toNat ∧ e = .illegalRequest ∧ t = errorEntry i e s ∨
      s.inBase.toNat + s.inLen.toNat ≤ s.cfg.maxIbuf ∧ ∃ hd, hdrPresent s.cfg.hdrRule s.window = .ok hd ∧
        k (withHdr s hd) s.window = .error (.raise e) ∧ t = errorEntry i e (withHdr s hd) := by
  obtain hout | hw := Nat.lt_or_ge s.cfg.maxIbuf (s.inBase.toNat + s.inLen.toNat)
  · rw [decoderOp_of_exceeds hout] at h
    cases h
    cases he
    exact .inl ⟨hout, rfl, rfl⟩
  · obtain ⟨hbad, -⟩ | ⟨-, hd, hh, -⟩ := decoderOp_next h
    · exact absurd (decide_eq_true hw) (Bool.eq_false_iff.1 hbad)
    rw [decoderOp_of_fits hw hh] at h
    obtain ⟨ht, hr⟩ := conclude_err h he
    exact .inr ⟨hw, hd, hh, hr, ht⟩

end Failing

/-! ### The errors a pseudocode can raise -/

/-- Every error `x` raises is one of `P`. -/
def Raises {α : Type} (P : Err → Prop) (x : Except Stop α) : Prop := ∀ e, x = .error (.raise e) → P e

section Rules

variable {α β : Type} {P : Err → Prop}

theorem raises_ok (a : α) : Raises P (.ok a : Except Stop α) := fun _ h => nomatch h

theorem raises_raise {e : Err} (he : P e) : Raises P (raise e : Except Stop α) := fun _ h => by
  cases h
  exact he

theorem raises_stopFault (f : Fault) : Raises P (stopFault f : Except Stop α) := fun _ h => nomatch h

theorem Raises.bind {x : Except Stop α} {f : α → Except Stop β} (hx : Raises P x) (hf : ∀ a, Raises P (f a)) :
    Raises P (x >>= f) := fun e h => by
  obtain h | ⟨a, -, h⟩ := bind_eq_raise h
  · exact hx e h
  · exact hf a e h

theorem Raises.map {x : Except Stop α} (hx : Raises P x) (f : α → β) : Raises P (x.map f) := by
  cases x with
  | ok a => exact raises_ok (f a)
  | error s => exact fun e h => hx e (congrArg Except.error (Except.error.inj h))

theorem Raises.ite {c : Prop} [Decidable c] {x y : Except Stop α} (hx : Raises P x) (hy : Raises P y) :
    Raises P (if c then x else y) := by
  split
  · exact hx
  · exact hy

/-! ### The errors of the operands' reads: none -/

theorem raises_readByte (F : Window) (k : Nat) : Raises P (readByte F k) := fun _ h => absurd h readByte_not_raise

theorem raises_specified (F : Window) : Raises P (specified F) := fun _ h => absurd h specified_not_raise

theorem raises_readWord (F : Window) (k : Nat) : Raises P (readWord F k) :=
  (raises_readByte F k).bind fun _ => (raises_readByte F _).bind fun _ => (raises_readByte F _).bind fun _ =>
    (raises_readByte F _).bind fun _ => raises_ok _

theorem raises_readWords (F : Window) (k n : Nat) : Raises P (readWords F k n) := by
  induction n generalizing k with
  | zero => exact raises_ok []
  | succ n ih => exact (raises_readWord F k).bind fun _ => (ih (k + 4)).bind fun _ => raises_ok _

theorem raises_get (r : RegName) (v : RegValue) : Raises P (v.get r) := by
  cases v with
  | word v => exact raises_ok v
  | unspecified => exact raises_stopFault _

theorem raises_readOffset (offs : List (Option Word)) (k : Nat) : Raises P (readOffset offs k) := by
  unfold readOffset
  split
  · exact raises_ok _
  · exact raises_stopFault _

theorem raises_readLengths (m : Memory Word) (k n : Nat) : Raises P (readLengths m k n) := by
  induction n generalizing k with
  | zero => exact raises_ok []
  | succ n ih =>
    unfold readLengths
    split
    · exact raises_stopFault _
    · exact (ih (k + 1)).map _

theorem raises_cutFrames (F : Window) (p : Nat) (lens : List Nat) : Raises P (cutFrames F p lens) := by
  induction lens generalizing p with
  | nil => exact raises_ok []
  | cons l ls ih => exact (raises_specified _).bind fun _ => (ih (p + l)).bind fun _ => raises_ok _

/-! ### The errors of each function (60_exceptions.md R272 to R277) -/

theorem raises_parseOffsets (hm : P .malformedContainer) (C : Window) : Raises P (parseOffsets C) :=
  .ite (raises_raise hm) <| (raises_readWord C 0).bind fun _ =>
    .ite (raises_raise hm) <| (raises_readWords C 4 _).bind fun _ => raises_ok _

theorem raises_frameSlice (hx : P .indexOutOfRange) (hm : P .malformedContainer) (offs : List (Option Word))
    (L : RegValue) (k : Nat) : Raises P (frameSlice offs L k) :=
  .ite (raises_raise hx) <| (raises_readOffset offs k).bind fun _ => (raises_readOffset offs (k + 1)).bind fun _ =>
    (raises_get _ L).bind fun _ => .ite (raises_raise hm) (raises_ok _)

theorem raises_frameWidth (hu : P .unexpectedEndOfFrame) (rule : HdrRule) (F : Window) :
    Raises P (frameWidth rule F) := fun _ h => frameWidth_raise h ▸ hu

theorem raises_decompress (hu : P .unexpectedEndOfFrame) (rule : HdrRule) (F : Window) :
    Raises P (decompress rule F) := fun _ h => decompress_raise h ▸ hu

theorem raises_frameDims (hu : P .unexpectedEndOfFrame) (hd : P .dimensionMismatch) (rule : HdrRule) (F : Window) :
    Raises P (frameDims rule F) :=
  (raises_frameWidth hu rule F).bind fun _ => (raises_decompress hu rule F).bind fun _ =>
    .ite (raises_raise hd) (raises_ok _)

theorem raises_compressBlock (hi : P .illegalRequest) (B : List Byte) : Raises P (compressBlock B) :=
  .ite (raises_ok _) <| .ite (raises_ok _) <| .ite (raises_ok _) (raises_raise hi)

theorem raises_compressRow (R : List Byte) : Raises P (compressRow R) := compressRow_eq R ▸ raises_ok _

theorem raises_encodeFrame (G : List Byte) (w h : Nat) : Raises P (encodeFrame G w h) :=
  encodeFrame_eq G w h ▸ raises_ok _

theorem raises_storeOutput (hc : P .capacityExceeded) (s : State) (p : List Byte) : Raises P (storeOutput s p) :=
  .ite (raises_raise hc) (raises_ok _)

theorem raises_storeWidth (hc : P .capacityExceeded) (s : State) (w : Nat) : Raises P (storeWidth s w) :=
  .ite (raises_raise hc) (raises_ok _)

theorem raises_storeDims (hc : P .capacityExceeded) (s : State) (d : Nat × Nat × List Byte) :
    Raises P (storeDims s d) := (raises_storeOutput hc s d.2.2).map _

/-! ### The errors of each operation (60_exceptions.md R271) -/

theorem windowOp_raises {i : Instr} {s t : State} {e : Err} {k : Window → Except Stop State}
    (h : windowOp i s k = .next t) (he : t.err = some e)
    (hout : s.cfg.maxIbuf < s.inBase.toNat + s.inLen.toNat → P .illegalRequest) (hk : Raises P (k s.window)) : P e := by
  obtain ⟨-, ⟨hw, rfl⟩ | ⟨-, hr⟩⟩ := windowOp_err h he
  · exact hout hw
  · exact hk e hr

theorem decoderOp_raises {i : Instr} {s t : State} {e : Err} {k : State → Window → Except Stop State}
    (h : decoderOp i s k = .next t) (he : t.err = some e)
    (hout : s.cfg.maxIbuf < s.inBase.toNat + s.inLen.toNat → P .illegalRequest) (hk : ∀ u F, Raises P (k u F)) :
    P e := by
  obtain ⟨hw, rfl, -⟩ | ⟨-, hd, -, hr, -⟩ := decoderOp_err h he
  · exact hout hw
  · exact hk _ _ e hr

end Rules

/-- The column "raised by" of 60_exceptions.md R271, for a request `i` made in state `s`. -/
def RaisedBy (s : State) (i : Instr) : Err → Prop
  | .malformedContainer => i = .parseOffsets ∨ i = .frameBytes
  | .indexOutOfRange => i = .frameBytes
  | .unexpectedEndOfFrame => i = .frameWidth ∨ i = .decompress ∨ i = .frameDims
  | .dimensionMismatch => i = .frameDims
  | .capacityExceeded => i = .parseOffsets ∨ i = .buildContainer ∨ i = .frameWidth ∨ i = .decompress ∨
      i = .frameDims ∨ i = .compressBlock ∨ i = .compressRow ∨ i = .encodeFrame
  | .illegalRequest => (∃ op, i = .illegalOp op) ∨ i = .buildContainer ∨ i = .compressBlock ∨
      i = .encodeFrame ∨ (i ≠ .frameBytes ∧ s.cfg.maxIbuf < s.inBase.toNat + s.inLen.toNat)

/-- An operation that ends in an error is one of those that raise it. -/
theorem exec_raisedBy {i : Instr} {s t : State} {e : Err} (hi : i.isCommand = false) (h : exec i s = .next t)
    (he : t.err = some e) : RaisedBy s i e := by
  have hout (hne : i ≠ .frameBytes) (hw : s.cfg.maxIbuf < s.inBase.toNat + s.inLen.toNat) :
      RaisedBy s i .illegalRequest := .inr (.inr (.inr (.inr ⟨hne, hw⟩)))
  cases i with
  | lit n => cases hi
  | endRun => cases hi
  | litMax => cases hi
  | trnMax => cases hi
  | trn n => cases hi
  | parseOffsets =>
    rw [exec] at h
    exact windowOp_raises h he (hout nofun) <| (raises_parseOffsets (by simp [RaisedBy]) _).bind fun ⟨_, _⟩ =>
      .ite (raises_raise (by simp [RaisedBy])) (raises_ok _)
  | frameBytes =>
    rw [exec] at h
    exact ((raises_frameSlice (by simp [RaisedBy]) (by simp [RaisedBy]) _ _ _).bind fun _ =>
      (raises_get _ _).bind fun _ => raises_ok _) e (conclude_err h he).2
  | buildContainer =>
    rw [exec] at h
    exact windowOp_raises h he (hout nofun) <| (raises_get _ _).bind fun _ =>
      .ite (raises_raise (by simp [RaisedBy])) <| (raises_readLengths _ _ _).bind fun _ =>
      .ite (raises_raise (by simp [RaisedBy])) <| (raises_cutFrames _ _ _).bind fun _ =>
      .ite (raises_raise (by simp [RaisedBy])) (raises_storeOutput (by simp [RaisedBy]) _ _)
  | frameWidth =>
    rw [exec] at h
    exact decoderOp_raises h he (hout nofun) fun u F => (raises_frameWidth (by simp [RaisedBy]) _ F).bind
      (raises_storeWidth (by simp [RaisedBy]) u)
  | decompress =>
    rw [exec] at h
    exact decoderOp_raises h he (hout nofun) fun u F => (raises_decompress (by simp [RaisedBy]) _ F).bind
      (raises_storeOutput (by simp [RaisedBy]) u)
  | frameDims =>
    rw [exec] at h
    exact decoderOp_raises h he (hout nofun) fun u F =>
      (raises_frameDims (by simp [RaisedBy]) (by simp [RaisedBy]) _ F).bind (raises_storeDims (by simp [RaisedBy]) u)
  | compressBlock =>
    rw [exec] at h
    exact windowOp_raises h he (hout nofun) <| (raises_specified _).bind fun B =>
      (raises_compressBlock (by simp [RaisedBy]) B).bind (raises_storeOutput (by simp [RaisedBy]) s)
  | compressRow =>
    rw [exec] at h
    exact windowOp_raises h he (hout nofun) <| (raises_specified _).bind fun R =>
      (raises_compressRow R).bind (raises_storeOutput (by simp [RaisedBy]) s)
  | encodeFrame =>
    rw [exec] at h
    exact windowOp_raises h he (hout nofun) <| .ite (raises_raise (by simp [RaisedBy])) <|
      (raises_specified _).bind fun G => (raises_encodeFrame G _ _).bind (raises_storeOutput (by simp [RaisedBy]) s)
  | illegalOp op =>
    rw [exec] at h
    exact raises_raise (by simp [RaisedBy]) e (conclude_err h he).2

theorem errCode_le (e : Option Err) : errCode e ≤ 6#4 := by
  cases e with
  | none => decide
  | some e => cases e <;> decide

/-- Settles O38: the codes are the table's, and an error in STATUS.ERR is one its operation raises. -/
theorem errorCodesAndWhoRaisesThem : Obligations.ErrorCodesAndWhoRaisesThem := by
  refine ⟨rfl, rfl, rfl, rfl, rfl, rfl, rfl, errCode_le, fun i s t e hi h he => ?_⟩
  have hraised (e' : Err) (heq : e = e') : RaisedBy s i e' := heq ▸ exec_raisedBy hi h he
  exact ⟨hraised _, hraised _, hraised _, hraised _, hraised _, hraised _⟩

/-! ### The same request again (60_exceptions.md R283) -/

theorem lost_lost (v : RegValue) (r : Result) (rs : List Result) : (v.lost r rs).lost r rs = v.lost r rs := by
  by_cases h : r ∈ rs <;> simp [h]

theorem memory_lost_lost {α : Type} (m : Memory α) (r : Result) (rs : List Result) :
    Memory.lost (Memory.lost m r rs) r rs = Memory.lost m r rs := by
  by_cases h : r ∈ rs <;> simp [h]

/-- A second error entry finds nothing more to lose. -/
theorem errorEntry_errorEntry (i : Instr) (e : Err) (s : State) :
    errorEntry i e (errorEntry i e s) = errorEntry i e s := by
  have hofft : (if i = .parseOffsets then 0#32 else (errorEntry i e s).offtLen) = (errorEntry i e s).offtLen := by
    rw [errorEntry_offtLen]
    split <;> rfl
  rw [errorEntry, hofft]
  simp only [errorEntry, lost_lost, memory_lost_lost]

/-- Every error `x` raises, `y` raises too. -/
def Repeats (x y : Except Stop State) : Prop := ∀ e, x = .error (.raise e) → y = .error (.raise e)

section Repeats

variable {i : Instr} {s t : State} {e : Err}

theorem repeats_refl (x : Except Stop State) : Repeats x x := fun _ h => h

theorem repeats_ok (a : State) (y : Except Stop State) : Repeats (.ok a) y := fun _ h => nomatch h

theorem repeats_bind {α : Type} {x : Except Stop α} {f g : α → Except Stop State} (h : ∀ a, Repeats (f a) (g a)) :
    Repeats (x >>= f) (x >>= g) := by
  cases x with
  | ok a => exact h a
  | error r => exact repeats_refl _

theorem Repeats.ite {c : Prop} [Decidable c] {x x' y y' : Except Stop State} (hx : Repeats x x') (hy : Repeats y y') :
    Repeats (if c then x else y) (if c then x' else y') := by
  by_cases hc : c
  · rwa [if_pos hc, if_pos hc]
  · rwa [if_neg hc, if_neg hc]

/-- The capacity check of a result asks the parameters only. -/
theorem repeats_storeOutput (p : List Byte) : Repeats (storeOutput s p) (storeOutput (errorEntry i e s) p) :=
  .ite (repeats_refl _) (repeats_ok _ _)

theorem repeats_storeWidth (w : Nat) : Repeats (storeWidth s w) (storeWidth (errorEntry i e s) w) :=
  .ite (repeats_refl _) (repeats_ok _ _)

theorem repeats_storeDims (d : Nat × Nat × List Byte) : Repeats (storeDims s d) (storeDims (errorEntry i e s) d) := by
  obtain hover | hfits := Nat.lt_or_ge s.cfg.maxObuf d.2.2.length
  · rw [storeDims, storeDims, storeOutput_over hover, storeOutput_over (s := errorEntry i e s) hover]
    exact repeats_refl _
  · rw [storeDims, storeOutput_fits hfits]
    exact repeats_ok _ _

theorem conclude_errorEntry {r : Except Stop State} (hr : r = .error (.raise e)) :
    conclude i (errorEntry i e s) r = .next (errorEntry i e s) := by
  rw [hr, conclude_error_raise, errorEntry_errorEntry]

/-- After its own error entry, an operation whose pseudocode repeats the error ends in the same state. -/
theorem conclude_repeats {r r' : Except Stop State} (h : conclude i s r = .next (errorEntry i e s))
    (hr : Repeats r r') : conclude i (errorEntry i e s) r' = .next (errorEntry i e s) :=
  conclude_errorEntry (hr e (conclude_err h rfl).2)

theorem windowOp_repeats {k k' : Window → Except Stop State} (h : windowOp i s k = .next (errorEntry i e s))
    (hk : Repeats (k s.window) (k' s.window)) : windowOp i (errorEntry i e s) k' = .next (errorEntry i e s) := by
  obtain ⟨-, ⟨hout, rfl⟩ | ⟨hw, hraise⟩⟩ := windowOp_err h rfl
  · rw [windowOp_of_exceeds (s := errorEntry i .illegalRequest s) hout, errorEntry_errorEntry]
  · rw [windowOp_of_fits (s := errorEntry i e s) hw]
    exact conclude_errorEntry (hk e hraise)

/-- STATUS.HDR is written again from the same window, so the second request writes the same value. -/
theorem decoderOp_repeats {k : State → Window → Except Stop State} (h : decoderOp i s k = .next t)
    (he : t.err = some e) (hk : ∀ u F, Repeats (k u F) (k (errorEntry i e u) F)) : decoderOp i t k = .next t := by
  obtain ⟨hout, rfl, rfl⟩ | ⟨hw, hd, hh, hraise, rfl⟩ := decoderOp_err h he
  · rw [decoderOp_of_exceeds (s := errorEntry i .illegalRequest s) hout, errorEntry_errorEntry]
  · rw [decoderOp_of_fits (s := errorEntry i e (withHdr s hd)) hw hh]
    exact conclude_errorEntry (s := withHdr s hd) (hk _ _ e hraise)

end Repeats

/-- Settles O40: the operands an operation reads are none of its results, so its pseudocode raises the same error, and error
entry is idempotent. -/
theorem retryRepeatsTheError : Obligations.RetryRepeatsTheError := by
  intro i s t e hi h he
  cases i with
  | lit n => cases hi
  | endRun => cases hi
  | litMax => cases hi
  | trnMax => cases hi
  | trn n => cases hi
  | parseOffsets =>
    rw [exec] at h ⊢
    obtain rfl := (windowOp_err h he).1
    exact windowOp_repeats h <| repeats_bind fun ⟨_, _⟩ => .ite (repeats_refl _) (repeats_ok _ _)
  | frameBytes =>
    rw [exec] at h ⊢
    obtain rfl := (conclude_err h he).1
    exact conclude_repeats h <| repeats_bind fun _ => repeats_bind fun _ => repeats_ok _ _
  | buildContainer =>
    rw [exec] at h ⊢
    obtain rfl := (windowOp_err h he).1
    exact windowOp_repeats h <| repeats_bind fun _ => .ite (repeats_refl _) <| repeats_bind fun _ =>
      .ite (repeats_refl _) <| repeats_bind fun _ => .ite (repeats_refl _) (repeats_storeOutput _)
  | frameWidth =>
    rw [exec] at h ⊢
    exact decoderOp_repeats h he fun _ _ => repeats_bind fun w => repeats_storeWidth w
  | decompress =>
    rw [exec] at h ⊢
    exact decoderOp_repeats h he fun _ _ => repeats_bind fun p => repeats_storeOutput p
  | frameDims =>
    rw [exec] at h ⊢
    exact decoderOp_repeats h he fun _ _ => repeats_bind fun d => repeats_storeDims d
  | compressBlock =>
    rw [exec] at h ⊢
    obtain rfl := (windowOp_err h he).1
    exact windowOp_repeats h <| repeats_bind fun _ => repeats_bind fun out => repeats_storeOutput out
  | compressRow =>
    rw [exec] at h ⊢
    obtain rfl := (windowOp_err h he).1
    exact windowOp_repeats h <| repeats_bind fun _ => repeats_bind fun out => repeats_storeOutput out
  | encodeFrame =>
    rw [exec] at h ⊢
    obtain rfl := (windowOp_err h he).1
    exact windowOp_repeats h <| .ite (repeats_refl _) <| repeats_bind fun _ => repeats_bind fun out =>
      repeats_storeOutput out
  | illegalOp op =>
    rw [exec] at h ⊢
    obtain rfl := (conclude_err h he).1
    exact conclude_repeats h (repeats_refl _)

/-! ### The start and the end of an operation (60_exceptions.md R291, R292) -/

theorem request_eq_of_stores {s t : State} (h : Stores s t) : t.cmdOp = s.cmdOp ∧ t.hostQueue = s.hostQueue := by
  cases h <;> exact ⟨rfl, rfl⟩

/-- The end of an operation sets DONE and leaves OP and the host's later accesses alone. -/
theorem done_request_of_ends {i : Instr} {s t : State} (h : Ends i s t) :
    t.done = true ∧ t.cmdOp = s.cmdOp ∧ t.hostQueue = s.hostQueue := by
  cases h with
  | completed hdr stores =>
    have hrequest := request_eq_of_stores stores
    exact ⟨rfl, hrequest⟩
  | raised hdr e => exact ⟨rfl, rfl, rfl⟩

/-- Settles O49: the pending CMD write is the next step, and every operation's end sets DONE. -/
theorem stepRunsTheRequestedOperation : Obligations.StepRunsTheRequestedOperation := by
  refine ⟨fun s q v hidle hq => ?_, fun i s t hi h => done_request_of_ends (exec_ends hi h)⟩
  calc step s
      _ = exec (decodeRequest v) (State.startOp { s with hostQueue := q } v) := step_pending hidle hq
      _ = exec (decodeRequest v) { s with hostQueue := q, cmdOp := v.setWidth 4, done := false } := by
        rw [← opField_eq_setWidth]
        rfl

/-- Settles O50: the step of an idle block looks at the host's queue, and it is empty. -/
theorem idleBlockHoldsItsState : Obligations.IdleBlockHoldsItsState := by
  intro s hidle hnone
  simp only [step, hidle, idleStep, hnone]

/-! ### Error entry (60_exceptions.md R281, R282) -/

/-- Errors are precise: apart from STATUS.HDR, nothing but error entry has taken effect. -/
theorem exec_errorEntry {i : Instr} {s t : State} {e : Err} (hi : i.isCommand = false) (h : exec i s = .next t)
    (he : t.err = some e) : t = errorEntry i e (withHdr s t.hdr) := by
  cases exec_ends hi h with
  | completed hdr stores => cases he
  | raised hdr e' =>
    obtain rfl : e' = e := Option.some.inj he
    rfl

/-- STATUS.HDR after a decoder operation's error: kept by the window check, else written before the error. -/
theorem decoderOp_err_hdr {i : Instr} {s t : State} {e : Err} {k : State → Window → Except Stop State}
    (h : decoderOp i s k = .next t) (he : t.err = some e) :
    (s.cfg.maxIbuf < s.inBase.toNat + s.inLen.toNat → t.hdr = s.hdr) ∧
      (s.inBase.toNat + s.inLen.toNat ≤ s.cfg.maxIbuf → hdrPresent s.cfg.hdrRule s.window = .ok t.hdr) := by
  obtain ⟨hout, -, rfl⟩ | ⟨hw, hd, hh, -, rfl⟩ := decoderOp_err h he
  · exact ⟨fun _ => rfl, fun hw => absurd hw (Nat.not_le.2 hout)⟩
  · exact ⟨fun hout => absurd hw (Nat.not_le.2 hout), fun _ => hh⟩

/-- Settles O39: each operation ends in its own error entry, and only a decoder operation has written STATUS.HDR. -/
theorem errorEntry : Obligations.ErrorEntry := by
  intro i s t e hi h he
  have hentry := exec_errorEntry hi h he
  refine ⟨by rw [hentry]; rfl, ?parse, ?slice, ?output, ?width, ?decode, ?dims, ?hdr, ?illegal⟩
  case parse =>
    rintro rfl
    rw [exec] at h
    exact (windowOp_err h he).1
  case slice =>
    rintro rfl
    rw [exec] at h
    exact (conclude_err h he).1
  case output => rintro (rfl | rfl | rfl | rfl) <;> rw [exec] at h <;> exact (windowOp_err h he).1
  case width =>
    rintro rfl
    exact hentry
  case decode =>
    rintro rfl
    exact hentry
  case dims =>
    rintro rfl
    exact hentry
  case hdr => rintro (rfl | rfl | rfl) <;> rw [exec] at h <;> exact decoderOp_err_hdr h he
  case illegal =>
    rintro op rfl
    rw [exec] at h
    exact (conclude_err h he).1

end Sys2Proof.Proofs.Exceptions
end

section
/-! SUPPORT. Proofs for 70_reset_and_hazards.md: the platform's reset (R303), that the block never writes IBUF (R308), and
that an operation whose operands have been written comes to its end (R304, R315). -/

namespace Sys2Proof.Proofs.Hazards

open Sys2Proof Sys2Proof.Machine Sys2Proof.Proofs.Scope Sys2Proof.Proofs.Block Sys2Proof.Proofs.Indexer
  Sys2Proof.Proofs.Decoder Sys2Proof.Proofs.Encoder

/-! ### The platform's reset (70_reset_and_hazards.md R303) -/

/-- Settles O60: the pending reset is the next step. -/
theorem platformResetKeepsNothing : Obligations.PlatformResetKeepsNothing := by
  intro s q hidle hq
  calc step s
      _ = platformReset { s with hostQueue := q } := step_pending hidle hq
      _ = .next (State.resetWith s.cfg q) := rfl

/-! ### Who writes IBUF (10_state.md R54, 20_memory.md R86, 70_reset_and_hazards.md R308) -/

theorem ibuf_eq_of_stores {s t : State} (h : Stores s t) : t.ibuf = s.ibuf := by
  cases h <;> rfl

theorem ibuf_eq_of_ends {i : Instr} {s t : State} (h : Ends i s t) : t.ibuf = s.ibuf := by
  cases h with
  | completed hdr stores =>
    have hstores := ibuf_eq_of_stores stores
    exact hstores
  | raised hdr e => rfl

theorem ibuf_eq_of_replayGoes {r : Replay} {s t : State} (h : ReplayGoes r s t) : t.ibuf = s.ibuf := by
  cases h with
  | on r' inside => rfl
  | ended ends => exact ibuf_eq_of_ends ends

/-- A register write leaves IBUF alone, also one to CMD, which runs a whole operation. -/
theorem ibuf_eq_of_hostWriteReg {offset width : Nat} {v : Word} {s t : State}
    (h : hostWriteReg offset width v s = .next t) : t.ibuf = s.ibuf := by
  unfold hostWriteReg at h
  split at h
  · cases h
  · have ends : Ends (decodeRequest v) (s.startOp v) t := exec_ends (decodeRequest_isCommand v) h
    exact (ibuf_eq_of_ends ends).trans (startOp_ibuf s v)
  · cases h
    exact writeReg_keeps_ibuf s _ v

/-- The accesses that write IBUF (70_reset_and_hazards.md R308). -/
def WritesIbuf (e : HostEvent) : Prop :=
  (∃ a bytes, e = .writeIbuf a bytes) ∨ (∃ a b d, e = .copy a b d) ∨ e = .reset

theorem hostStep_writesIbuf {e : HostEvent} {s t : State} (h : hostStep e s = .next t) (hne : t.ibuf ≠ s.ibuf) :
    WritesIbuf e := by
  cases e with
  | writeReg offset width v => exact absurd (ibuf_eq_of_hostWriteReg h) hne
  | readReg offset width =>
    obtain ⟨r, v, -, -, rfl⟩ := hostReadReg_next h
    exact absurd rfl hne
  | writeIbuf a bytes => exact .inl ⟨a, bytes, rfl⟩
  | writeFlen k v =>
    obtain ⟨-, rfl⟩ := hostWriteFlen_next.1 h
    exact absurd rfl hne
  | writeObuf a bytes => cases h
  | writeOfft k v => cases h
  | readMem m a =>
    obtain ⟨-, v, -, rfl⟩ := hostReadMem_next h
    exact absurd rfl hne
  | copy a b d => exact .inr (.inl ⟨a, b, d, rfl⟩)
  | reset => exact .inr (.inr rfl)

/-- Settles O59: no step of a replay and no operation stores to IBUF, so the step is an access that writes it. -/
theorem theBlockNeverWritesIbuf : Obligations.TheBlockNeverWritesIbuf := by
  intro s t h hne
  cases step_cases h with
  | replay r running goes => exact absurd (ibuf_eq_of_replayGoes goes) hne
  | host e q idle pending acts =>
    rw [step_pending idle pending] at h
    exact ⟨idle, e, q, pending, hostStep_writesIbuf h hne⟩
  | hold idle nothing => exact absurd rfl hne

/-! ### Pseudocode that never faults -/

/-- `x` gives a value or raises an error: it reads nothing that has no value (00_scope.md R23). -/
def Answers {α : Type} (x : Except Stop α) : Prop := ∀ f, x ≠ .error (.fault f)

section Rules

variable {α β : Type}

theorem answers_ok (a : α) : Answers (.ok a : Except Stop α) := fun _ => nofun

theorem answers_raise (e : Err) : Answers (raise e : Except Stop α) := fun _ => nofun

theorem answers_of_eq_ok {x : Except Stop α} {a : α} (h : x = .ok a) : Answers x := h ▸ answers_ok a

theorem Answers.bind {x : Except Stop α} {f : α → Except Stop β} (hx : Answers x) (hf : ∀ a, Answers (f a)) :
    Answers (x >>= f) := by
  match x with
  | .ok a => exact hf a
  | .error (.raise e) => exact answers_raise e
  | .error (.fault g) => exact absurd rfl (hx g)

theorem Answers.map {x : Except Stop α} (hx : Answers x) (f : α → β) : Answers (x.map f) := by
  match x with
  | .ok a => exact answers_ok (f a)
  | .error (.raise e) => exact answers_raise e
  | .error (.fault g) => exact absurd rfl (hx g)

theorem Answers.ite {c : Prop} [Decidable c] {x y : Except Stop α} (hx : c → Answers x) (hy : ¬ c → Answers y) :
    Answers (if c then x else y) := by
  split
  · exact hx ‹_›
  · exact hy ‹_›

theorem Answers.conclude_next {r : Except Stop State} (h : Answers r) (i : Instr) (s : State) :
    ∃ t, conclude i s r = .next t := by
  match r with
  | .ok t => exact ⟨_, conclude_ok i s t⟩
  | .error (.raise e) => exact ⟨_, conclude_error_raise i s e⟩
  | .error (.fault f) => exact absurd rfl (h f)

/-! ### Reads of a window whose bytes all have values -/

theorem answers_readByte {B : List Byte} {k : Nat} (h : k < B.length) : Answers (readByte (B.map some) k) :=
  answers_of_eq_ok (a := B[k]) (readByte_ok.2 (by simp [h]))

theorem answers_specified (B : List Byte) : Answers (specified (B.map some)) := answers_of_eq_ok (specified_map_some B)

theorem answers_readSlice (B : List Byte) (a b : Nat) : Answers (readSlice (B.map some) a b) :=
  answers_of_eq_ok (readSlice_map_some B a b)

theorem answers_readWord {B : List Byte} {k : Nat} (h : k + 4 ≤ B.length) : Answers (readWord (B.map some) k) :=
  (answers_readByte (by omega)).bind fun _ => (answers_readByte (by omega)).bind fun _ =>
    (answers_readByte (by omega)).bind fun _ => (answers_readByte (by omega)).bind fun _ => answers_ok _

theorem answers_readWords {B : List Byte} {k n : Nat} (h : k + 4 * n ≤ B.length) :
    Answers (readWords (B.map some) k n) := by
  induction n generalizing k with
  | zero => exact answers_ok []
  | succ n ih => exact (answers_readWord (by omega)).bind fun _ => (ih (by omega)).bind fun _ => answers_ok _

theorem answers_cutFrames (B : List Byte) (p : Nat) (lens : List Nat) : Answers (cutFrames (B.map some) p lens) := by
  induction lens generalizing p with
  | nil => exact answers_ok []
  | cons l ls ih => exact (answers_readSlice B _ _).bind fun _ => (ih (p + l)).bind fun _ => answers_ok _

/-- The count word and the offsets are read only behind the checks that they lie in the window (40_indexer.md R141). -/
theorem answers_parseOffsets (B : List Byte) : Answers (parseOffsets (B.map some)) := by
  refine .ite (fun _ => answers_raise _) fun hcount => ?_
  rw [List.length_map] at hcount
  refine (answers_readWord (by omega)).bind fun n => .ite (fun _ => answers_raise _) fun htable => ?_
  rw [List.length_map] at htable
  exact (answers_readWords (by omega)).bind fun _ => answers_ok _

/-! ### The decoder's functions (41_decoder.md R181 to R194) -/

theorem exists_hdrPresent_map_some (B : List Byte) (rule : HdrRule) : ∃ h, hdrPresent rule (B.map some) = .ok h := by
  cases B with
  | nil => exact ⟨false, rfl⟩
  | cons b B => exact ⟨hdrTest rule b, rfl⟩

theorem answers_cmdStart (B : List Byte) (rule : HdrRule) : Answers (cmdStart rule (B.map some)) := by
  obtain ⟨h, hh⟩ := exists_hdrPresent_map_some B rule
  exact (answers_of_eq_ok hh).bind fun _ =>
    .ite (fun _ => .ite (fun _ => answers_raise _) fun _ => answers_ok _) fun _ => answers_ok _

theorem answers_execAt {B : List Byte} {pc : Nat} (h : pc < B.length) : Answers (execAt (B.map some) pc) :=
  (answers_readByte h).bind fun _ => .ite (fun _ => answers_ok _) fun _ => .ite (fun _ => answers_raise _) fun _ =>
    (answers_readSlice B _ _).bind fun _ => answers_ok _

theorem answers_widthLoop (B : List Byte) (fuel pc acc : Nat) : Answers (widthLoop (B.map some) fuel pc acc) := by
  induction fuel generalizing pc acc with
  | zero => exact answers_raise _
  | succ fuel ih =>
    refine .ite (fun _ => answers_raise _) fun hpc => ?_
    rw [List.length_map] at hpc
    exact (answers_execAt (by omega)).bind fun _ => .ite (fun _ => answers_ok _) fun _ => ih _ _

theorem answers_decodeLoop (B : List Byte) (fuel pc : Nat) (out : List Byte) :
    Answers (decodeLoop (B.map some) fuel pc out) := by
  induction fuel generalizing pc out with
  | zero => exact answers_ok _
  | succ fuel ih =>
    refine .ite (fun _ => answers_ok _) fun hpc => ?_
    rw [List.length_map] at hpc
    exact (answers_execAt (by omega)).bind fun _ => ih _ _

theorem answers_frameWidth (B : List Byte) (rule : HdrRule) : Answers (frameWidth rule (B.map some)) :=
  (answers_cmdStart B rule).bind fun pc => answers_widthLoop B _ pc 0

theorem answers_decompress (B : List Byte) (rule : HdrRule) : Answers (decompress rule (B.map some)) :=
  (answers_cmdStart B rule).bind fun pc => answers_decodeLoop B _ pc []

theorem answers_frameDims (B : List Byte) (rule : HdrRule) : Answers (frameDims rule (B.map some)) :=
  (answers_frameWidth B rule).bind fun _ => (answers_decompress B rule).bind fun _ =>
    .ite (fun _ => answers_raise _) fun _ => answers_ok _

/-! ### The encoder's functions and the stores -/

theorem answers_compressBlock (block : List Byte) : Answers (compressBlock block) :=
  .ite (fun _ => answers_ok _) fun _ => .ite (fun _ => answers_ok _) fun _ => .ite (fun _ => answers_ok _) fun _ =>
    answers_raise _

theorem answers_storeOutput (s : State) (p : List Byte) : Answers (storeOutput s p) :=
  .ite (fun _ => answers_raise _) fun _ => answers_ok _

theorem answers_storeWidth (s : State) (w : Nat) : Answers (storeWidth s w) :=
  .ite (fun _ => answers_raise _) fun _ => answers_ok _

theorem answers_storeDims (s : State) (d : Nat × Nat × List Byte) : Answers (storeDims s d) :=
  (answers_storeOutput s d.2.2).map _

end Rules

/-! ### The operands outside the window: OFFT, the container's registers and FLEN -/

theorem read_ne_none_of_mem_keys {α : Type} {m : Memory α} {k : Nat} (h : k ∈ m.map Prod.fst) :
    Memory.read m k ≠ none := by
  induction m with
  | nil => simp at h
  | cons p m ih =>
    rw [Memory.read]
    split
    · simp
    · rename_i hne
      exact ih ((List.mem_cons.1 h).resolve_left (Ne.symm hne))

/-- Every entry of the offset table below OFFT_LEN has a value (10_state.md R48, R56). -/
theorem answers_readOffset {s : State} {k : Nat} (hs : s.tableExact = true) (h : k < s.offtLen.toNat) :
    Answers (readOffset s.offsets k) := by
  simp only [State.tableExact, Bool.and_eq_true, beq_iff_eq] at hs
  obtain ⟨hkeys, -⟩ := hs
  have hkey : k ∈ s.offt.map Prod.fst := hkeys ▸ List.mem_range.2 h
  obtain ⟨w, hw⟩ := Option.ne_none_iff_exists'.1 (read_ne_none_of_mem_keys hkey)
  exact answers_of_eq_ok (readOffset_ok.2 ((offsets_getElem? s h).trans (congrArg some hw)))

/-- A parsed container, one with an offset, has a base and a length (40_indexer.md R142). -/
theorem container_words {s : State} (hs : s.containerInside = true) (h : 0 < s.offtLen.toNat) :
    ∃ c l, s.contBase = .word c ∧ s.contLen = .word l := by
  have hne : s.offtLen ≠ 0#32 := fun h0 => by simp [h0] at h
  rw [State.containerInside, Bool.or_eq_true, beq_iff_eq] at hs
  have hplace := hs.resolve_left hne
  split at hplace
  · rename_i c l hc hl
    exact ⟨c, l, hc, hl⟩
  · cases hplace

theorem answers_get_of_word {x : RegValue} {v : Word} (h : x = .word v) (r : RegName) : Answers (x.get r) :=
  h ▸ answers_ok v

theorem answers_frameSlice {s : State} {l : Word} (hs : s.tableExact = true) (hl : s.contLen = .word l) (k : Nat) :
    Answers (frameSlice s.offsets s.contLen k) := by
  refine .ite (fun _ => answers_raise _) fun hin => ?_
  rw [offsets_length] at hin
  exact (answers_readOffset hs (by omega)).bind fun _ => (answers_readOffset hs (by omega)).bind fun _ =>
    (answers_get_of_word hl _).bind fun _ => .ite (fun _ => answers_raise _) fun _ => answers_ok _

/-- Without a parsed container FRAME_BYTES ends in IndexOutOfRange; with one its operands have values (40_indexer.md R144). -/
theorem exec_frameBytes_next {s : State} (hs : s.Inv) : ∃ t, exec .frameBytes s = .next t := by
  obtain hnone | hpos := Nat.eq_zero_or_pos s.offtLen.toNat
  · exact ⟨_, execFrameBytes_raise (frameSlice_out_of_range (by rw [offsets_length]; omega))⟩
  · obtain ⟨c, l, hc, hl⟩ := container_words hs.container hpos
    refine Answers.conclude_next ?_ _ _
    exact (answers_frameSlice hs.table hl _).bind fun _ => (answers_get_of_word hc _).bind fun _ => answers_ok _

theorem answers_readLengths {m : Memory Word} {k n : Nat} (h : ∀ j, k ≤ j → j < k + n → Memory.read m j ≠ none) :
    Answers (readLengths m k n) := by
  induction n generalizing k with
  | zero => exact answers_ok []
  | succ n ih =>
    unfold readLengths
    split
    · rename_i hnone
      exact absurd hnone (h k le_rfl (by omega))
    · exact (ih fun j hkj hj => h j (by omega) (by omega)).map _

/-! ### Operations on written operands (70_reset_and_hazards.md R304) -/

/-- A window whose bytes have all been written is a byte sequence (10_state.md R33). -/
theorem exists_windowIs {s : State} (h : s.windowWritten) : ∃ B, s.windowIs B := by
  have hrange : s.window ∈ Set.range (List.map some) := by
    rw [Set.range_list_map]
    intro b hb
    obtain ⟨k, hk, rfl⟩ := List.mem_map.1 hb
    exact Option.ne_none_iff_exists.1 (h k (List.mem_range.1 hk))
  obtain ⟨B, hB⟩ := hrange
  exact ⟨B, hB.symm⟩

section Written

variable {i : Instr} {s : State}
  (hwin : s.inBase.toNat + s.inLen.toNat ≤ s.cfg.maxIbuf → ∃ B, s.windowIs B)
include hwin

theorem windowOp_next_of_written {k : Window → Except Stop State} (hk : ∀ B : List Byte, Answers (k (B.map some))) :
    ∃ t, windowOp i s k = .next t := by
  obtain hout | hw := Nat.lt_or_ge s.cfg.maxIbuf (s.inBase.toNat + s.inLen.toNat)
  · exact ⟨_, windowOp_of_exceeds hout⟩
  · obtain ⟨B, hB⟩ := hwin hw
    rw [windowOp_of_fits hw, hB]
    exact (hk B).conclude_next i s

theorem decoderOp_next_of_written {k : State → Window → Except Stop State}
    (hk : ∀ (u : State) (B : List Byte), Answers (k u (B.map some))) : ∃ t, decoderOp i s k = .next t := by
  obtain hout | hw := Nat.lt_or_ge s.cfg.maxIbuf (s.inBase.toNat + s.inLen.toNat)
  · exact ⟨_, decoderOp_of_exceeds hout⟩
  · obtain ⟨B, hB⟩ := hwin hw
    obtain ⟨h, hh⟩ := exists_hdrPresent_map_some B s.cfg.hdrRule
    rw [decoderOp_of_fits hw (hB ▸ hh), hB]
    exact (hk _ B).conclude_next i _

/-- BUILD_CONTAINER reads FLEN only behind the check of FRAME_COUNT against MAX_FRAMES (40_indexer.md R148). -/
theorem execBuildContainer_next_of_written {n : Word} (hn : s.frameCount = .word n)
    (hflen : ∀ k, k < n.toNat → k < s.cfg.maxFrames → Memory.read s.flen k ≠ none) :
    ∃ t, execBuildContainer s = .next t := by
  refine windowOp_next_of_written hwin fun B => ?_
  rw [hn, regValue_get_word, ok_bind]
  refine .ite (fun _ => answers_raise _) fun hmax => ?_
  exact (answers_readLengths fun k _ hk => hflen k (by omega) (by omega)).bind fun lens =>
    .ite (fun _ => answers_raise _) fun _ => (answers_cutFrames B 0 lens).bind fun _ =>
      .ite (fun _ => answers_raise _) fun _ => answers_storeOutput s _

end Written

/-- An operation faults on nothing but an unwritten window byte, FRAME_COUNT or FLEN entry (00_scope.md R23). -/
theorem exec_next_of_written {i : Instr} {s : State} (hi : i.isCommand = false) (hs : s.Inv)
    (hwritten : i ≠ .frameBytes → (∀ op, i ≠ .illegalOp op) → s.inBase.toNat + s.inLen.toNat ≤ s.cfg.maxIbuf →
      s.windowWritten)
    (hcount : i = .buildContainer → ∃ n : Word, s.frameCount = .word n ∧
      ∀ k, k < n.toNat → k < s.cfg.maxFrames → Memory.read s.flen k ≠ none) : ∃ t, exec i s = .next t := by
  have hwin (hb : i ≠ .frameBytes) (ho : ∀ op, i ≠ .illegalOp op)
      (hw : s.inBase.toNat + s.inLen.toNat ≤ s.cfg.maxIbuf) : ∃ B, s.windowIs B :=
    exists_windowIs (hwritten hb ho hw)
  cases i with
  | lit n => cases hi
  | endRun => cases hi
  | litMax => cases hi
  | trnMax => cases hi
  | trn n => cases hi
  | parseOffsets =>
    rw [exec, execParseOffsets]
    refine windowOp_next_of_written (hwin nofun nofun) fun B => ?_
    exact (answers_parseOffsets B).bind fun ⟨_, _⟩ => .ite (fun _ => answers_raise _) fun _ => answers_ok _
  | frameBytes => exact exec_frameBytes_next hs
  | buildContainer =>
    obtain ⟨n, hn, hflen⟩ := hcount rfl
    exact execBuildContainer_next_of_written (hwin nofun nofun) hn hflen
  | frameWidth =>
    rw [exec, execFrameWidth]
    refine decoderOp_next_of_written (hwin nofun nofun) fun u B => ?_
    exact (answers_frameWidth B _).bind (answers_storeWidth u)
  | decompress =>
    rw [exec, execDecompress]
    refine decoderOp_next_of_written (hwin nofun nofun) fun u B => ?_
    exact (answers_decompress B _).bind (answers_storeOutput u)
  | frameDims =>
    rw [exec, execFrameDims]
    refine decoderOp_next_of_written (hwin nofun nofun) fun u B => ?_
    exact (answers_frameDims B _).bind (answers_storeDims u)
  | compressBlock =>
    rw [exec, execCompressBlock]
    refine windowOp_next_of_written (hwin nofun nofun) fun B => ?_
    exact (answers_specified B).bind fun block => (answers_compressBlock block).bind (answers_storeOutput s)
  | compressRow =>
    rw [exec, execCompressRow]
    refine windowOp_next_of_written (hwin nofun nofun) fun B => ?_
    exact (answers_specified B).bind fun row =>
      (answers_of_eq_ok (compressRow_eq row)).bind (answers_storeOutput s)
  | encodeFrame =>
    rw [exec, execEncodeFrame]
    refine windowOp_next_of_written (hwin nofun nofun) fun B => ?_
    exact .ite (fun _ => answers_raise _) fun _ =>
      (answers_specified B).bind fun G => (answers_of_eq_ok (encodeFrame_eq G _ _)).bind (answers_storeOutput s)
  | illegalOp op => exact (answers_raise _).conclude_next _ s

/-- Settles O41: on written operands no read of the pseudocode faults, so the operation ends, which sets DONE and leaves no
replay. -/
theorem operationsEndOnWrittenOperands : Obligations.OperationsEndOnWrittenOperands := by
  intro i s hi hs hwritten hcount
  obtain ⟨t, h⟩ := exec_next_of_written hi hs hwritten hcount
  have ends := exec_ends hi h
  obtain ⟨hdone, -, -⟩ := Exceptions.done_request_of_ends ends
  exact ⟨t, h, hdone, ends.replay_eq⟩

end Sys2Proof.Proofs.Hazards
end
